-- ==== Sys2Proof/Word.lean ====
section
/-! DEFINITION. The two kinds of bit object of R8: bytes (8-bit words) and bit strings written first bit first. -/

namespace Sys2Proof

/-- One byte of a byte string, or one character code of a format string (R11, R50). -/
abbrev Byte := BitVec 8

/-- A bit string `s⟨0⟩ s⟨1⟩ …` (R8): the head of the list is the first bit, the most significant of a logical string. -/
abbrev Bits := List Bool

end Sys2Proof
end

