-- ==== Sys2Proof/Config.lean ====
section
/-! DEFINITION. What an instance of the hardware fixes: the parameters of R5 and R6, and the free values that
NARROW32 and WIDEN32 take where R154 and R155 leave the result open. -/

namespace Sys2Proof

/-- The capacity parameters of R5 (`none` is unbounded, the source's setting) and the flag `MEMO` of R6. -/
structure Params where
  /-- `MAX_FMT_LEN`: characters in a format string. -/
  maxFmtLen : Option Nat
  /-- `MAX_FIELDS`: field specs in a compiled format. -/
  maxFields : Option Nat
  /-- `MAX_WIDTH`: bit width of one field. -/
  maxWidth : Option Nat
  /-- `MAX_DATA_BYTES`: bytes in an input or output byte string. -/
  maxDataBytes : Option Nat
  /-- `MAX_VALUES`: values supplied to PACK. -/
  maxValues : Option Nat
  /-- `MEMO`: compiled formats are cached (R72). -/
  memo : Bool
  deriving DecidableEq, Repr

/-- The setting that reproduces the source: unbounded (R5, D4); no cache. DESIGN CHOICE, log 5. -/
def Params.unbounded : Params :=
  { maxFmtLen := none, maxFields := none, maxWidth := none, maxDataBytes := none, maxValues := none, memo := false }

/-- FREE VALUE (R154 (d), log 8): what NARROW32 answers for a real that binary32 cannot hold exactly,
a binary32 pattern or `none` for its failure. -/
opaque Config.narrowInexact : BitVec 64 → Option (BitVec 32)

/-- FREE VALUE (R154 (c), log 8): sign and payload of the binary32 NaN that NARROW32 makes of a binary64 NaN. -/
opaque Config.narrowNaN : BitVec 64 → BitVec 32

/-- FREE VALUE (R155 (c), log 9): sign and payload of the binary64 NaN that WIDEN32 makes of a binary32 NaN. -/
opaque Config.widenNaN : BitVec 32 → BitVec 64

end Sys2Proof
end

