-- ==== Sys2Proof/Syntax.lean ====
section
/-! DEFINITION. The instruction set as data: field kinds, bit orders, field specs, and `Instr`, one constructor per
row of spec/opcode_table.json. -/

namespace Sys2Proof

/-- The two bit orders of a field (R2, R25). -/
inductive BitOrder where
  | msbFirst
  | lsbFirst
  deriving DecidableEq, Repr

/-- The seven recognised kinds (R84). -/
inductive Kind where
  | u | s | f | b | t | r | p
  deriving DecidableEq, Repr

/-- The direction of a field instruction: `enc` under PACK, `dec` under UNPACK (R1). -/
inductive Dir where
  | enc
  | dec
  deriving DecidableEq, Repr

/-- A compiled field spec `(kind, width, bit_order)` (R25): the kind letter as it was written, any width. -/
structure FieldSpec where
  kind  : Byte
  width : Nat
  order : BitOrder
  deriving DecidableEq, Repr

/-- The instructions, one constructor per row of spec/opcode_table.json.
The operands of a field instruction are its width (R85) and its bit order after inheritance (R112). -/
inductive Instr where
  /-- `u.enc` (R130): unsigned integer, PACK. -/
  | uEnc (width : Nat) (order : BitOrder)
  /-- `u.dec` (R131): unsigned integer, UNPACK. -/
  | uDec (width : Nat) (order : BitOrder)
  /-- `s.enc` (R132): signed integer, PACK. -/
  | sEnc (width : Nat) (order : BitOrder)
  /-- `s.dec` (R133): signed integer, UNPACK. -/
  | sDec (width : Nat) (order : BitOrder)
  /-- `f.enc` (R151): float, PACK. -/
  | fEnc (width : Nat) (order : BitOrder)
  /-- `f.dec` (R152): float, UNPACK. -/
  | fDec (width : Nat) (order : BitOrder)
  /-- `b.enc` (R134): boolean, PACK. -/
  | bEnc (width : Nat) (order : BitOrder)
  /-- `b.dec` (R135): boolean, UNPACK. -/
  | bDec (width : Nat) (order : BitOrder)
  /-- `t.enc` (R166): text, PACK. -/
  | tEnc (width : Nat) (order : BitOrder)
  /-- `t.dec` (R167): text, UNPACK. -/
  | tDec (width : Nat) (order : BitOrder)
  /-- `r.enc` (R170): raw bytes, PACK. -/
  | rEnc (width : Nat) (order : BitOrder)
  /-- `r.dec` (R171): raw bytes, UNPACK. -/
  | rDec (width : Nat) (order : BitOrder)
  /-- `p.enc` (R174): padding, PACK. -/
  | pEnc (width : Nat) (order : BitOrder)
  /-- `p.dec` (R175): padding, UNPACK. -/
  | pDec (width : Nat) (order : BitOrder)
  /-- `illegal.A` … `illegal.Z`, `illegal.a` … `illegal.z` (R87, R196): a group with a letter that is no kind. -/
  | illegalUpperA (width : Nat) (order : BitOrder)
  | illegalUpperB (width : Nat) (order : BitOrder)
  | illegalUpperC (width : Nat) (order : BitOrder)
  | illegalUpperD (width : Nat) (order : BitOrder)
  | illegalUpperE (width : Nat) (order : BitOrder)
  | illegalUpperF (width : Nat) (order : BitOrder)
  | illegalUpperG (width : Nat) (order : BitOrder)
  | illegalUpperH (width : Nat) (order : BitOrder)
  | illegalUpperI (width : Nat) (order : BitOrder)
  | illegalUpperJ (width : Nat) (order : BitOrder)
  | illegalUpperK (width : Nat) (order : BitOrder)
  | illegalUpperL (width : Nat) (order : BitOrder)
  | illegalUpperM (width : Nat) (order : BitOrder)
  | illegalUpperN (width : Nat) (order : BitOrder)
  | illegalUpperO (width : Nat) (order : BitOrder)
  | illegalUpperP (width : Nat) (order : BitOrder)
  | illegalUpperQ (width : Nat) (order : BitOrder)
  | illegalUpperR (width : Nat) (order : BitOrder)
  | illegalUpperS (width : Nat) (order : BitOrder)
  | illegalUpperT (width : Nat) (order : BitOrder)
  | illegalUpperU (width : Nat) (order : BitOrder)
  | illegalUpperV (width : Nat) (order : BitOrder)
  | illegalUpperW (width : Nat) (order : BitOrder)
  | illegalUpperX (width : Nat) (order : BitOrder)
  | illegalUpperY (width : Nat) (order : BitOrder)
  | illegalUpperZ (width : Nat) (order : BitOrder)
  | illegalLowerA (width : Nat) (order : BitOrder)
  | illegalLowerC (width : Nat) (order : BitOrder)
  | illegalLowerD (width : Nat) (order : BitOrder)
  | illegalLowerE (width : Nat) (order : BitOrder)
  | illegalLowerG (width : Nat) (order : BitOrder)
  | illegalLowerH (width : Nat) (order : BitOrder)
  | illegalLowerI (width : Nat) (order : BitOrder)
  | illegalLowerJ (width : Nat) (order : BitOrder)
  | illegalLowerK (width : Nat) (order : BitOrder)
  | illegalLowerL (width : Nat) (order : BitOrder)
  | illegalLowerM (width : Nat) (order : BitOrder)
  | illegalLowerN (width : Nat) (order : BitOrder)
  | illegalLowerO (width : Nat) (order : BitOrder)
  | illegalLowerQ (width : Nat) (order : BitOrder)
  | illegalLowerV (width : Nat) (order : BitOrder)
  | illegalLowerW (width : Nat) (order : BitOrder)
  | illegalLowerX (width : Nat) (order : BitOrder)
  | illegalLowerY (width : Nat) (order : BitOrder)
  | illegalLowerZ (width : Nat) (order : BitOrder)
  /-- The prefix `>` (R83, R112). -/
  | prefixMsb
  /-- The prefix `<` (R83, R112). -/
  | prefixLsb
  /-- A character that starts no group (R86). -/
  | skip (char : Byte)
  /-- The command PACK, OP = 0 (R97, R192). -/
  | pack
  /-- The command UNPACK, OP = 1 (R97, R201). -/
  | unpack
  /-- The command CALCSIZE, OP = 2 (R97, R208). -/
  | calcsize
  /-- The command BYTESWAP, OP = 3 (R97, R211). -/
  | byteswap
  /-- The BYTESWAP group character `0` (R212). -/
  | byteswapGroup0
  /-- The BYTESWAP group character `1` (R212). -/
  | byteswapGroup1
  /-- The BYTESWAP group character `2` (R212). -/
  | byteswapGroup2
  /-- The BYTESWAP group character `3` (R212). -/
  | byteswapGroup3
  /-- The BYTESWAP group character `4` (R212). -/
  | byteswapGroup4
  /-- The BYTESWAP group character `5` (R212). -/
  | byteswapGroup5
  /-- The BYTESWAP group character `6` (R212). -/
  | byteswapGroup6
  /-- The BYTESWAP group character `7` (R212). -/
  | byteswapGroup7
  /-- The BYTESWAP group character `8` (R212). -/
  | byteswapGroup8
  /-- The BYTESWAP group character `9` (R212). -/
  | byteswapGroup9
  deriving DecidableEq, Repr

end Sys2Proof
end

