-- ==== Sys2Proof/WellFormed.lean ====
section
/-! DEFINITION. Which instructions are well formed: the legal kinds and widths of R84. A group that fails a check
still compiles (R87, R91, R92, R113); PACK and UNPACK raise *format error* when they reach it (R196). -/

namespace Sys2Proof

/-- What can be wrong with an instruction, in the order R196 looks for it. -/
inductive WfProblem where
  /-- The letter is none of `u s f b t r p` (R87). -/
  | unknownKind
  /-- Width 0 (R92, decision D8). -/
  | zeroWidth
  /-- A float width other than 32 and 64 (R91). -/
  | floatWidth
  deriving DecidableEq, Repr

/-- The width check of every kind but `f` (R84: "any ≥ 1"). -/
def checkWidth (w : Nat) : Option WfProblem :=
  if w = 0 then some .zeroWidth else none

/-- The width check of `f` (R84, R91). -/
def checkFloatWidth (w : Nat) : Option WfProblem :=
  if w = 0 then some .zeroWidth
  else if w = 32 ∨ w = 64 then none
  else some .floatWidth

/-- The first thing wrong with an instruction, if any. -/
def Instr.problem : Instr → Option WfProblem
  | .uEnc w _ => checkWidth w
  | .uDec w _ => checkWidth w
  | .sEnc w _ => checkWidth w
  | .sDec w _ => checkWidth w
  | .fEnc w _ => checkFloatWidth w
  | .fDec w _ => checkFloatWidth w
  | .bEnc w _ => checkWidth w
  | .bDec w _ => checkWidth w
  | .tEnc w _ => checkWidth w
  | .tDec w _ => checkWidth w
  | .rEnc w _ => checkWidth w
  | .rDec w _ => checkWidth w
  | .pEnc w _ => checkWidth w
  | .pDec w _ => checkWidth w
  | .illegalUpperA _ _ => some .unknownKind
  | .illegalUpperB _ _ => some .unknownKind
  | .illegalUpperC _ _ => some .unknownKind
  | .illegalUpperD _ _ => some .unknownKind
  | .illegalUpperE _ _ => some .unknownKind
  | .illegalUpperF _ _ => some .unknownKind
  | .illegalUpperG _ _ => some .unknownKind
  | .illegalUpperH _ _ => some .unknownKind
  | .illegalUpperI _ _ => some .unknownKind
  | .illegalUpperJ _ _ => some .unknownKind
  | .illegalUpperK _ _ => some .unknownKind
  | .illegalUpperL _ _ => some .unknownKind
  | .illegalUpperM _ _ => some .unknownKind
  | .illegalUpperN _ _ => some .unknownKind
  | .illegalUpperO _ _ => some .unknownKind
  | .illegalUpperP _ _ => some .unknownKind
  | .illegalUpperQ _ _ => some .unknownKind
  | .illegalUpperR _ _ => some .unknownKind
  | .illegalUpperS _ _ => some .unknownKind
  | .illegalUpperT _ _ => some .unknownKind
  | .illegalUpperU _ _ => some .unknownKind
  | .illegalUpperV _ _ => some .unknownKind
  | .illegalUpperW _ _ => some .unknownKind
  | .illegalUpperX _ _ => some .unknownKind
  | .illegalUpperY _ _ => some .unknownKind
  | .illegalUpperZ _ _ => some .unknownKind
  | .illegalLowerA _ _ => some .unknownKind
  | .illegalLowerC _ _ => some .unknownKind
  | .illegalLowerD _ _ => some .unknownKind
  | .illegalLowerE _ _ => some .unknownKind
  | .illegalLowerG _ _ => some .unknownKind
  | .illegalLowerH _ _ => some .unknownKind
  | .illegalLowerI _ _ => some .unknownKind
  | .illegalLowerJ _ _ => some .unknownKind
  | .illegalLowerK _ _ => some .unknownKind
  | .illegalLowerL _ _ => some .unknownKind
  | .illegalLowerM _ _ => some .unknownKind
  | .illegalLowerN _ _ => some .unknownKind
  | .illegalLowerO _ _ => some .unknownKind
  | .illegalLowerQ _ _ => some .unknownKind
  | .illegalLowerV _ _ => some .unknownKind
  | .illegalLowerW _ _ => some .unknownKind
  | .illegalLowerX _ _ => some .unknownKind
  | .illegalLowerY _ _ => some .unknownKind
  | .illegalLowerZ _ _ => some .unknownKind
  | .prefixMsb => none
  | .prefixLsb => none
  | .skip _ => none
  | .pack => none
  | .unpack => none
  | .calcsize => none
  | .byteswap => none
  | .byteswapGroup0 => none
  | .byteswapGroup1 => none
  | .byteswapGroup2 => none
  | .byteswapGroup3 => none
  | .byteswapGroup4 => none
  | .byteswapGroup5 => none
  | .byteswapGroup6 => none
  | .byteswapGroup7 => none
  | .byteswapGroup8 => none
  | .byteswapGroup9 => none

/-- An instruction is well formed when no check of R196 fails on it. -/
def Instr.wf (i : Instr) : Bool := i.problem.isNone

end Sys2Proof
end

