-- ==== Sys2Proof/Decode.lean ====
section
/-! DEFINITION. The encoding of the format string (30_encoding.md, 40_format_compiler.md): the scanner, the format
compiler, the decoder from bytes and spec entries to instructions, and the encoder back. -/

namespace Sys2Proof

/-! ## Characters (R11) -/

/-- `is_order(c)`: `<` or `>`. -/
def isOrder (c : Byte) : Bool := c == 0x3C || c == 0x3E

/-- `is_letter(c)`: `A … Z` or `a … z`. -/
def isLetter (c : Byte) : Bool := (0x41 ≤ c && c ≤ 0x5A) || (0x61 ≤ c && c ≤ 0x7A)

/-- `is_digit(c)`: `0 … 9`. -/
def isDigit (c : Byte) : Bool := 0x30 ≤ c && c ≤ 0x39

/-- `digit(c) = c - 0x30`. -/
def digit (c : Byte) : Nat := c.toNat - 0x30

/-- The bit order a prefix character names (R83), none for any other character. -/
def orderOfChar (c : Byte) : Option BitOrder :=
  if c = 0x3E then some .msbFirst else if c = 0x3C then some .lsbFirst else none

/-- The prefix character of a bit order (R81). -/
def charOfOrder : BitOrder → Byte
  | .msbFirst => 0x3E
  | .lsbFirst => 0x3C

/-! ## Groups (R82, R85) -/

/-- The longest run of digits at the head of the text, read base 10 on top of `acc` (R85), and the text after it. -/
def digitRun (acc : Nat) : List Byte → Nat × List Byte
  | [] => (acc, [])
  | c :: cs => if isDigit c then digitRun (10 * acc + digit c) cs else (acc, c :: cs)

/-- A group without its prefix at the head of the text: a letter and at least one digit (R82).
The answer is the letter, the width and the text after the group. -/
def plainGroupAt : List Byte → Option (Byte × Nat × List Byte)
  | c :: d :: rest =>
    if isLetter c && isDigit d then
      let (width, after) := digitRun 0 (d :: rest)
      some (c, width, after)
    else none
  | _ => none

/-- A group with its optional prefix at the head of the text (R81, R82). Without a prefix it takes the bit order
`prev` of the group before it (R89, R112). -/
def groupAt (prev : BitOrder) : List Byte → Option (FieldSpec × List Byte)
  | [] => none
  | c :: cs =>
    match orderOfChar c with
    | some o => (plainGroupAt cs).map fun (k, w, after) => (⟨k, w, o⟩, after)
    | none => (plainGroupAt (c :: cs)).map fun (k, w, after) => (⟨k, w, prev⟩, after)

/-! ## The format compiler (R111) -/

/-- The loop of R111 on the text from `SI` on, `PREV = prev`, for at most `fuel` turns; the text's length is always
enough. -/
def compileLoop : Nat → BitOrder → List Byte → List FieldSpec
  | 0, _, _ => []
  | _ + 1, _, [] => []
  | fuel + 1, prev, c :: cs =>
    match groupAt prev (c :: cs) with
    | some (f, after) => f :: compileLoop fuel f.order after
    | none => compileLoop fuel prev cs

/-- The compiler started in the middle of a string with the bit order `prev` (`compile'` of R117). -/
def compileFrom (prev : BitOrder) (text : List Byte) : List FieldSpec :=
  compileLoop text.length prev text

/-- `compile(FMT)` (R111): total, never failing (R110). -/
def compile (fmt : List Byte) : List FieldSpec := compileFrom .msbFirst fmt

/-- `calcsize` of a spec table: the sum of the widths of every entry (R115). -/
def calcsizeOf (spec : List FieldSpec) : Nat := (spec.map (·.width)).sum

/-- An entry is padding when its letter is `p`; an illegal letter is not (R116). -/
def FieldSpec.isPadding (f : FieldSpec) : Bool := f.kind == 0x70

/-- `k`, the number of value-carrying entries (R116). -/
def valueCount (spec : List FieldSpec) : Nat := spec.countP fun f => !f.isPadding

/-! ## Decoding to instructions -/

/-- The seven kind letters (R84). -/
def Kind.letter : Kind → Byte
  | .u => 0x75
  | .s => 0x73
  | .f => 0x66
  | .b => 0x62
  | .t => 0x74
  | .r => 0x72
  | .p => 0x70

/-- The kind a letter stands for (R84, case-sensitive). -/
def Kind.ofLetter (c : Byte) : Option Kind :=
  match c.toNat with
  | 0x75 => some .u
  | 0x73 => some .s
  | 0x66 => some .f
  | 0x62 => some .b
  | 0x74 => some .t
  | 0x72 => some .r
  | 0x70 => some .p
  | _ => none

/-- The field instruction of a recognised kind in the direction the command gives. -/
def Kind.instr (k : Kind) (d : Dir) (w : Nat) (o : BitOrder) : Instr :=
  match k, d with
  | .u, .enc => .uEnc w o
  | .u, .dec => .uDec w o
  | .s, .enc => .sEnc w o
  | .s, .dec => .sDec w o
  | .f, .enc => .fEnc w o
  | .f, .dec => .fDec w o
  | .b, .enc => .bEnc w o
  | .b, .dec => .bDec w o
  | .t, .enc => .tEnc w o
  | .t, .dec => .tDec w o
  | .r, .enc => .rEnc w o
  | .r, .dec => .rDec w o
  | .p, .enc => .pEnc w o
  | .p, .dec => .pDec w o

/-- The instruction of a group with an illegal letter (R87); none for a code that is no such letter. -/
def illegalInstr (c : Byte) (w : Nat) (o : BitOrder) : Option Instr :=
  match c.toNat with
  | 0x41 => some (.illegalUpperA w o)
  | 0x42 => some (.illegalUpperB w o)
  | 0x43 => some (.illegalUpperC w o)
  | 0x44 => some (.illegalUpperD w o)
  | 0x45 => some (.illegalUpperE w o)
  | 0x46 => some (.illegalUpperF w o)
  | 0x47 => some (.illegalUpperG w o)
  | 0x48 => some (.illegalUpperH w o)
  | 0x49 => some (.illegalUpperI w o)
  | 0x4A => some (.illegalUpperJ w o)
  | 0x4B => some (.illegalUpperK w o)
  | 0x4C => some (.illegalUpperL w o)
  | 0x4D => some (.illegalUpperM w o)
  | 0x4E => some (.illegalUpperN w o)
  | 0x4F => some (.illegalUpperO w o)
  | 0x50 => some (.illegalUpperP w o)
  | 0x51 => some (.illegalUpperQ w o)
  | 0x52 => some (.illegalUpperR w o)
  | 0x53 => some (.illegalUpperS w o)
  | 0x54 => some (.illegalUpperT w o)
  | 0x55 => some (.illegalUpperU w o)
  | 0x56 => some (.illegalUpperV w o)
  | 0x57 => some (.illegalUpperW w o)
  | 0x58 => some (.illegalUpperX w o)
  | 0x59 => some (.illegalUpperY w o)
  | 0x5A => some (.illegalUpperZ w o)
  | 0x61 => some (.illegalLowerA w o)
  | 0x63 => some (.illegalLowerC w o)
  | 0x64 => some (.illegalLowerD w o)
  | 0x65 => some (.illegalLowerE w o)
  | 0x67 => some (.illegalLowerG w o)
  | 0x68 => some (.illegalLowerH w o)
  | 0x69 => some (.illegalLowerI w o)
  | 0x6A => some (.illegalLowerJ w o)
  | 0x6B => some (.illegalLowerK w o)
  | 0x6C => some (.illegalLowerL w o)
  | 0x6D => some (.illegalLowerM w o)
  | 0x6E => some (.illegalLowerN w o)
  | 0x6F => some (.illegalLowerO w o)
  | 0x71 => some (.illegalLowerQ w o)
  | 0x76 => some (.illegalLowerV w o)
  | 0x77 => some (.illegalLowerW w o)
  | 0x78 => some (.illegalLowerX w o)
  | 0x79 => some (.illegalLowerY w o)
  | 0x7A => some (.illegalLowerZ w o)
  | _ => none

/-- The instruction a spec entry stands for under a command of direction `d` (R26, R84, R87);
none when the entry's kind is no letter, which no compiled entry has. -/
def decodeField (d : Dir) (f : FieldSpec) : Option Instr :=
  match Kind.ofLetter f.kind with
  | some k => some (k.instr d f.width f.order)
  | none => illegalInstr f.kind f.width f.order

/-- The command an OP code selects (R97). -/
def decodeCommand (op : BitVec 2) : Instr :=
  match op.toNat with
  | 0 => .pack
  | 1 => .unpack
  | 2 => .calcsize
  | _ => .byteswap

/-- The instruction of a BYTESWAP group character (R212); none for a character that is no digit. -/
def decodeGroupChar (c : Byte) : Option Instr :=
  match c.toNat with
  | 0x30 => some .byteswapGroup0
  | 0x31 => some .byteswapGroup1
  | 0x32 => some .byteswapGroup2
  | 0x33 => some .byteswapGroup3
  | 0x34 => some .byteswapGroup4
  | 0x35 => some .byteswapGroup5
  | 0x36 => some .byteswapGroup6
  | 0x37 => some .byteswapGroup7
  | 0x38 => some .byteswapGroup8
  | 0x39 => some .byteswapGroup9
  | _ => none

/-- The prefix instruction of a bit order (R83). -/
def prefixInstr : BitOrder → Instr
  | .msbFirst => .prefixMsb
  | .lsbFirst => .prefixLsb

/-- What the scanner executes at the character `c` followed by `cs` when no plain group starts there:
a prefix when `c` is a bit-order character standing immediately before a group (R83), else a skipped character
(R86, R90). -/
def decodeScanChar (c : Byte) (cs : List Byte) : Instr :=
  match orderOfChar c, plainGroupAt cs with
  | some o, some _ => prefixInstr o
  | _, _ => .skip c

/-- Where the bytes given to `decode` stand, which decides how they are read. -/
inductive Context where
  /-- The `OP` register of a command, one byte with the code. -/
  | command
  /-- A whole group of a format string (R81), under a command of direction `d`, after a group of order `prev`. -/
  | group (d : Dir) (prev : BitOrder)
  /-- A character of a format string at which no plain group starts. -/
  | scan
  /-- A character of BYTESWAP's `GROUPS`. -/
  | swapGroup
  deriving DecidableEq, Repr

/-- Why bytes are no instruction in their context. -/
inductive Reject where
  /-- No byte is left. -/
  | endOfText
  /-- The `OP` code is above 3. -/
  | noSuchCommand
  /-- No group starts here (R82). -/
  | noGroup
  /-- A plain group starts here: the compiler takes it into the spec table, it is not skipped. -/
  | plainGroup
  /-- The group character is no digit (R212). -/
  | notADigit
  deriving DecidableEq, Repr

/-- The decoder: total on any bytes, answering the instruction and the bytes after it, or why there is none. -/
def decode (ctx : Context) (bytes : List Byte) : Except Reject (Instr × List Byte) :=
  match bytes with
  | [] => .error .endOfText
  | c :: cs =>
    match ctx with
    | .command => if c.toNat < 4 then .ok (decodeCommand (c.setWidth 2), cs) else .error .noSuchCommand
    | .group d prev =>
      match groupAt prev (c :: cs) with
      | none => .error .noGroup
      | some (f, after) =>
        match decodeField d f with
        | none => .error .noGroup
        | some i => .ok (i, after)
    | .scan =>
      match plainGroupAt (c :: cs) with
      | some _ => .error .plainGroup
      | none => .ok (decodeScanChar c cs, cs)
    | .swapGroup =>
      match decodeGroupChar c with
      | none => .error .notADigit
      | some i => .ok (i, cs)

/-! ## Encoding -/

/-- The spec entry a field instruction executes, none for the other instructions. -/
def Instr.fieldSpec : Instr → Option FieldSpec
  | .uEnc w o => some ⟨0x75, w, o⟩
  | .uDec w o => some ⟨0x75, w, o⟩
  | .sEnc w o => some ⟨0x73, w, o⟩
  | .sDec w o => some ⟨0x73, w, o⟩
  | .fEnc w o => some ⟨0x66, w, o⟩
  | .fDec w o => some ⟨0x66, w, o⟩
  | .bEnc w o => some ⟨0x62, w, o⟩
  | .bDec w o => some ⟨0x62, w, o⟩
  | .tEnc w o => some ⟨0x74, w, o⟩
  | .tDec w o => some ⟨0x74, w, o⟩
  | .rEnc w o => some ⟨0x72, w, o⟩
  | .rDec w o => some ⟨0x72, w, o⟩
  | .pEnc w o => some ⟨0x70, w, o⟩
  | .pDec w o => some ⟨0x70, w, o⟩
  | .illegalUpperA w o => some ⟨0x41, w, o⟩
  | .illegalUpperB w o => some ⟨0x42, w, o⟩
  | .illegalUpperC w o => some ⟨0x43, w, o⟩
  | .illegalUpperD w o => some ⟨0x44, w, o⟩
  | .illegalUpperE w o => some ⟨0x45, w, o⟩
  | .illegalUpperF w o => some ⟨0x46, w, o⟩
  | .illegalUpperG w o => some ⟨0x47, w, o⟩
  | .illegalUpperH w o => some ⟨0x48, w, o⟩
  | .illegalUpperI w o => some ⟨0x49, w, o⟩
  | .illegalUpperJ w o => some ⟨0x4A, w, o⟩
  | .illegalUpperK w o => some ⟨0x4B, w, o⟩
  | .illegalUpperL w o => some ⟨0x4C, w, o⟩
  | .illegalUpperM w o => some ⟨0x4D, w, o⟩
  | .illegalUpperN w o => some ⟨0x4E, w, o⟩
  | .illegalUpperO w o => some ⟨0x4F, w, o⟩
  | .illegalUpperP w o => some ⟨0x50, w, o⟩
  | .illegalUpperQ w o => some ⟨0x51, w, o⟩
  | .illegalUpperR w o => some ⟨0x52, w, o⟩
  | .illegalUpperS w o => some ⟨0x53, w, o⟩
  | .illegalUpperT w o => some ⟨0x54, w, o⟩
  | .illegalUpperU w o => some ⟨0x55, w, o⟩
  | .illegalUpperV w o => some ⟨0x56, w, o⟩
  | .illegalUpperW w o => some ⟨0x57, w, o⟩
  | .illegalUpperX w o => some ⟨0x58, w, o⟩
  | .illegalUpperY w o => some ⟨0x59, w, o⟩
  | .illegalUpperZ w o => some ⟨0x5A, w, o⟩
  | .illegalLowerA w o => some ⟨0x61, w, o⟩
  | .illegalLowerC w o => some ⟨0x63, w, o⟩
  | .illegalLowerD w o => some ⟨0x64, w, o⟩
  | .illegalLowerE w o => some ⟨0x65, w, o⟩
  | .illegalLowerG w o => some ⟨0x67, w, o⟩
  | .illegalLowerH w o => some ⟨0x68, w, o⟩
  | .illegalLowerI w o => some ⟨0x69, w, o⟩
  | .illegalLowerJ w o => some ⟨0x6A, w, o⟩
  | .illegalLowerK w o => some ⟨0x6B, w, o⟩
  | .illegalLowerL w o => some ⟨0x6C, w, o⟩
  | .illegalLowerM w o => some ⟨0x6D, w, o⟩
  | .illegalLowerN w o => some ⟨0x6E, w, o⟩
  | .illegalLowerO w o => some ⟨0x6F, w, o⟩
  | .illegalLowerQ w o => some ⟨0x71, w, o⟩
  | .illegalLowerV w o => some ⟨0x76, w, o⟩
  | .illegalLowerW w o => some ⟨0x77, w, o⟩
  | .illegalLowerX w o => some ⟨0x78, w, o⟩
  | .illegalLowerY w o => some ⟨0x79, w, o⟩
  | .illegalLowerZ w o => some ⟨0x7A, w, o⟩
  | .prefixMsb => none
  | .prefixLsb => none
  | .skip _ => none
  | .pack => none
  | .unpack => none
  | .calcsize => none
  | .byteswap => none
  | .byteswapGroup0 => none
  | .byteswapGroup1 => none
  | .byteswapGroup2 => none
  | .byteswapGroup3 => none
  | .byteswapGroup4 => none
  | .byteswapGroup5 => none
  | .byteswapGroup6 => none
  | .byteswapGroup7 => none
  | .byteswapGroup8 => none
  | .byteswapGroup9 => none

/-- The direction of a field instruction. The illegal letters are the same in both; `enc` stands for them here. -/
def Instr.dir : Instr → Dir
  | .uDec _ _ => .dec
  | .sDec _ _ => .dec
  | .fDec _ _ => .dec
  | .bDec _ _ => .dec
  | .tDec _ _ => .dec
  | .rDec _ _ => .dec
  | .pDec _ _ => .dec
  | _ => .enc

/-- The decimal digits of a natural number, most significant first, without leading zeros. -/
def decimalLoop : Nat → Nat → List Byte → List Byte
  | 0, _, acc => acc
  | fuel + 1, n, acc =>
    let acc' := BitVec.ofNat 8 (0x30 + n % 10) :: acc
    if n / 10 = 0 then acc' else decimalLoop fuel (n / 10) acc'

/-- The width field of a group (R81, R85). -/
def decimal (n : Nat) : List Byte := decimalLoop (n + 1) n []

/-- The text of a spec entry as one group with an explicit prefix (R81). -/
def encodeSpec (f : FieldSpec) : List Byte := charOfOrder f.order :: f.kind :: decimal f.width

/-- The bytes of an instruction in its context: a group's text with its prefix (R81), one character for a prefix,
a skipped character and a group character, one byte with the code for a command (R97). -/
def encode (i : Instr) : List Byte :=
  match i.fieldSpec with
  | some f => encodeSpec f
  | none =>
    match i with
    | .prefixMsb => [0x3E]
    | .prefixLsb => [0x3C]
    | .skip c => [c]
    | .unpack => [1]
    | .calcsize => [2]
    | .byteswap => [3]
    | .byteswapGroup0 => [0x30]
    | .byteswapGroup1 => [0x31]
    | .byteswapGroup2 => [0x32]
    | .byteswapGroup3 => [0x33]
    | .byteswapGroup4 => [0x34]
    | .byteswapGroup5 => [0x35]
    | .byteswapGroup6 => [0x36]
    | .byteswapGroup7 => [0x37]
    | .byteswapGroup8 => [0x38]
    | .byteswapGroup9 => [0x39]
    | _ => [0]

/-- The context in which an instruction's bytes are read. -/
def contextOf (prev : BitOrder) (i : Instr) : Context :=
  match i.fieldSpec with
  | some _ => .group i.dir prev
  | none =>
    match i with
    | .prefixMsb => .scan
    | .prefixLsb => .scan
    | .skip _ => .scan
    | .byteswapGroup0 => .swapGroup
    | .byteswapGroup1 => .swapGroup
    | .byteswapGroup2 => .swapGroup
    | .byteswapGroup3 => .swapGroup
    | .byteswapGroup4 => .swapGroup
    | .byteswapGroup5 => .swapGroup
    | .byteswapGroup6 => .swapGroup
    | .byteswapGroup7 => .swapGroup
    | .byteswapGroup8 => .swapGroup
    | .byteswapGroup9 => .swapGroup
    | _ => .command

/-- What must follow an instruction's bytes so that they are that instruction: after a group no further digit (R82),
after a prefix a letter and a digit (R83), after a skipped character nothing that makes a group with it (R86). -/
def Instr.delimited (i : Instr) (tail : List Byte) : Bool :=
  match i.fieldSpec with
  | some _ => match tail with
    | [] => true
    | c :: _ => !isDigit c
  | none =>
    match i with
    | .prefixMsb => (plainGroupAt tail).isSome
    | .prefixLsb => (plainGroupAt tail).isSome
    | .skip c => (groupAt .msbFirst (c :: tail)).isNone
    | _ => true

/-! ## The host's table words (log 10) -/

/-- The bytes of a table word, the first byte first. -/
def wordBytes (nbits w : Nat) : List Byte :=
  (List.range ((nbits + 7) / 8)).map fun j => BitVec.ofNat 8 (w >>> (8 * j))

/-- The instruction of a row of spec/opcode_table.json from its bits (log 10): a letter is the kind of a spec entry
whose width is the digits after it (none: 0), read under PACK; the other rows are one byte. The row that fixes no
bit is the skipped character. -/
def decodeTableWord (nbits w : Nat) : Option Instr :=
  match wordBytes nbits w with
  | [] => some (.skip 0)
  | c :: rest =>
    if isLetter c then decodeField .enc ⟨c, (digitRun 0 rest).1, .msbFirst⟩
    else if isDigit c then decodeGroupChar c
    else match orderOfChar c with
      | some o => some (prefixInstr o)
      | none => if c.toNat < 4 then some (decodeCommand (c.setWidth 2)) else some (.skip c)

end Sys2Proof
end

