-- ==== Sys2Proof/Machine/State.lean ====
section
/-! DEFINITION. The state of the machine (10_state.md), plain data, and its value after reset (R38, R260). -/

namespace Sys2Proof.Machine

/-! ## Values, commands, responses -/

/-- A value (R23). -/
inductive Value where
  /-- A mathematical integer. -/
  | int (z : Int)
  /-- A boolean. -/
  | bool (b : Bool)
  /-- An IEEE-754 binary64 datum as its 64-bit pattern. -/
  | real (x : BitVec 64)
  /-- A byte sequence. -/
  | bytes (y : List Byte)
  /-- A sequence of code points, each an integer. -/
  | text (t : List Int)
  deriving DecidableEq, Repr

/-- An element of BYTESWAP's `GROUPS` (R212). -/
inductive GroupElem where
  | nat (n : Nat)
  | char (c : Byte)
  deriving DecidableEq, Repr

/-- The command in the latch (R22, R97). -/
inductive Op where
  | pack
  | unpack
  | calcsize
  | byteswap
  deriving DecidableEq, Repr

/-- A command as the caller presents it (R190 (1)): the OP code and the operands of R22. -/
structure Command where
  op     : BitVec 2
  fmt    : List Byte
  val    : List Value
  data   : List Byte
  groups : List GroupElem
  offset : Nat
  deriving DecidableEq, Repr

/-- The five error kinds (R230, R231). -/
inductive ErrorKind where
  | formatError
  | arityError
  | insufficientInput
  | coercionError
  | decodeError
  deriving DecidableEq, Repr

/-- The reasons of the spec's own outcome REFUSED (R247). -/
inductive Reason where
  | capacity
  | zeroGroup
  | longTail
  | offsetOutOfRange
  deriving DecidableEq, Repr

/-- The payload of a successful call (R33). -/
inductive Payload where
  /-- `OUT_BYTES` of PACK and BYTESWAP. -/
  | bytes (y : List Byte)
  /-- `OUT_VALUES` of UNPACK. -/
  | values (v : List Value)
  /-- `OUT_SIZE` of CALCSIZE. -/
  | size (n : Nat)
  deriving DecidableEq, Repr

/-- The response `(STATUS, PAYLOAD)` of a call (R12, R33): a payload exactly when the status is OK. -/
inductive Response where
  | ok (p : Payload)
  | error (k : ErrorKind)
  | refused (r : Reason)
  deriving DecidableEq, Repr

/-! ## The machine -/

/-- `PHASE` (R36). -/
inductive Phase where
  | idle
  | busy
  deriving DecidableEq, Repr

/-- Which loop of a call the engine is in (log 1): the compiler's (R111), the fields' (R192, R201), the groups' (R211). -/
inductive Stage where
  | compile
  | fields
  | swap
  deriving DecidableEq, Repr

/-- The whole state. The comment of a field gives the spec's name and rule. -/
structure State where
  /-- RSTIN: the caller asserts the reset event (R260, log 12). -/
  resetIn  : Bool
  /-- PORT: the commands the caller presents, the next one first (R190, log 2). -/
  port     : List Command
  /-- The parameters of R5 and R6; no step writes them (log 5). -/
  params   : Params
  /-- PHASE (R36). -/
  phase    : Phase
  /-- STAGE, the model's own (log 1). -/
  stage    : Stage
  /-- OP (R22). -/
  op       : Op
  /-- FMT (R22). -/
  fmt      : List Byte
  /-- VAL (R22, R24). -/
  val      : List Value
  /-- DATA (R22). -/
  data     : List Byte
  /-- GROUPS (R22). -/
  groups   : List GroupElem
  /-- OFFSET (R22). -/
  offset   : Nat
  /-- SPEC (R25); NSPEC is its length. -/
  spec     : List FieldSpec
  /-- SI (R31). -/
  si       : Nat
  /-- PREV (R31). -/
  prev     : BitOrder
  /-- FI (R26). -/
  fi       : Nat
  /-- VI (R27). -/
  vi       : Nat
  /-- CUR (R28). -/
  cur      : Nat
  /-- WBITS (R29). -/
  wbits    : Bits
  /-- RBITS (R30); TOTAL_BITS is its length. -/
  rbits    : Bits
  /-- OUTV (R32). -/
  outv     : List Value
  /-- GI: the position in GROUPS of R211's loop. -/
  gi       : Nat
  /-- BI: `i` of R211. -/
  bi       : Nat
  /-- OUT of R211. -/
  out      : List Byte
  /-- STATUS and PAYLOAD (R33), `none` when no response is pending (R38). -/
  response : Option Response
  /-- CACHE: compiled formats by format string (R35, R72). -/
  cache    : List (List Byte × List FieldSpec)
  deriving DecidableEq, Repr

/-- Why the machine stops. Neither happens in a state that satisfies the invariant of Safety.lean. -/
inductive Fault where
  /-- Raised by the encoders when VAL has no entry at VI. R194: "`VAL[VI]` exists whenever it is read".
  Safe: no run reaches it (log 15). -/
  | noValueLeft
  /-- Raised by the sequencer when STAGE does not fit OP. Safe: no run reaches it (log 15). -/
  | stageMismatch
  deriving DecidableEq, Repr

/-- Why an instruction has no meaning. No instruction of this model is refused. -/
inductive Refusal where
  /-- Raised by an arm of `exec` whose instruction has no meaning yet; safe. -/
  | notModelled (mnemonic : String)
  deriving DecidableEq, Repr

/-- The state after reset (R38, R260): IDLE, no response, cache empty. Every other register is dead until the next
latch; the values here are the model's (log 3), the parameters are the spec's default (log 5). -/
def State.reset : State :=
  { resetIn := false, port := [], params := Params.unbounded
    phase := .idle, stage := .compile
    op := .pack, fmt := [], val := [], data := [], groups := [], offset := 0
    spec := [], si := 0, prev := .msbFirst
    fi := 0, vi := 0, cur := 0, wbits := [], rbits := [], outv := []
    gi := 0, bi := 0, out := []
    response := none, cache := [] }

end Sys2Proof.Machine
end

