-- ==== Sys2Proof/Machine/Flags.lean ====
section
/-! DEFINITION. The block has no condition codes, carry, overflow or sticky flag (R34). The only status a call
produces is STATUS (R33); this file gives its codes (R231) and those of OP (R97). -/

namespace Sys2Proof.Machine

/-- The code of an error kind (R231). -/
def ErrorKind.code : ErrorKind → Nat
  | .formatError => 1
  | .arityError => 2
  | .insufficientInput => 3
  | .coercionError => 4
  | .decodeError => 5

/-- `STATUS` of a response (R231): 0 OK, 1 … 5 the error kinds, 7 REFUSED; 6 is unused. -/
def Response.status : Response → Nat
  | .ok _ => 0
  | .error k => k.code
  | .refused _ => 7

/-- `PAYLOAD` of a response: present exactly when STATUS is OK (R33). -/
def Response.payload : Response → Option Payload
  | .ok p => some p
  | .error _ => none
  | .refused _ => none

/-- The code of a command (R97). -/
def Op.code : Op → BitVec 2
  | .pack => 0
  | .unpack => 1
  | .calcsize => 2
  | .byteswap => 3

/-- The command of a code (R97). -/
def Op.ofCode (c : BitVec 2) : Op :=
  match c.toNat with
  | 0 => .pack
  | 1 => .unpack
  | 2 => .calcsize
  | _ => .byteswap

end Sys2Proof.Machine
end

