-- ==== Sys2Proof/Machine/Bits.lean ====
section
/-! DEFINITION. Bit strings and their conversions (R8, R165), and bytes as UTF-8 text (R168, R169). -/

namespace Sys2Proof.Machine

/-- `bits(v, w)`: the `w` low bits of `v`, high bit first (R8). -/
def bitsOf (v w : Nat) : Bits := (List.range w).map fun i => v.testBit (w - 1 - i)

/-- `val(s) = Σ s⟨i⟩ · 2^(len(s)-1-i)` (R8). -/
def valOf (s : Bits) : Nat := s.foldl (fun acc b => 2 * acc + b.toNat) 0

/-- `bytes_to_bits(B)` (R8). -/
def bytesToBits (y : List Byte) : Bits := y.flatMap fun b => bitsOf b.toNat 8

/-- `bits_to_bytes(s)` for a length that is a multiple of 8 (R8): `B[a] = val(s⟨8a..8a+8⟩)`. -/
def bitsToBytes (s : Bits) : List Byte :=
  (List.range (s.length / 8)).map fun a => BitVec.ofNat 8 (valOf ((s.drop (8 * a)).take 8))

/-- How many zero bits fill `n` bits up to a byte boundary (R59, R165): `(8 - (n mod 8)) mod 8`. -/
def tailLength (n : Nat) : Nat := (8 - n % 8) % 8

/-- `⌈n/8⌉`, the bytes that hold `n` bits (R65). -/
def byteCount (n : Nat) : Nat := (n + 7) / 8

/-- A logical bit string in the field's bit order (R53, R57, R58): reversed as a whole when LSB_FIRST. -/
def inOrder (o : BitOrder) (s : Bits) : Bits :=
  match o with
  | .msbFirst => s
  | .lsbFirst => s.reverse

/-- `trunc(w, y)`: the first `w` bits of a byte sequence (R165). -/
def truncBits (w : Nat) (y : List Byte) : Bits := (bytesToBits y).take w

/-- `assemble(w, s)`: field bits as whole bytes, the last one zero-filled in its low bits (R165). -/
def assemble (w : Nat) (s : Bits) : List Byte :=
  bitsToBytes (s ++ List.replicate (tailLength w) false)

/-! ## UTF-8 -/

/-- A byte of the given natural number below 256. -/
def byteOf (n : Nat) : Byte := BitVec.ofNat 8 n

/-- A continuation byte carrying the low 6 bits of `n` (R168). -/
def contByte (n : Nat) : Byte := byteOf (0x80 + n % 64)

/-- The encoding of one code point by the table of R168; none for a surrogate, a negative number or one above
0x10FFFF. -/
def utf8EncodeOne (c : Int) : Option (List Byte) :=
  if c < 0 then none
  else
    let n := c.toNat
    if n ≤ 0x7F then some [byteOf n]
    else if n ≤ 0x7FF then some [byteOf (0xC0 + n / 64), contByte n]
    else if n ≤ 0xFFFF then
      if 0xD800 ≤ n ∧ n ≤ 0xDFFF then none
      else some [byteOf (0xE0 + n / 4096), contByte (n / 64), contByte n]
    else if n ≤ 0x10FFFF then
      some [byteOf (0xF0 + n / 262144), contByte (n / 4096), contByte (n / 64), contByte n]
    else none

/-- `utf8_encode(t)` (R168). -/
def utf8Encode : List Int → Option (List Byte)
  | [] => some []
  | c :: cs =>
    match utf8EncodeOne c, utf8Encode cs with
    | some y, some ys => some (y ++ ys)
    | _, _ => none

/-- A continuation byte, `80 … BF` (R169). -/
def isCont (b : Byte) : Bool := 0x80 ≤ b && b ≤ 0xBF

/-- The low `n` bits of a byte as a number. -/
def lowBits (n : Nat) (b : Byte) : Nat := b.toNat % 2 ^ n

/-- The code point of a complete two-byte sequence: lead `C2 … DF` (R169). -/
def utf8Two (b0 b1 : Byte) : Option Int :=
  if 0xC2 ≤ b0 && b0 ≤ 0xDF && isCont b1 then some ↑(lowBits 5 b0 * 64 + lowBits 6 b1) else none

/-- The code point of a complete three-byte sequence: lead `E0 … EF`, no overlong form, no surrogate (R169). -/
def utf8Three (b0 b1 b2 : Byte) : Option Int :=
  if 0xE0 ≤ b0 && b0 ≤ 0xEF && isCont b1 && isCont b2 && !(b0 == 0xE0 && b1 < 0xA0) && !(b0 == 0xED && 0x9F < b1)
  then some ↑(lowBits 4 b0 * 4096 + lowBits 6 b1 * 64 + lowBits 6 b2) else none

/-- The code point of a complete four-byte sequence: lead `F0 … F4`, no overlong form, nothing above 0x10FFFF (R169). -/
def utf8Four (b0 b1 b2 b3 : Byte) : Option Int :=
  if 0xF0 ≤ b0 && b0 ≤ 0xF4 && isCont b1 && isCont b2 && isCont b3
    && !(b0 == 0xF0 && b1 < 0x90) && !(b0 == 0xF4 && 0x8F < b1)
  then some ↑(lowBits 3 b0 * 262144 + lowBits 6 b1 * 4096 + lowBits 6 b2 * 64 + lowBits 6 b3) else none

/-- The first code point of a byte sequence and how many bytes it takes; none when the sequence does not begin with a
complete well-formed encoding (R169). -/
def utf8Head : List Byte → Option (Int × Nat)
  | [] => none
  | b0 :: rest =>
    if b0 < 0x80 then some (↑b0.toNat, 1)
    else match rest with
      | [] => none
      | b1 :: rest1 =>
        match utf8Two b0 b1 with
        | some c => some (c, 2)
        | none => match rest1 with
          | [] => none
          | b2 :: rest2 =>
            match utf8Three b0 b1 b2 with
            | some c => some (c, 3)
            | none => match rest2 with
              | [] => none
              | b3 :: _ => (utf8Four b0 b1 b2 b3).map fun c => (c, 4)

/-- The decoding loop, for at most `fuel` code points; the number of bytes is always enough. -/
def utf8Loop : Nat → List Byte → Option (List Int)
  | _, [] => some []
  | 0, _ :: _ => none
  | fuel + 1, b :: bs =>
    match utf8Head (b :: bs) with
    | none => none
    | some (c, n) => (utf8Loop fuel ((b :: bs).drop n)).map (c :: ·)

/-- `utf8_decode(y)`, none when `utf8_valid(y)` is false (R169, strict, decision D23). -/
def utf8Decode (y : List Byte) : Option (List Int) := utf8Loop y.length y

end Sys2Proof.Machine
end

