-- ==== Sys2Proof/Machine/Float.lean ====
section
/-! DEFINITION. NARROW32 and WIDEN32 (R154, R155) over the IEEE-754 layouts of R153: exact wherever the value is
representable, free values of Config elsewhere. -/

namespace Sys2Proof.Machine

/-! ## Fields of the two layouts (R153) -/

/-- The sign bit of a binary64 pattern, as 0 or 1. -/
def sign64 (x : BitVec 64) : Nat := x.toNat / 2 ^ 63
/-- The 11 exponent bits of a binary64 pattern. -/
def exp64 (x : BitVec 64) : Nat := x.toNat / 2 ^ 52 % 2 ^ 11
/-- The 52 fraction bits of a binary64 pattern. -/
def frac64 (x : BitVec 64) : Nat := x.toNat % 2 ^ 52
/-- The sign bit of a binary32 pattern, as 0 or 1. -/
def sign32 (y : BitVec 32) : Nat := y.toNat / 2 ^ 31
/-- The 8 exponent bits of a binary32 pattern. -/
def exp32 (y : BitVec 32) : Nat := y.toNat / 2 ^ 23 % 2 ^ 8
/-- The 23 fraction bits of a binary32 pattern. -/
def frac32 (y : BitVec 32) : Nat := y.toNat % 2 ^ 23

/-- The binary64 pattern of a sign, an exponent field and a fraction field. -/
def pack64 (s e f : Nat) : BitVec 64 := BitVec.ofNat 64 (s * 2 ^ 63 + e * 2 ^ 52 + f)
/-- The binary32 pattern of a sign, an exponent field and a fraction field. -/
def pack32 (s e f : Nat) : BitVec 32 := BitVec.ofNat 32 (s * 2 ^ 31 + e * 2 ^ 23 + f)

/-- A NaN: exponent all ones, fraction not zero. -/
def isNaN64 (x : BitVec 64) : Bool := exp64 x == 2047 && frac64 x != 0
/-- A NaN: exponent all ones, fraction not zero. -/
def isNaN32 (y : BitVec 32) : Bool := exp32 y == 255 && frac32 y != 0

/-! ## Free NaNs -/

/-- Any binary64 NaN, as `free` says: its sign and fraction, with fraction 1 where that is zero. -/
def someNaN64 (free : BitVec 64) : BitVec 64 :=
  pack64 (sign64 free) 2047 (if frac64 free = 0 then 1 else frac64 free)
/-- Any binary32 NaN, as `free` says: its sign and fraction, with fraction 1 where that is zero. -/
def someNaN32 (free : BitVec 32) : BitVec 32 :=
  pack32 (sign32 free) 255 (if frac32 free = 0 then 1 else frac32 free)

/-! ## NARROW32 (R154) -/

/-- The binary32 pattern of the number, zero or infinity `x`, none when binary32 does not hold it (R154 (b)).
A normal number has value `(2^52 + f) · 2^(e-1075)`; it is a binary32 normal for `897 ≤ e ≤ 1150` and a binary32
subnormal, a multiple of `2^-149`, for `874 ≤ e ≤ 896`. -/
def exact32 (x : BitVec 64) : Option (BitVec 32) :=
  let s := sign64 x
  let e := exp64 x
  let f := frac64 x
  if e = 0 then
    if f = 0 then some (pack32 s 0 0) else none
  else if e = 2047 then
    if f = 0 then some (pack32 s 255 0) else none
  else if 897 ≤ e ∧ e ≤ 1150 then
    if f % 2 ^ 29 = 0 then some (pack32 s (e - 896) (f / 2 ^ 29)) else none
  else if 874 ≤ e ∧ e ≤ 896 then
    if (2 ^ 52 + f) % 2 ^ (926 - e) = 0 then some (pack32 s 0 ((2 ^ 52 + f) / 2 ^ (926 - e))) else none
  else none

/-- `NARROW32` (R154): a NaN gives some NaN, an exactly representable datum its own pattern, any other real the free
answer of Config, a pattern or failure (log 8). -/
def narrow32 (x : BitVec 64) : Option (BitVec 32) :=
  if isNaN64 x then some (someNaN32 (Config.narrowNaN x))
  else match exact32 x with
    | some y => some y
    | none => Config.narrowInexact x

/-! ## WIDEN32 (R155) -/

/-- The position of the highest one bit of `n` among bits `k - 1 … 0`; 0 when there is none. -/
def topBit : Nat → Nat → Nat
  | 0, _ => 0
  | k + 1, n => if n.testBit k then k else topBit k n

/-- The binary64 pattern of a binary32 subnormal `± f · 2^-149`, `f ≠ 0`: with top bit `k` of `f` its exponent field is
`k + 874`. -/
def widenSubnormal (s f : Nat) : BitVec 64 :=
  let k := topBit 23 f
  pack64 s (k + 874) ((f - 2 ^ k) * 2 ^ (52 - k))

/-- `WIDEN32` (R155): exact on every pattern that is no NaN; a NaN gives some NaN (log 9). -/
def widen32 (y : BitVec 32) : BitVec 64 :=
  let s := sign32 y
  let e := exp32 y
  let f := frac32 y
  if isNaN32 y then someNaN64 (Config.widenNaN y)
  else if e = 255 then pack64 s 2047 0
  else if e = 0 then
    if f = 0 then pack64 s 0 0 else widenSubnormal s f
  else pack64 s (e + 896) (f * 2 ^ 29)

end Sys2Proof.Machine
end

