-- ==== Sys2Proof/Machine/Operands.lean ====
section
/-! DEFINITION. The operand forms: coercion of a value to the input type of a kind (R136), the widths a kind accepts
(R84, R196), the logical bit string each kind encodes to and decodes from (R130–R175), and BYTESWAP's group elements
(R212). -/

namespace Sys2Proof.Machine

/-! ## Coercion (R136, decision D7) -/

/-- `to_int`. -/
def toInt : Value → Except ErrorKind Int
  | .int z => .ok z
  | .bool b => .ok (if b then 1 else 0)
  | .real _ => .error .coercionError
  | .bytes _ => .error .coercionError
  | .text _ => .error .coercionError

/-- `to_bool`. -/
def toTruth : Value → Except ErrorKind Bool
  | .int z => .ok (z != 0)
  | .bool b => .ok b
  | .real _ => .error .coercionError
  | .bytes _ => .error .coercionError
  | .text _ => .error .coercionError

/-- `to_real`. -/
def toReal : Value → Except ErrorKind (BitVec 64)
  | .real x => .ok x
  | .int _ => .error .coercionError
  | .bool _ => .error .coercionError
  | .bytes _ => .error .coercionError
  | .text _ => .error .coercionError

/-- `to_text`; encodability is checked by `utf8Encode`. -/
def toText : Value → Except ErrorKind (List Int)
  | .text t => .ok t
  | .int _ => .error .coercionError
  | .bool _ => .error .coercionError
  | .real _ => .error .coercionError
  | .bytes _ => .error .coercionError

/-- `to_bytes`. -/
def toBytes : Value → Except ErrorKind (List Byte)
  | .bytes y => .ok y
  | .int _ => .error .coercionError
  | .bool _ => .error .coercionError
  | .real _ => .error .coercionError
  | .text _ => .error .coercionError

/-! ## Widths (R196) -/

/-- The width checks of R196 for a recognised kind: not 0, and 32 or 64 for a float. -/
def legalWidth (k : Kind) (w : Nat) : Bool :=
  match k with
  | .f => w == 32 || w == 64
  | _ => w != 0

/-- `check_field` (R196): the kind of a legal spec entry, or *format error*. -/
def checkField (f : FieldSpec) : Except ErrorKind Kind :=
  match Kind.ofLetter f.kind with
  | none => .error .formatError
  | some k => if legalWidth k f.width then .ok k else .error .formatError

/-! ## Encoders: the logical bit string of a value in a field of width `w` -/

/-- The low `w` bits of an integer, the floor remainder by `2^w` (R130, R132, R137). -/
def intBits (w : Nat) (z : Int) : Bits := bitsOf (z % (2 ^ w : Nat)).toNat w

/-- `U.enc` (R130). -/
def encU (w : Nat) (v : Value) : Except ErrorKind Bits :=
  match toInt v with
  | .error k => .error k
  | .ok z => .ok (intBits w z)

/-- `S.enc` (R132, conflict C4). -/
def encS (w : Nat) (v : Value) : Except ErrorKind Bits :=
  match toInt v with
  | .error k => .error k
  | .ok z => .ok (intBits w z)

/-- `F.enc` (R151). -/
def encF (w : Nat) (v : Value) : Except ErrorKind Bits :=
  match toReal v with
  | .error k => .error k
  | .ok x =>
    if w = 64 then .ok (bitsOf x.toNat 64)
    else match narrow32 x with
      | none => .error .coercionError
      | some y => .ok (bitsOf y.toNat 32)

/-- `B.enc` (R134). -/
def encB (w : Nat) (v : Value) : Except ErrorKind Bits :=
  match toTruth v with
  | .error k => .error k
  | .ok b => .ok (bitsOf (if b then 1 else 0) w)

/-- The bits of a byte sequence in a field of width `w`; a sequence of fewer bits is a *coercion error* (R172). -/
def fieldOfBytes (w : Nat) (y : List Byte) : Except ErrorKind Bits :=
  if 8 * y.length < w then .error .coercionError else .ok (truncBits w y)

/-- `T.enc` (R166). -/
def encT (w : Nat) (v : Value) : Except ErrorKind Bits :=
  match toText v with
  | .error k => .error k
  | .ok t =>
    match utf8Encode t with
    | none => .error .coercionError
    | some y => fieldOfBytes w y

/-- `R.enc` (R170). -/
def encR (w : Nat) (v : Value) : Except ErrorKind Bits :=
  match toBytes v with
  | .error k => .error k
  | .ok y => fieldOfBytes w y

/-- `P.enc` (R174): zeros, no value. -/
def encP (w : Nat) : Bits := List.replicate w false

/-! ## Decoders: the value of the `w` logical bits read -/

/-- `U.dec` (R131). -/
def decU (s : Bits) : Except ErrorKind Value := .ok (.int (valOf s))

/-- `S.dec` (R133): the first logical bit is the top bit. -/
def decS (w : Nat) (s : Bits) : Except ErrorKind Value :=
  .ok (.int (if s.head? = some true then (valOf s : Int) - (2 ^ w : Nat) else valOf s))

/-- `F.dec` (R152). -/
def decF (w : Nat) (s : Bits) : Except ErrorKind Value :=
  .ok (.real (if w = 64 then BitVec.ofNat 64 (valOf s) else widen32 (BitVec.ofNat 32 (valOf s))))

/-- `B.dec` (R135, decision D10). -/
def decB (s : Bits) : Except ErrorKind Value := .ok (.bool (valOf s != 0))

/-- `T.dec` (R167). -/
def decT (w : Nat) (s : Bits) : Except ErrorKind Value :=
  match utf8Decode (assemble w s) with
  | none => .error .decodeError
  | some t => .ok (.text t)

/-- `R.dec` (R171). -/
def decR (w : Nat) (s : Bits) : Except ErrorKind Value := .ok (.bytes (assemble w s))

/-! ## BYTESWAP's group elements (R212, decision D15) -/

/-- `group_value(e)`. -/
def groupValue : GroupElem → Except ErrorKind Nat
  | .nat n => .ok n
  | .char c => if isDigit c then .ok (digit c) else .error .coercionError

end Sys2Proof.Machine
end

