-- ==== Sys2Proof/Machine/Ops.lean ====
section
/-! DEFINITION. The named operations every meaning is written over: the bit buffer (20_memory.md), the end of a call
and raising an error (R190, R238, R247), the latch (R22, R37), reset (R38, R260), capacities (R248). -/

namespace Sys2Proof.Machine

/-! ## The bit buffer -/

/-- `MemRead(p, n)` on a buffer (R56). -/
def memRead (buf : Bits) (p n : Nat) : Bits := (buf.drop p).take n

/-- `MemWrite(p, n, s)` on a buffer (R55): bit `p + i` becomes `s⟨i⟩`, every other bit keeps its value.
PACK calls it only with `p` the buffer's length; a gap beyond the end would read zero (log 14). -/
def memWrite (buf : Bits) (p : Nat) (s : Bits) : Bits :=
  buf.take p ++ List.replicate (p - buf.length) false ++ s ++ buf.drop (p + s.length)

/-- `TOTAL_BITS` (R30, R60). -/
def State.totalBits (s : State) : Nat := s.rbits.length

/-- `write_bits(s, order)` (R57): post-increments CUR; cannot fail. -/
def writeBits (b : Bits) (o : BitOrder) (s : State) : State :=
  { s with wbits := memWrite s.wbits s.cur (inOrder o b), cur := s.cur + b.length }

/-- `read_bits(n, order)` (R58): none is its *insufficient input*. -/
def readBits (n : Nat) (o : BitOrder) (s : State) : Option (Bits × State) :=
  if s.totalBits < s.cur + n then none
  else some (inOrder o (memRead s.rbits s.cur n), { s with cur := s.cur + n })

/-- `finalize()` (R59): zero bits to the next byte boundary, then whole bytes. -/
def finalize (s : State) : List Byte :=
  bitsToBytes (s.wbits ++ List.replicate (tailLength s.cur) false)

/-- `from_bytes(b)` (R60). -/
def fromBytes (b : List Byte) (s : State) : State :=
  { s with rbits := bytesToBits b, cur := 0 }

/-! ## The end of a call -/

/-- Step (3) of R190: the response is presented and PHASE is IDLE. The latch and the per-call registers are dead
(R36, R238); they take their values of `State.reset` again (log 3), so the block is in the state it is in after reset
(R239, R260) but for the response, the cache, the parameters and the caller's inputs. -/
def endCall (r : Response) (s : State) : State :=
  { State.reset with
    resetIn := s.resetIn, port := s.port, params := s.params, cache := s.cache, response := some r }

/-- A call that succeeds with a payload (R190 (3)). -/
def finish (p : Payload) (s : State) : Host.Outcome State Fault Refusal :=
  .next (endCall (.ok p) s)

/-- `raise <Kind>` (R238): taking an error ends the call at once with that status and no payload. There is no handler
and no return from it (R239). -/
def raise (k : ErrorKind) (s : State) : Host.Outcome State Fault Refusal :=
  .next (endCall (.error k) s)

/-- `refuse(reason)` (R247): "It behaves like an error for state", with STATUS 7 (log 4). -/
def refuse (r : Reason) (s : State) : Host.Outcome State Fault Refusal :=
  .next (endCall (.refused r) s)

/-! ## Reset and the latch -/

/-- The reset event (R260): the state after reset. The parameters are the machine's; what the caller presents is the
caller's (log 12). A call in flight is abandoned with no response (R261). -/
def resetEvent (s : State) : State :=
  { State.reset with params := s.params, port := s.port }

/-- Step (1) of R190: the command is latched by value (R22), PHASE is BUSY, the per-call registers take the values of
R37, and no response is pending. -/
def latch (c : Command) (rest : List Command) (s : State) : State :=
  { s with
    port := rest, phase := .busy, stage := .compile, response := none
    op := Op.ofCode c.op, fmt := c.fmt, val := c.val, data := c.data, groups := c.groups, offset := c.offset
    si := 0, prev := .msbFirst, spec := [], fi := 0, vi := 0, cur := 0
    wbits := [], rbits := [], outv := [], gi := 0, bi := 0, out := [] }

/-! ## Capacities (R5, R248; log 6) -/

/-- Whether a size stays inside a capacity parameter; `none` is unbounded. -/
def within (limit : Option Nat) (n : Nat) : Bool :=
  match limit with
  | none => true
  | some m => n ≤ m

/-- Whether a spec table stays inside `MAX_FIELDS` and `MAX_WIDTH`. -/
def specFits (p : Params) (spec : List FieldSpec) : Bool :=
  within p.maxFields spec.length && spec.all fun f => within p.maxWidth f.width

/-! ## The compiled-format cache (R35, R72; log 7) -/

/-- The cached table of a format string, if MEMO and if it is there. -/
def cached (s : State) : Option (List FieldSpec) :=
  if s.params.memo then (s.cache.find? fun e => e.1 == s.fmt).map (·.2) else none

/-- A compiled format is stored when MEMO and when it is not there yet. -/
def memoize (s : State) : State :=
  if s.params.memo && (cached s).isNone then { s with cache := s.cache ++ [(s.fmt, s.spec)] } else s

end Sys2Proof.Machine
end

