-- ==== Sys2Proof/Machine/Byteswap.lean ====
section
/-! DEFINITION. BYTESWAP (R210–R215): the command, and one meaning per group character. A group given as a number is
swapped by the same operation `swapGroup`. -/

namespace Sys2Proof.Machine

/-- `group_value` succeeds on every element: R211 converts all of GROUPS before any byte is moved (R212). -/
def groupsConvert (groups : List GroupElem) : Bool :=
  groups.all fun e => match groupValue e with
    | .ok _ => true
    | .error _ => false

/-- BYTESWAP as it starts (R211, order of R214): capacity, *coercion error* for any bad group character, the offset,
then the loop over the groups from byte OFFSET on. -/
def execByteswap (s : State) : Host.Outcome State Fault Refusal :=
  if within s.params.maxDataBytes s.data.length then
    if groupsConvert s.groups then
      if s.data.length < s.offset then refuse .offsetOutOfRange s
      else .next { s with stage := .swap, gi := 0, bi := s.offset, out := [] }
    else raise .coercionError s
  else refuse .capacity s

/-- One turn of R211's loop for a group of `g` bytes. -/
def swapGroup (g : Nat) (s : State) : Host.Outcome State Fault Refusal :=
  if g = 0 then refuse .zeroGroup s
  else if s.data.length < s.bi + g then raise .insufficientInput s
  else .next { s with out := s.out ++ ((s.data.drop s.bi).take g).reverse, bi := s.bi + g, gi := s.gi + 1 }

/-- The end of R211's loop: bytes left over are `Refused(long_tail)` (R214), else OUT is the result. -/
def finishSwap (s : State) : Host.Outcome State Fault Refusal :=
  if s.bi < s.data.length then refuse .longTail s else finish (.bytes s.out) s

/-- The group character `0`. -/
def execByteswapGroup0 (s : State) : Host.Outcome State Fault Refusal := swapGroup 0 s

/-- The group character `1`. -/
def execByteswapGroup1 (s : State) : Host.Outcome State Fault Refusal := swapGroup 1 s

/-- The group character `2`. -/
def execByteswapGroup2 (s : State) : Host.Outcome State Fault Refusal := swapGroup 2 s

/-- The group character `3`. -/
def execByteswapGroup3 (s : State) : Host.Outcome State Fault Refusal := swapGroup 3 s

/-- The group character `4`. -/
def execByteswapGroup4 (s : State) : Host.Outcome State Fault Refusal := swapGroup 4 s

/-- The group character `5`. -/
def execByteswapGroup5 (s : State) : Host.Outcome State Fault Refusal := swapGroup 5 s

/-- The group character `6`. -/
def execByteswapGroup6 (s : State) : Host.Outcome State Fault Refusal := swapGroup 6 s

/-- The group character `7`. -/
def execByteswapGroup7 (s : State) : Host.Outcome State Fault Refusal := swapGroup 7 s

/-- The group character `8`. -/
def execByteswapGroup8 (s : State) : Host.Outcome State Fault Refusal := swapGroup 8 s

/-- The group character `9`. -/
def execByteswapGroup9 (s : State) : Host.Outcome State Fault Refusal := swapGroup 9 s

end Sys2Proof.Machine
end

