-- ==== Sys2Proof/Machine/Commands.lean ====
section
/-! DEFINITION. The commands PACK, UNPACK and CALCSIZE (R192, R201, R208): how each starts, what follows its compilation,
and how it ends. The latch and the initial values of R37 are the fetch of a command (Machine/Fetch.lean). -/

namespace Sys2Proof.Machine

/-- `SPEC <- compile(FMT)` begins: the compiler's loop from the start of FMT (R111), or, when the cache holds the table
of this format string (R72), the table at once with nothing left to scan. -/
def beginCompile (s : State) : State :=
  match cached s with
  | some t => { s with stage := .compile, spec := t, si := s.fmt.length, prev := .msbFirst }
  | none => { s with stage := .compile, spec := [], si := 0, prev := .msbFirst }

/-- PACK starts (R192): capacities of FMT and VAL (R248), then compilation. -/
def execPack (s : State) : Host.Outcome State Fault Refusal :=
  if within s.params.maxFmtLen s.fmt.length && within s.params.maxValues s.val.length
  then .next (beginCompile s) else refuse .capacity s

/-- UNPACK starts (R201): capacities of FMT and DATA (R248), then compilation. -/
def execUnpack (s : State) : Host.Outcome State Fault Refusal :=
  if within s.params.maxFmtLen s.fmt.length && within s.params.maxDataBytes s.data.length
  then .next (beginCompile s) else refuse .capacity s

/-- CALCSIZE starts (R208): capacity of FMT (R248), then compilation. -/
def execCalcsize (s : State) : Host.Outcome State Fault Refusal :=
  if within s.params.maxFmtLen s.fmt.length then .next (beginCompile s) else refuse .capacity s

/-- PACK after compilation (R192, R193): the output's capacity (R248), the arity check, the registers of the field
loop. -/
def startPack (s : State) : Host.Outcome State Fault Refusal :=
  if within s.params.maxDataBytes (byteCount (calcsizeOf s.spec)) then
    if s.val.length < valueCount s.spec then raise .arityError s
    else .next { s with stage := .fields, fi := 0, vi := 0, cur := 0, wbits := [] }
  else refuse .capacity s

/-- UNPACK after compilation (R201, R203): `from_bytes(DATA)`, the size check, the registers of the field loop. -/
def startUnpack (s : State) : Host.Outcome State Fault Refusal :=
  let s1 := fromBytes s.data s
  if s1.totalBits < calcsizeOf s1.spec then raise .insufficientInput s1
  else .next { s1 with stage := .fields, fi := 0, outv := [] }

/-- The compiler's loop has ended, SPEC is complete: capacities of the table (R248), the cache (R72), then what the
command does next. CALCSIZE ends with the sum of the widths (R208). -/
def finishCompile (s : State) : Host.Outcome State Fault Refusal :=
  if specFits s.params s.spec then
    match s.op with
    | .pack => startPack (memoize s)
    | .unpack => startUnpack (memoize s)
    | .calcsize => finish (.size (calcsizeOf s.spec)) (memoize s)
    | .byteswap => .fault .stageMismatch
  else refuse .capacity s

/-- `FI = n`: PACK finalizes (R59, R192), UNPACK delivers OUTV (R201). -/
def finishFields (s : State) : Host.Outcome State Fault Refusal :=
  match s.op with
  | .pack => finish (.bytes (finalize s)) s
  | .unpack => finish (.values s.outv) s
  | .calcsize => .fault .stageMismatch
  | .byteswap => .fault .stageMismatch

end Sys2Proof.Machine
end

