-- ==== Sys2Proof/Machine/Fields.lean ====
section
/-! DEFINITION. The field instructions: the PACK field step (R194) and the UNPACK field step (R204) over the encoders
and decoders of Operands.lean, one meaning per row of the table. -/

namespace Sys2Proof.Machine

/-- Every field that completes advances FI by one (R26). -/
def advance (s : State) : State := { s with fi := s.fi + 1 }

/-- The PACK step of a value-carrying field (R194): the width check of R196, the next value of VAL, the encoder, the
write at CUR. The value is not looked at when the width is illegal (R196), and nothing of the step is kept when the
encoder fails (R238). -/
def packField (k : Kind) (w : Nat) (o : BitOrder) (enc : Value → Except ErrorKind Bits) (s : State) :
    Host.Outcome State Fault Refusal :=
  if legalWidth k w then
    match s.val[s.vi]? with
    | none => .fault .noValueLeft
    | some v =>
      match enc v with
      | .error e => raise e s
      | .ok b => .next (advance (writeBits b o { s with vi := s.vi + 1 }))
  else raise .formatError s

/-- The UNPACK step of a value-carrying field (R204): the width check of R196, the read at CUR, the decoder, the
result appended to OUTV (R32). -/
def unpackField (k : Kind) (w : Nat) (o : BitOrder) (dec : Bits → Except ErrorKind Value) (s : State) :
    Host.Outcome State Fault Refusal :=
  if legalWidth k w then
    match readBits w o s with
    | none => raise .insufficientInput s
    | some (b, s1) =>
      match dec b with
      | .error e => raise e s
      | .ok v => .next (advance { s1 with outv := s1.outv ++ [v] })
  else raise .formatError s

/-- `u.enc` (R130). -/
def execUEnc (w : Nat) (o : BitOrder) (s : State) : Host.Outcome State Fault Refusal :=
  packField .u w o (encU w) s

/-- `u.dec` (R131). -/
def execUDec (w : Nat) (o : BitOrder) (s : State) : Host.Outcome State Fault Refusal :=
  unpackField .u w o decU s

/-- `s.enc` (R132). -/
def execSEnc (w : Nat) (o : BitOrder) (s : State) : Host.Outcome State Fault Refusal :=
  packField .s w o (encS w) s

/-- `s.dec` (R133). -/
def execSDec (w : Nat) (o : BitOrder) (s : State) : Host.Outcome State Fault Refusal :=
  unpackField .s w o (decS w) s

/-- `f.enc` (R151). -/
def execFEnc (w : Nat) (o : BitOrder) (s : State) : Host.Outcome State Fault Refusal :=
  packField .f w o (encF w) s

/-- `f.dec` (R152). -/
def execFDec (w : Nat) (o : BitOrder) (s : State) : Host.Outcome State Fault Refusal :=
  unpackField .f w o (decF w) s

/-- `b.enc` (R134). -/
def execBEnc (w : Nat) (o : BitOrder) (s : State) : Host.Outcome State Fault Refusal :=
  packField .b w o (encB w) s

/-- `b.dec` (R135). -/
def execBDec (w : Nat) (o : BitOrder) (s : State) : Host.Outcome State Fault Refusal :=
  unpackField .b w o decB s

/-- `t.enc` (R166). -/
def execTEnc (w : Nat) (o : BitOrder) (s : State) : Host.Outcome State Fault Refusal :=
  packField .t w o (encT w) s

/-- `t.dec` (R167). -/
def execTDec (w : Nat) (o : BitOrder) (s : State) : Host.Outcome State Fault Refusal :=
  unpackField .t w o (decT w) s

/-- `r.enc` (R170). -/
def execREnc (w : Nat) (o : BitOrder) (s : State) : Host.Outcome State Fault Refusal :=
  packField .r w o (encR w) s

/-- `r.dec` (R171). -/
def execRDec (w : Nat) (o : BitOrder) (s : State) : Host.Outcome State Fault Refusal :=
  unpackField .r w o (decR w) s

/-- `p.enc` (R174): zero bits, no value consumed. -/
def execPEnc (w : Nat) (o : BitOrder) (s : State) : Host.Outcome State Fault Refusal :=
  if legalWidth .p w then .next (advance (writeBits (encP w) o s)) else raise .formatError s

/-- `p.dec` (R175): the cursor moves over the bits, which are not examined; no value. -/
def execPDec (w : Nat) (_o : BitOrder) (s : State) : Host.Outcome State Fault Refusal :=
  if legalWidth .p w then .next (advance { s with cur := s.cur + w }) else raise .formatError s

end Sys2Proof.Machine
end

