-- ==== Sys2Proof/Machine/Illegal.lean ====
section
/-! DEFINITION. The 45 illegal kind letters (R87): each compiles and counts like any group, and raises *format error*
when PACK or UNPACK reaches it, before its width or its operand is looked at (R196). -/

namespace Sys2Proof.Machine

/-- R196, first check: the kind is none of the seven letters. -/
def raiseUnknownKind (s : State) : Host.Outcome State Fault Refusal :=
  raise .formatError s

/-- `illegal.A`. -/
def execIllegalUpperA (_w : Nat) (_o : BitOrder) (s : State) : Host.Outcome State Fault Refusal :=
  raiseUnknownKind s

/-- `illegal.B`. -/
def execIllegalUpperB (_w : Nat) (_o : BitOrder) (s : State) : Host.Outcome State Fault Refusal :=
  raiseUnknownKind s

/-- `illegal.C`. -/
def execIllegalUpperC (_w : Nat) (_o : BitOrder) (s : State) : Host.Outcome State Fault Refusal :=
  raiseUnknownKind s

/-- `illegal.D`. -/
def execIllegalUpperD (_w : Nat) (_o : BitOrder) (s : State) : Host.Outcome State Fault Refusal :=
  raiseUnknownKind s

/-- `illegal.E`. -/
def execIllegalUpperE (_w : Nat) (_o : BitOrder) (s : State) : Host.Outcome State Fault Refusal :=
  raiseUnknownKind s

/-- `illegal.F`. -/
def execIllegalUpperF (_w : Nat) (_o : BitOrder) (s : State) : Host.Outcome State Fault Refusal :=
  raiseUnknownKind s

/-- `illegal.G`. -/
def execIllegalUpperG (_w : Nat) (_o : BitOrder) (s : State) : Host.Outcome State Fault Refusal :=
  raiseUnknownKind s

/-- `illegal.H`. -/
def execIllegalUpperH (_w : Nat) (_o : BitOrder) (s : State) : Host.Outcome State Fault Refusal :=
  raiseUnknownKind s

/-- `illegal.I`. -/
def execIllegalUpperI (_w : Nat) (_o : BitOrder) (s : State) : Host.Outcome State Fault Refusal :=
  raiseUnknownKind s

/-- `illegal.J`. -/
def execIllegalUpperJ (_w : Nat) (_o : BitOrder) (s : State) : Host.Outcome State Fault Refusal :=
  raiseUnknownKind s

/-- `illegal.K`. -/
def execIllegalUpperK (_w : Nat) (_o : BitOrder) (s : State) : Host.Outcome State Fault Refusal :=
  raiseUnknownKind s

/-- `illegal.L`. -/
def execIllegalUpperL (_w : Nat) (_o : BitOrder) (s : State) : Host.Outcome State Fault Refusal :=
  raiseUnknownKind s

/-- `illegal.M`. -/
def execIllegalUpperM (_w : Nat) (_o : BitOrder) (s : State) : Host.Outcome State Fault Refusal :=
  raiseUnknownKind s

/-- `illegal.N`. -/
def execIllegalUpperN (_w : Nat) (_o : BitOrder) (s : State) : Host.Outcome State Fault Refusal :=
  raiseUnknownKind s

/-- `illegal.O`. -/
def execIllegalUpperO (_w : Nat) (_o : BitOrder) (s : State) : Host.Outcome State Fault Refusal :=
  raiseUnknownKind s

/-- `illegal.P`. -/
def execIllegalUpperP (_w : Nat) (_o : BitOrder) (s : State) : Host.Outcome State Fault Refusal :=
  raiseUnknownKind s

/-- `illegal.Q`. -/
def execIllegalUpperQ (_w : Nat) (_o : BitOrder) (s : State) : Host.Outcome State Fault Refusal :=
  raiseUnknownKind s

/-- `illegal.R`. -/
def execIllegalUpperR (_w : Nat) (_o : BitOrder) (s : State) : Host.Outcome State Fault Refusal :=
  raiseUnknownKind s

/-- `illegal.S`. -/
def execIllegalUpperS (_w : Nat) (_o : BitOrder) (s : State) : Host.Outcome State Fault Refusal :=
  raiseUnknownKind s

/-- `illegal.T`. -/
def execIllegalUpperT (_w : Nat) (_o : BitOrder) (s : State) : Host.Outcome State Fault Refusal :=
  raiseUnknownKind s

/-- `illegal.U`. -/
def execIllegalUpperU (_w : Nat) (_o : BitOrder) (s : State) : Host.Outcome State Fault Refusal :=
  raiseUnknownKind s

/-- `illegal.V`. -/
def execIllegalUpperV (_w : Nat) (_o : BitOrder) (s : State) : Host.Outcome State Fault Refusal :=
  raiseUnknownKind s

/-- `illegal.W`. -/
def execIllegalUpperW (_w : Nat) (_o : BitOrder) (s : State) : Host.Outcome State Fault Refusal :=
  raiseUnknownKind s

/-- `illegal.X`. -/
def execIllegalUpperX (_w : Nat) (_o : BitOrder) (s : State) : Host.Outcome State Fault Refusal :=
  raiseUnknownKind s

/-- `illegal.Y`. -/
def execIllegalUpperY (_w : Nat) (_o : BitOrder) (s : State) : Host.Outcome State Fault Refusal :=
  raiseUnknownKind s

/-- `illegal.Z`. -/
def execIllegalUpperZ (_w : Nat) (_o : BitOrder) (s : State) : Host.Outcome State Fault Refusal :=
  raiseUnknownKind s

/-- `illegal.a`. -/
def execIllegalLowerA (_w : Nat) (_o : BitOrder) (s : State) : Host.Outcome State Fault Refusal :=
  raiseUnknownKind s

/-- `illegal.c`. -/
def execIllegalLowerC (_w : Nat) (_o : BitOrder) (s : State) : Host.Outcome State Fault Refusal :=
  raiseUnknownKind s

/-- `illegal.d`. -/
def execIllegalLowerD (_w : Nat) (_o : BitOrder) (s : State) : Host.Outcome State Fault Refusal :=
  raiseUnknownKind s

/-- `illegal.e`. -/
def execIllegalLowerE (_w : Nat) (_o : BitOrder) (s : State) : Host.Outcome State Fault Refusal :=
  raiseUnknownKind s

/-- `illegal.g`. -/
def execIllegalLowerG (_w : Nat) (_o : BitOrder) (s : State) : Host.Outcome State Fault Refusal :=
  raiseUnknownKind s

/-- `illegal.h`. -/
def execIllegalLowerH (_w : Nat) (_o : BitOrder) (s : State) : Host.Outcome State Fault Refusal :=
  raiseUnknownKind s

/-- `illegal.i`. -/
def execIllegalLowerI (_w : Nat) (_o : BitOrder) (s : State) : Host.Outcome State Fault Refusal :=
  raiseUnknownKind s

/-- `illegal.j`. -/
def execIllegalLowerJ (_w : Nat) (_o : BitOrder) (s : State) : Host.Outcome State Fault Refusal :=
  raiseUnknownKind s

/-- `illegal.k`. -/
def execIllegalLowerK (_w : Nat) (_o : BitOrder) (s : State) : Host.Outcome State Fault Refusal :=
  raiseUnknownKind s

/-- `illegal.l`. -/
def execIllegalLowerL (_w : Nat) (_o : BitOrder) (s : State) : Host.Outcome State Fault Refusal :=
  raiseUnknownKind s

/-- `illegal.m`. -/
def execIllegalLowerM (_w : Nat) (_o : BitOrder) (s : State) : Host.Outcome State Fault Refusal :=
  raiseUnknownKind s

/-- `illegal.n`. -/
def execIllegalLowerN (_w : Nat) (_o : BitOrder) (s : State) : Host.Outcome State Fault Refusal :=
  raiseUnknownKind s

/-- `illegal.o`. -/
def execIllegalLowerO (_w : Nat) (_o : BitOrder) (s : State) : Host.Outcome State Fault Refusal :=
  raiseUnknownKind s

/-- `illegal.q`. -/
def execIllegalLowerQ (_w : Nat) (_o : BitOrder) (s : State) : Host.Outcome State Fault Refusal :=
  raiseUnknownKind s

/-- `illegal.v`. -/
def execIllegalLowerV (_w : Nat) (_o : BitOrder) (s : State) : Host.Outcome State Fault Refusal :=
  raiseUnknownKind s

/-- `illegal.w`. -/
def execIllegalLowerW (_w : Nat) (_o : BitOrder) (s : State) : Host.Outcome State Fault Refusal :=
  raiseUnknownKind s

/-- `illegal.x`. -/
def execIllegalLowerX (_w : Nat) (_o : BitOrder) (s : State) : Host.Outcome State Fault Refusal :=
  raiseUnknownKind s

/-- `illegal.y`. -/
def execIllegalLowerY (_w : Nat) (_o : BitOrder) (s : State) : Host.Outcome State Fault Refusal :=
  raiseUnknownKind s

/-- `illegal.z`. -/
def execIllegalLowerZ (_w : Nat) (_o : BitOrder) (s : State) : Host.Outcome State Fault Refusal :=
  raiseUnknownKind s

end Sys2Proof.Machine
end

