-- ==== Sys2Proof/Machine/Scan.lean ====
section
/-! DEFINITION. The format compiler's loop, one element of the format string at a time (R111, R112, R86): a prefix, a
skipped character, or a group that becomes a spec entry. A prefix stands immediately before its group, so setting PREV
to it and reading the group as one without a prefix is R111's turn taken in two steps (log 13). -/

namespace Sys2Proof.Machine

/-- A prefix: the group it stands before, and by inheritance the groups after that, have this order (R112). -/
def setPrefix (o : BitOrder) (s : State) : Host.Outcome State Fault Refusal :=
  .next { s with prev := o, si := s.si + 1 }

/-- `prefix.>`. -/
def execPrefixMsb (s : State) : Host.Outcome State Fault Refusal := setPrefix .msbFirst s

/-- `prefix.<`. -/
def execPrefixLsb (s : State) : Host.Outcome State Fault Refusal := setPrefix .lsbFirst s

/-- `skip` (R86): the character adds nothing and changes nothing, not PREV either. -/
def execSkip (_c : Byte) (s : State) : Host.Outcome State Fault Refusal :=
  .next { s with si := s.si + 1 }

/-- A group without a prefix of its own, `length` characters long: it takes the order PREV and is stored as written
(R111, R113). -/
def compileGroup (kind : Byte) (width length : Nat) (s : State) : State :=
  { s with spec := s.spec ++ [⟨kind, width, s.prev⟩], si := s.si + length }

end Sys2Proof.Machine
end

