-- ==== Sys2Proof/Machine/Dispatch.lean ====
section
/-! DEFINITION. The dispatch: one arm per constructor of `Instr`, one meaning per arm. -/

namespace Sys2Proof.Machine

def exec (i : Instr) (s : State) : Host.Outcome State Fault Refusal :=
  match i with
  | .uEnc w o => Sys2Proof.Machine.execUEnc w o s
  | .uDec w o => Sys2Proof.Machine.execUDec w o s
  | .sEnc w o => Sys2Proof.Machine.execSEnc w o s
  | .sDec w o => Sys2Proof.Machine.execSDec w o s
  | .fEnc w o => Sys2Proof.Machine.execFEnc w o s
  | .fDec w o => Sys2Proof.Machine.execFDec w o s
  | .bEnc w o => Sys2Proof.Machine.execBEnc w o s
  | .bDec w o => Sys2Proof.Machine.execBDec w o s
  | .tEnc w o => Sys2Proof.Machine.execTEnc w o s
  | .tDec w o => Sys2Proof.Machine.execTDec w o s
  | .rEnc w o => Sys2Proof.Machine.execREnc w o s
  | .rDec w o => Sys2Proof.Machine.execRDec w o s
  | .pEnc w o => Sys2Proof.Machine.execPEnc w o s
  | .pDec w o => Sys2Proof.Machine.execPDec w o s
  | .illegalUpperA w o => Sys2Proof.Machine.execIllegalUpperA w o s
  | .illegalUpperB w o => Sys2Proof.Machine.execIllegalUpperB w o s
  | .illegalUpperC w o => Sys2Proof.Machine.execIllegalUpperC w o s
  | .illegalUpperD w o => Sys2Proof.Machine.execIllegalUpperD w o s
  | .illegalUpperE w o => Sys2Proof.Machine.execIllegalUpperE w o s
  | .illegalUpperF w o => Sys2Proof.Machine.execIllegalUpperF w o s
  | .illegalUpperG w o => Sys2Proof.Machine.execIllegalUpperG w o s
  | .illegalUpperH w o => Sys2Proof.Machine.execIllegalUpperH w o s
  | .illegalUpperI w o => Sys2Proof.Machine.execIllegalUpperI w o s
  | .illegalUpperJ w o => Sys2Proof.Machine.execIllegalUpperJ w o s
  | .illegalUpperK w o => Sys2Proof.Machine.execIllegalUpperK w o s
  | .illegalUpperL w o => Sys2Proof.Machine.execIllegalUpperL w o s
  | .illegalUpperM w o => Sys2Proof.Machine.execIllegalUpperM w o s
  | .illegalUpperN w o => Sys2Proof.Machine.execIllegalUpperN w o s
  | .illegalUpperO w o => Sys2Proof.Machine.execIllegalUpperO w o s
  | .illegalUpperP w o => Sys2Proof.Machine.execIllegalUpperP w o s
  | .illegalUpperQ w o => Sys2Proof.Machine.execIllegalUpperQ w o s
  | .illegalUpperR w o => Sys2Proof.Machine.execIllegalUpperR w o s
  | .illegalUpperS w o => Sys2Proof.Machine.execIllegalUpperS w o s
  | .illegalUpperT w o => Sys2Proof.Machine.execIllegalUpperT w o s
  | .illegalUpperU w o => Sys2Proof.Machine.execIllegalUpperU w o s
  | .illegalUpperV w o => Sys2Proof.Machine.execIllegalUpperV w o s
  | .illegalUpperW w o => Sys2Proof.Machine.execIllegalUpperW w o s
  | .illegalUpperX w o => Sys2Proof.Machine.execIllegalUpperX w o s
  | .illegalUpperY w o => Sys2Proof.Machine.execIllegalUpperY w o s
  | .illegalUpperZ w o => Sys2Proof.Machine.execIllegalUpperZ w o s
  | .illegalLowerA w o => Sys2Proof.Machine.execIllegalLowerA w o s
  | .illegalLowerC w o => Sys2Proof.Machine.execIllegalLowerC w o s
  | .illegalLowerD w o => Sys2Proof.Machine.execIllegalLowerD w o s
  | .illegalLowerE w o => Sys2Proof.Machine.execIllegalLowerE w o s
  | .illegalLowerG w o => Sys2Proof.Machine.execIllegalLowerG w o s
  | .illegalLowerH w o => Sys2Proof.Machine.execIllegalLowerH w o s
  | .illegalLowerI w o => Sys2Proof.Machine.execIllegalLowerI w o s
  | .illegalLowerJ w o => Sys2Proof.Machine.execIllegalLowerJ w o s
  | .illegalLowerK w o => Sys2Proof.Machine.execIllegalLowerK w o s
  | .illegalLowerL w o => Sys2Proof.Machine.execIllegalLowerL w o s
  | .illegalLowerM w o => Sys2Proof.Machine.execIllegalLowerM w o s
  | .illegalLowerN w o => Sys2Proof.Machine.execIllegalLowerN w o s
  | .illegalLowerO w o => Sys2Proof.Machine.execIllegalLowerO w o s
  | .illegalLowerQ w o => Sys2Proof.Machine.execIllegalLowerQ w o s
  | .illegalLowerV w o => Sys2Proof.Machine.execIllegalLowerV w o s
  | .illegalLowerW w o => Sys2Proof.Machine.execIllegalLowerW w o s
  | .illegalLowerX w o => Sys2Proof.Machine.execIllegalLowerX w o s
  | .illegalLowerY w o => Sys2Proof.Machine.execIllegalLowerY w o s
  | .illegalLowerZ w o => Sys2Proof.Machine.execIllegalLowerZ w o s
  | .prefixMsb => Sys2Proof.Machine.execPrefixMsb s
  | .prefixLsb => Sys2Proof.Machine.execPrefixLsb s
  | .skip c => Sys2Proof.Machine.execSkip c s
  | .pack => Sys2Proof.Machine.execPack s
  | .unpack => Sys2Proof.Machine.execUnpack s
  | .calcsize => Sys2Proof.Machine.execCalcsize s
  | .byteswap => Sys2Proof.Machine.execByteswap s
  | .byteswapGroup0 => Sys2Proof.Machine.execByteswapGroup0 s
  | .byteswapGroup1 => Sys2Proof.Machine.execByteswapGroup1 s
  | .byteswapGroup2 => Sys2Proof.Machine.execByteswapGroup2 s
  | .byteswapGroup3 => Sys2Proof.Machine.execByteswapGroup3 s
  | .byteswapGroup4 => Sys2Proof.Machine.execByteswapGroup4 s
  | .byteswapGroup5 => Sys2Proof.Machine.execByteswapGroup5 s
  | .byteswapGroup6 => Sys2Proof.Machine.execByteswapGroup6 s
  | .byteswapGroup7 => Sys2Proof.Machine.execByteswapGroup7 s
  | .byteswapGroup8 => Sys2Proof.Machine.execByteswapGroup8 s
  | .byteswapGroup9 => Sys2Proof.Machine.execByteswapGroup9 s

end Sys2Proof.Machine
end

