-- ==== Sys2Proof/Machine/Fetch.lean ====
section
/-! DEFINITION. Fetching: where the next instruction stands (a command at the port, an element of FMT at SI, an entry
of SPEC at FI, an element of GROUPS), and the sequencer's own turns, which are no row of the table. -/

namespace Sys2Proof.Machine

/-- What a step does: run an instruction from a state, or a turn of the sequencer with its outcome. -/
inductive Fetched where
  | run (i : Instr) (s : State)
  | turn (o : Host.Outcome State Fault Refusal)

/-- The direction of the field loop (R192, R201). -/
def dirOf : Op → Option Dir
  | .pack => some .enc
  | .unpack => some .dec
  | .calcsize => none
  | .byteswap => none

/-- IDLE (R36, R190): the next command of the port is latched and runs; without one the block stays as it is. -/
def fetchCommand (s : State) : Fetched :=
  match s.port with
  | [] => .turn (.next s)
  | c :: rest => .run (decodeCommand c.op) (latch c rest s)

/-- The compiler's loop (R111): the element of FMT at SI. A group becomes a spec entry; a prefix and a skipped character
are instructions; the end of FMT ends the loop. -/
def fetchScan (s : State) : Fetched :=
  match s.fmt.drop s.si with
  | [] => .turn (finishCompile s)
  | c :: cs =>
    match plainGroupAt (c :: cs) with
    | some (kind, width, after) => .turn (.next (compileGroup kind width ((c :: cs).length - after.length) s))
    | none => .run (decodeScanChar c cs) s

/-- The field loop (R192, R201): the entry of SPEC at FI; the end of SPEC ends the loop. An entry whose kind is no
letter is none of the seven kinds (R196). -/
def fetchField (s : State) : Fetched :=
  match dirOf s.op with
  | none => .turn (.fault .stageMismatch)
  | some d =>
    match s.spec[s.fi]? with
    | none => .turn (finishFields s)
    | some f =>
      match decodeField d f with
      | none => .turn (raise .formatError s)
      | some i => .run i s

/-- The group loop (R211): the element of GROUPS at GI. -/
def fetchSwap (s : State) : Fetched :=
  match s.groups[s.gi]? with
  | none => .turn (finishSwap s)
  | some (.nat g) => .turn (swapGroup g s)
  | some (.char c) =>
    match decodeGroupChar c with
    | none => .turn (raise .coercionError s)
    | some i => .run i s

/-- What the machine does next. The reset event comes before everything else (R260). -/
def fetch (s : State) : Fetched :=
  if s.resetIn then .turn (.next (resetEvent s))
  else match s.phase with
    | .idle => fetchCommand s
    | .busy =>
      match s.stage with
      | .compile => fetchScan s
      | .fields => fetchField s
      | .swap => fetchSwap s

/-- The command that runs an OP code with no operands. -/
def bareCommand (op : BitVec 2) : Command :=
  { op := op, fmt := [], val := [], data := [], groups := [], offset := 0 }

/-- `s` about to execute the spec entry `f` (log 10). -/
def placeField (d : Dir) (f : FieldSpec) (s : State) : State :=
  { s with
    resetIn := false, phase := .busy, stage := .fields, spec := [f], fi := 0
    op := match d with
      | .enc => .pack
      | .dec => .unpack }

/-- `s` about to scan the text `t` (log 10). -/
def placeText (t : List Byte) (s : State) : State :=
  { s with resetIn := false, phase := .busy, stage := .compile, fmt := t, si := 0 }

/-- `s` about to swap the group character `c` (log 10). -/
def placeGroup (c : Byte) (s : State) : State :=
  { s with resetIn := false, phase := .busy, stage := .swap, groups := [.char c], gi := 0 }

/-- `s` in IDLE with a command presented (log 10). -/
def placeCommand (op : BitVec 2) (s : State) : State :=
  { s with resetIn := false, phase := .idle, port := [bareCommand op] }

/-- `s` with the instruction `i` where the next step fetches it. A prefix is placed before the group `u1`, since only
there it is a prefix (R83). -/
def placeInstr (i : Instr) (s : State) : State :=
  match i.fieldSpec with
  | some f => placeField i.dir f s
  | none =>
    match contextOf .msbFirst i with
    | .command => match encode i with
      | c :: _ => placeCommand (c.setWidth 2) s
      | [] => s
    | .swapGroup => match encode i with
      | c :: _ => placeGroup c s
      | [] => s
    | .group _ _ => s
    | .scan =>
      match i with
      | .skip c => placeText [c] s
      | _ => placeText (encode i ++ [0x75, 0x31]) s

end Sys2Proof.Machine
end

