-- ==== Sys2Proof/Machine/Step.lean ====
section
/-! DEFINITION. One step of the machine: what `fetch` says, run by `exec` where it is an instruction. -/

namespace Sys2Proof.Machine

/-- An instruction runs, a turn of the sequencer is its outcome. -/
def runFetched (f : Fetched) : Host.Outcome State Fault Refusal :=
  match f with
  | .run i s1 => exec i s1
  | .turn o => o

/-- One step (log 1): a command, an element of the format string, a field, a byte group, or a turn of the sequencer. -/
def step (s : State) : Host.Outcome State Fault Refusal := runFetched (fetch s)

/-- `s` with the table word `w` placed where the next step fetches it (log 10); `s` itself when the word is no
instruction. -/
def State.withFetchWord (s : State) (nbits w : Nat) : State :=
  match decodeTableWord nbits w with
  | some i => placeInstr i s
  | none => s

end Sys2Proof.Machine
end

