-- ==== Sys2Proof/Machine/Shifter.lean ====
section
/-! DEFINITION. The two other forms of the bit buffer that the spec gives and calls equivalent: the buffer as one
big-endian integer (R62) and as completed bytes with an accumulator (R29, R63). The machine uses WBITS and RBITS;
statements say that these forms agree with them. -/

namespace Sys2Proof.Machine

/-! ## One big-endian integer (R62) -/

/-- `M = Σ_a B[a] · 256^(Nb-1-a)`. -/
def bufferInt (y : List Byte) : Nat := y.foldl (fun m b => 256 * m + b.toNat) 0

/-- Extraction: a right shift by `8·Nb - p - n` and a mask of `n` ones. -/
def shiftExtract (nb m p n : Nat) : Nat := (m >>> (8 * nb - p - n)) % 2 ^ n

/-- Insertion into zeros: a left shift and a sum. -/
def shiftInsert (nb m p : Nat) (s : Bits) : Nat := m + valOf s <<< (8 * nb - p - s.length)

/-! ## The accumulator form (R29, R63) -/

/-- Completed bytes `WBYTES`, the accumulator `ACC` and the bit count `NACC`. -/
structure AccBuf where
  wbytes : List Byte
  acc    : Byte
  nacc   : Nat
  deriving DecidableEq, Repr

/-- The empty buffer (R37). -/
def AccBuf.empty : AccBuf := { wbytes := [], acc := 0, nacc := 0 }

/-- Appending one bit (R63). -/
def appendBit (a : AccBuf) (b : Bool) : AccBuf :=
  let acc := a.acc + BitVec.ofNat 8 (b.toNat * 2 ^ (7 - a.nacc))
  if a.nacc + 1 = 8 then { wbytes := a.wbytes ++ [acc], acc := 0, nacc := 0 }
  else { a with acc := acc, nacc := a.nacc + 1 }

/-- Appending a bit string, bit by bit. -/
def appendBits (a : AccBuf) (s : Bits) : AccBuf := s.foldl appendBit a

/-- `WBITS = bytes_to_bits(WBYTES) ++ bits(ACC,8)⟨0..NACC⟩` (R29). -/
def bitsOfAcc (a : AccBuf) : Bits := bytesToBits a.wbytes ++ (bitsOf a.acc.toNat 8).take a.nacc

/-- `finalize` in this form (R63): ACC is the last byte if NACC is not 0. -/
def finalizeAcc (a : AccBuf) : List Byte := if a.nacc = 0 then a.wbytes else a.wbytes ++ [a.acc]

end Sys2Proof.Machine
end

