-- ==== Sys2Proof/Machine/Calls.lean ====
section
/-! DEFINITION. The four commands as total functions of their latched inputs (R192, R201, R208, R211), the call-level
form of the spec (R190, D24). The machine runs them one loop turn per step; statements say that both forms agree
(R217). -/

namespace Sys2Proof.Machine

/-- The encoder of a kind (R192: "by kind"). -/
def encodeKind (k : Kind) (w : Nat) (v : Value) : Except ErrorKind Bits :=
  match k with
  | .u => encU w v
  | .s => encS w v
  | .f => encF w v
  | .b => encB w v
  | .t => encT w v
  | .r => encR w v
  | .p => .ok (encP w)

/-- The decoder of a kind (R201: "by kind"). P is never decoded. -/
def decodeKind (k : Kind) (w : Nat) (b : Bits) : Except ErrorKind Value :=
  match k with
  | .u => decU b
  | .s => decS w b
  | .f => decF w b
  | .b => decB b
  | .t => decT w b
  | .r => decR w b
  | .p => decU b

/-- The field loop of PACK (R192): the bits of the remaining fields for the values left, after the bits so far. -/
def packFields : List FieldSpec → List Value → Bits → Except ErrorKind Bits
  | [], _, acc => .ok acc
  | f :: fs, vals, acc =>
    match checkField f with
    | .error e => .error e
    | .ok .p => packFields fs vals (acc ++ inOrder f.order (encP f.width))
    | .ok k =>
      match vals with
      | [] => .error .arityError
      | v :: vs =>
        match encodeKind k f.width v with
        | .error e => .error e
        | .ok b => packFields fs vs (acc ++ inOrder f.order b)

/-- The field loop of UNPACK (R201) from bit address `cur` on, after the values so far. -/
def unpackFields (rbits : Bits) : List FieldSpec → Nat → List Value → Except ErrorKind (List Value)
  | [], _, acc => .ok acc
  | f :: fs, cur, acc =>
    match checkField f with
    | .error e => .error e
    | .ok .p => unpackFields rbits fs (cur + f.width) acc
    | .ok k =>
      match decodeKind k f.width (inOrder f.order (memRead rbits cur f.width)) with
      | .error e => .error e
      | .ok v => unpackFields rbits fs (cur + f.width) (acc ++ [v])

/-- The group loop of BYTESWAP (R211) from byte `i` on, after the bytes so far. -/
def swapGroups (data : List Byte) : List GroupElem → Nat → List Byte → Response
  | [], i, out => if i < data.length then .refused .longTail else .ok (.bytes out)
  | e :: es, i, out =>
    match groupValue e with
    | .error k => .error k
    | .ok g =>
      if g = 0 then .refused .zeroGroup
      else if data.length < i + g then .error .insufficientInput
      else swapGroups data es (i + g) (out ++ ((data.drop i).take g).reverse)

/-- `PACK(FMT, VAL)` (R192), capacities first (R241, R248). -/
def packCall (p : Params) (fmt : List Byte) (val : List Value) : Response :=
  let spec := compile fmt
  if within p.maxFmtLen fmt.length && within p.maxValues val.length && specFits p spec
      && within p.maxDataBytes (byteCount (calcsizeOf spec)) then
    if val.length < valueCount spec then .error .arityError
    else match packFields spec val [] with
      | .error e => .error e
      | .ok b => .ok (.bytes (bitsToBytes (b ++ List.replicate (tailLength (calcsizeOf spec)) false)))
  else .refused .capacity

/-- `UNPACK(FMT, DATA)` (R201), capacities first (R241, R248). -/
def unpackCall (p : Params) (fmt : List Byte) (data : List Byte) : Response :=
  let spec := compile fmt
  if within p.maxFmtLen fmt.length && within p.maxDataBytes data.length && specFits p spec then
    if 8 * data.length < calcsizeOf spec then .error .insufficientInput
    else match unpackFields (bytesToBits data) spec 0 [] with
      | .error e => .error e
      | .ok v => .ok (.values v)
  else .refused .capacity

/-- `CALCSIZE(FMT)` (R208), capacities first (R241, R248). -/
def calcsizeCall (p : Params) (fmt : List Byte) : Response :=
  let spec := compile fmt
  if within p.maxFmtLen fmt.length && specFits p spec then .ok (.size (calcsizeOf spec))
  else .refused .capacity

/-- `BYTESWAP(GROUPS, DATA, OFFSET)` (R211), capacity first (R241, R248). -/
def byteswapCall (p : Params) (groups : List GroupElem) (data : List Byte) (offset : Nat) : Response :=
  if within p.maxDataBytes data.length then
    if groupsConvert groups then
      if data.length < offset then .refused .offsetOutOfRange
      else swapGroups data groups offset []
    else .error .coercionError
  else .refused .capacity

/-- The response of a presented command: the function its OP selects (R190 (2)). -/
def callResponse (p : Params) (c : Command) : Response :=
  match Op.ofCode c.op with
  | .pack => packCall p c.fmt c.val
  | .unpack => unpackCall p c.fmt c.data
  | .calcsize => calcsizeCall p c.fmt
  | .byteswap => byteswapCall p c.groups c.data c.offset

end Sys2Proof.Machine
end

