-- ==== Sys2Proof/Safety.lean ====
section
/-! DEFINITION. Runs of the machine, and the invariant that every state of a run satisfies. -/

namespace Sys2Proof.Machine

/-- `n` steps, stopping at the first fault or refusal. -/
def run : Nat → State → Host.Outcome State Fault Refusal
  | 0, s => .next s
  | n + 1, s =>
    match step s with
    | .next t => run n t
    | .fault r => .fault r
    | .refused r => .refused r

/-- What is between two calls (R38, R239, R260): the state after reset but for the caller's inputs, the parameters, the
last response and the cache. -/
def betweenCalls (s : State) : State :=
  { State.reset with
    resetIn := s.resetIn, port := s.port, params := s.params, response := s.response, cache := s.cache }

/-- R72: an entry of the cache is what compiling its format string gives. -/
def CacheOk (s : State) : Prop := ∀ e ∈ s.cache, e.2 = compile e.1

/-- In the field loop of PACK (R27, R28, R29, R193): one bit per address below CUR, VI counts the value-carrying fields
done, and VAL has a value for every one to come. -/
def PackingOk (s : State) : Prop :=
  s.wbits.length = s.cur ∧ s.vi = valueCount (s.spec.take s.fi) ∧ valueCount s.spec ≤ s.val.length

/-- In the field loop of UNPACK (R30, R32, R203): RBITS is DATA, its bits suffice, and OUTV has one value per
value-carrying field done. -/
def UnpackingOk (s : State) : Prop :=
  s.rbits = bytesToBits s.data ∧ calcsizeOf s.spec ≤ s.totalBits ∧ s.outv.length = valueCount (s.spec.take s.fi)

/-- In the group loop of BYTESWAP (R211): every element converts, the loop is inside GROUPS and DATA, and OUT holds the
bytes from OFFSET up to BI. -/
def SwappingOk (s : State) : Prop :=
  groupsConvert s.groups = true ∧ s.gi ≤ s.groups.length ∧ s.offset ≤ s.bi ∧ s.bi ≤ s.data.length
    ∧ s.out.length = s.bi - s.offset

/-- The invariant. -/
structure Inv (s : State) : Prop where
  /-- R72. -/
  cache : CacheOk s
  /-- R38, R239: nothing of a call is left when IDLE. -/
  idle : s.phase = .idle → s = betweenCalls s
  /-- R190 (3): no response before the end of a call. -/
  noResponse : s.phase = .busy → s.response = none
  /-- STAGE fits OP. -/
  swapStage : s.phase = .busy → (s.stage = .swap ↔ s.op = .byteswap)
  /-- CALCSIZE has no field loop (R208). -/
  fieldStage : s.phase = .busy → s.stage = .fields → s.op ≠ .calcsize
  /-- R111: SPEC so far and what is left to scan make the whole table. -/
  scan : s.phase = .busy → s.stage = .compile → s.spec ++ compileFrom s.prev (s.fmt.drop s.si) = compile s.fmt
  /-- R114: the table of the field loop is the compiled format. -/
  table : s.phase = .busy → s.stage = .fields → s.spec = compile s.fmt
  /-- R26. -/
  index : s.phase = .busy → s.stage = .fields → s.fi ≤ s.spec.length
  /-- R28: CUR is the sum of the widths of the fields done. -/
  cursor : s.phase = .busy → s.stage = .fields → s.cur = calcsizeOf (s.spec.take s.fi)
  packing : s.phase = .busy → s.stage = .fields → s.op = .pack → PackingOk s
  unpacking : s.phase = .busy → s.stage = .fields → s.op = .unpack → UnpackingOk s
  swapping : s.phase = .busy → s.stage = .swap → SwappingOk s

/-- A safe run: it neither faults nor refuses. -/
def Safe (o : Host.Outcome State Fault Refusal) : Prop := ∃ t, o = .next t

end Sys2Proof.Machine
end

