-- ==== Sys2Proof/Certificates/Slice0/Obligations.lean ====
section
/-! DEFINITION. The statements for the provers. Each docstring names the rules of spec/ it formalises. Where a statement
rests on a decision of 92_eei_decisions.md (D<n>) or on a choice of the model (log <n>), its docstring says so. -/

open Sys2Proof Sys2Proof.Machine

/-! ## Words the statements use -/

/-- A character that is no letter, no digit and no bit-order character: a separator (R86, R93). -/
def Sys2Proof.isStray (c : Byte) : Bool := !isLetter c && !isDigit c && !isOrder c

/-- One group as a caller may write it: separators, an optional prefix, a letter, a width in decimal (R81, R93). -/
structure Sys2Proof.GroupText where
  strays   : List Byte
  explicit : Option BitOrder
  kind     : Byte
  width    : Nat

/-- The characters of a written group. -/
def Sys2Proof.GroupText.chars (g : GroupText) : List Byte :=
  g.strays ++ (match g.explicit with
    | some o => [charOfOrder o]
    | none => []) ++ g.kind :: decimal g.width

/-- The entries of a sequence of written groups when the group before them had the order `prev`: an explicit order is
taken, a missing one is the order of the group before (R112). -/
def Sys2Proof.inherited (prev : BitOrder) : List GroupText → List FieldSpec
  | [] => []
  | g :: gs => ⟨g.kind, g.width, g.explicit.getD prev⟩ :: inherited (g.explicit.getD prev) gs

/-- The bit order of the last group of a table, MSB_FIRST when there is none (R117). -/
def Sys2Proof.lastOrder (spec : List FieldSpec) : BitOrder := (spec.getLast?.map (·.order)).getD .msbFirst

/-- The operands a kind takes, by tag (R136, decision D7). -/
def Sys2Proof.accepts (k : Kind) (v : Value) : Bool :=
  match k, v with
  | .u, .int _ => true
  | .u, .bool _ => true
  | .s, .int _ => true
  | .s, .bool _ => true
  | .b, .int _ => true
  | .b, .bool _ => true
  | .f, .real _ => true
  | .t, .text _ => true
  | .r, .bytes _ => true
  | _, _ => false

/-- The magnitude of a finite binary64 datum in units of `2^-1074` (R153). -/
def Sys2Proof.magnitude64 (x : BitVec 64) : Nat :=
  if exp64 x = 0 then frac64 x else (2 ^ 52 + frac64 x) * 2 ^ (exp64 x - 1)

/-- The magnitude of a finite binary32 datum in units of `2^-1074` (R153): its own unit is `2^-149 = 2^925 · 2^-1074`. -/
def Sys2Proof.magnitude32 (y : BitVec 32) : Nat :=
  (if exp32 y = 0 then frac32 y else (2 ^ 23 + frac32 y) * 2 ^ (exp32 y - 1)) * 2 ^ 925

/-- The logical bits that a field of width `w` and order `o` reads at CUR (R58, R61). -/
def Sys2Proof.fieldBits (w : Nat) (o : BitOrder) (s : State) : Bits := inOrder o (memRead s.rbits s.cur w)

/-- The ten group characters and their sizes (R212). -/
def Sys2Proof.groupSizes : List (Instr × Nat) :=
  [(.byteswapGroup0, 0), (.byteswapGroup1, 1), (.byteswapGroup2, 2), (.byteswapGroup3, 3), (.byteswapGroup4, 4),
   (.byteswapGroup5, 5), (.byteswapGroup6, 6), (.byteswapGroup7, 7), (.byteswapGroup8, 8), (.byteswapGroup9, 9)]

/-- What every value of a table comes back as after encoding and decoding, field by field (R207). -/
def Sys2Proof.roundTripFields : List FieldSpec → List Value → Except ErrorKind (List Value)
  | [], _ => .ok []
  | f :: fs, vals =>
    match checkField f with
    | .error e => .error e
    | .ok .p => roundTripFields fs vals
    | .ok k =>
      match vals with
      | [] => .error .arityError
      | v :: vs =>
        match encodeKind k f.width v with
        | .error e => .error e
        | .ok b =>
          match decodeKind k f.width b with
          | .error e => .error e
          | .ok v' => (roundTripFields fs vs).map (v' :: ·)

/-! ## Encoding of the format string -/

/-- R81, R82, R83, R84, R85, R87, R97, R212: the bytes of every instruction, at every operand, are read back as that
instruction, in whatever follows them that does not run into them. -/
def Obligations.EncodeThenDecodeIsTheInstruction : Prop :=
  ∀ (i : Instr) (prev : BitOrder) (tail : List Byte), i.delimited tail = true →
    decode (contextOf prev i) (encode i ++ tail) = .ok (i, tail)

/-- R112 with R86 and R90: any text made of groups, each after any separators and with or without a prefix, compiles to
those groups in order, each with its explicit order or else that of the group before, MSB_FIRST at the start, whatever
the letters. -/
def Obligations.CompileGivesTheWrittenGroupsWithInheritedOrder : Prop :=
  ∀ (gs : List GroupText) (trailing : List Byte),
    (∀ g ∈ gs, isLetter g.kind = true ∧ ∀ c ∈ g.strays, isStray c = true) →
    (∀ c ∈ trailing, isStray c = true) →
    compile (gs.flatMap GroupText.chars ++ trailing) = inherited .msbFirst gs

/-- R117, for a join at a separator: the table of the whole is the table of the left part followed by that of the right
part compiled from the left part's last order; widths add up. -/
def Obligations.CompileOfAConcatenationAtASeparator : Prop :=
  ∀ (a b : List Byte) (c : Byte), isStray c = true →
    compile (a ++ c :: b) = compile a ++ compileFrom (lastOrder (compile a)) b ∧
    calcsizeOf (compile (a ++ c :: b)) = calcsizeOf (compile a) + calcsizeOf (compile b)

/-- R82, first sentence: where a group starts. -/
def Obligations.GroupStartsAtLetterThenDigit : Prop :=
  ∀ (prev : BitOrder) (text : List Byte),
    (groupAt prev text).isSome =
      (let j := if text.head?.any isOrder then 1 else 0
       text[j]?.any isLetter && text[j + 1]?.any isDigit)

/-- R85: a group's width is the base 10 value of its whole digit run, leading zeros included. -/
def Obligations.WidthIsTheDecimalValueOfTheDigitRun : Prop :=
  ∀ (k : Byte) (ds rest : List Byte), isLetter k = true → ds ≠ [] → (∀ d ∈ ds, isDigit d = true) →
    rest.head?.all (fun c => !isDigit c) = true →
    plainGroupAt (k :: (ds ++ rest)) =
      some (k, ((List.range ds.length).map fun i => digit (ds.getD i 0) * 10 ^ (ds.length - 1 - i)).sum, rest)

/-- Words written out from the spec: `>u19` under PACK, `<s5` and `f64` under UNPACK, `x4`, the codes of the commands
(R97), a group character (R212), a prefix before `u1` and a detached prefix (R90). -/
def Obligations.WordsOfTheSpecDecode : Prop :=
  decode (.group .enc .lsbFirst) [0x3E, 0x75, 0x31, 0x39] = .ok (.uEnc 19 .msbFirst, []) ∧
  decode (.group .dec .msbFirst) [0x3C, 0x73, 0x35, 0x3E] = .ok (.sDec 5 .lsbFirst, [0x3E]) ∧
  decode (.group .dec .lsbFirst) [0x66, 0x36, 0x34, 0x72] = .ok (.fDec 64 .lsbFirst, [0x72]) ∧
  decode (.group .enc .msbFirst) [0x78, 0x34] = .ok (.illegalLowerX 4 .msbFirst, []) ∧
  decode .command [0] = .ok (.pack, []) ∧ decode .command [3] = .ok (.byteswap, []) ∧
  decode .swapGroup [0x34] = .ok (.byteswapGroup4, []) ∧
  decode .scan [0x3C, 0x75, 0x31] = .ok (.prefixLsb, [0x75, 0x31]) ∧
  decode .scan [0x3C, 0x20, 0x75] = .ok (.skip 0x3C, [0x20, 0x75])

/-! ## Steps -/

/-- R26, R111, R190, R211: a step runs the instruction that stands at the command port, at SI, at FI or at GI; with no
command presented IDLE stays as it is (R36). The order of these sources is the model's step granularity (log 1). -/
def Obligations.StepRunsTheInstructionItFetches : Prop :=
  (∀ (s : State) (c : Command) (rest : List Command), s.resetIn = false → s.phase = .idle → s.port = c :: rest →
    step s = exec (decodeCommand c.op) (latch c rest s)) ∧
  (∀ s : State, s.resetIn = false → s.phase = .idle → s.port = [] → step s = .next s) ∧
  (∀ (s : State) (i : Instr) (after : List Byte), s.resetIn = false → s.phase = .busy → s.stage = .compile →
    decode .scan (s.fmt.drop s.si) = .ok (i, after) → step s = exec i s) ∧
  (∀ (s : State) (d : Dir) (f : FieldSpec) (i : Instr), s.resetIn = false → s.phase = .busy → s.stage = .fields →
    dirOf s.op = some d → s.spec[s.fi]? = some f → decodeField d f = some i → step s = exec i s) ∧
  (∀ (s : State) (c : Byte) (i : Instr), s.resetIn = false → s.phase = .busy → s.stage = .swap →
    s.groups[s.gi]? = some (.char c) → decodeGroupChar c = some i → step s = exec i s)

/-- R111, R113: the instruction a group's text decodes to is the one its compiled entry decodes to; the step that
compiles the group appends that entry, moves SI behind the group and changes nothing else. That a group is a step of its
own, after its prefix, is the model's split (log 1, 13). -/
def Obligations.ACompiledGroupIsTheInstructionOfItsText : Prop :=
  ∀ (s : State) (d : Dir) (i : Instr) (after : List Byte), s.resetIn = false → s.phase = .busy → s.stage = .compile →
    (plainGroupAt (s.fmt.drop s.si)).isSome = true →
    decode (.group d s.prev) (s.fmt.drop s.si) = .ok (i, after) →
    ∃ f n, i.fieldSpec = some f ∧ decodeField d f = some i ∧ s.fmt.drop (s.si + n) = after ∧
      step s = .next { s with spec := s.spec ++ [f], si := s.si + n }

/-- What a prefix and a skipped character do, and that they do nothing else. The skipped character is R86. The prefix as
an instruction of its own, which sets PREV and moves SI by one before its group is read, is the model's split (log 13):
R111 sets PREV in the turn that takes the group, with the same registers after the group (R112). -/
def Obligations.PrefixesSetPrevAndSkippedCharactersDoNothing : Prop :=
  ∀ (s : State) (c : Byte),
    exec .prefixMsb s = .next { s with prev := .msbFirst, si := s.si + 1 } ∧
    exec .prefixLsb s = .next { s with prev := .lsbFirst, si := s.si + 1 } ∧
    exec (.skip c) s = .next { s with si := s.si + 1 }

/-! ## PACK field instructions -/

/-- R130, R132 with conflict C4 and the coercions of R136 (decision D7): `u` and `s` write the `w` bits whose value is
the floor remainder of the integer by `2^w`, and advance CUR, VI and FI; nothing else changes. -/
def Obligations.IntegerEncodersWriteTheRemainderModuloTwoToTheWidth : Prop :=
  ∀ (i : Instr) (w : Nat) (o : BitOrder) (s : State) (v : Value) (z : Int),
    (i = .uEnc w o ∨ i = .sEnc w o) → w ≠ 0 → s.wbits.length = s.cur → s.val[s.vi]? = some v →
    (v = .int z ∨ (v = .bool true ∧ z = 1) ∨ (v = .bool false ∧ z = 0)) →
    ∃ b : Bits, b.length = w ∧ (valOf b : Int) = z % 2 ^ w ∧
      exec i s = .next { s with
        wbits := s.wbits ++ inOrder o b, cur := s.cur + w, vi := s.vi + 1, fi := s.fi + 1 }

/-- R134 with the coercions of R136 (decision D7): true is `w - 1` zeros and a one, false is `w` zeros. -/
def Obligations.BooleanEncoderWritesZeroOrOne : Prop :=
  ∀ (w : Nat) (o : BitOrder) (s : State) (v : Value) (x : Bool),
    w ≠ 0 → s.wbits.length = s.cur → s.val[s.vi]? = some v →
    (v = .bool x ∨ ∃ z : Int, v = .int z ∧ (x = true ↔ z ≠ 0)) →
    exec (.bEnc w o) s = .next { s with
      wbits := s.wbits ++ inOrder o (List.replicate (w - 1) false ++ [x])
      cur := s.cur + w, vi := s.vi + 1, fi := s.fi + 1 }

/-- R151: a 64-bit field is the operand's pattern bit for bit; a 32-bit field is NARROW32's pattern, and where NARROW32
fails the call ends with *coercion error*. Holds for every NARROW32 (log 8). -/
def Obligations.FloatEncoderWritesThePattern : Prop :=
  ∀ (o : BitOrder) (s : State) (x : BitVec 64), s.wbits.length = s.cur → s.val[s.vi]? = some (.real x) →
    (∃ b : Bits, b.length = 64 ∧ valOf b = x.toNat ∧
      exec (.fEnc 64 o) s = .next { s with
        wbits := s.wbits ++ inOrder o b, cur := s.cur + 64, vi := s.vi + 1, fi := s.fi + 1 }) ∧
    (∀ y, narrow32 x = some y → ∃ b : Bits, b.length = 32 ∧ valOf b = y.toNat ∧
      exec (.fEnc 32 o) s = .next { s with
        wbits := s.wbits ++ inOrder o b, cur := s.cur + 32, vi := s.vi + 1, fi := s.fi + 1 }) ∧
    (narrow32 x = none → exec (.fEnc 32 o) s = .next (endCall (.error .coercionError) s))

/-- R165, R166, R170: text is encoded as UTF-8, raw bytes are taken as they are, and the first `w` of their bits are
written. A code point without an encoding is a *coercion error* (R168), and so is an operand of fewer than `w` bits
(R172, decision D9). -/
def Obligations.TextAndRawEncodersWriteTheFirstBits : Prop :=
  ∀ (i : Instr) (w : Nat) (o : BitOrder) (s : State) (v : Value) (bytes : Option (List Byte)),
    w ≠ 0 → s.wbits.length = s.cur → s.val[s.vi]? = some v →
    ((i = .tEnc w o ∧ ∃ t, v = .text t ∧ bytes = utf8Encode t) ∨ (i = .rEnc w o ∧ ∃ y, v = .bytes y ∧ bytes = some y)) →
    (∀ y, bytes = some y → w ≤ 8 * y.length →
      exec i s = .next { s with
        wbits := s.wbits ++ inOrder o ((bytesToBits y).take w), cur := s.cur + w, vi := s.vi + 1, fi := s.fi + 1 }) ∧
    (∀ y, bytes = some y → 8 * y.length < w → exec i s = .next (endCall (.error .coercionError) s)) ∧
    (bytes = none → exec i s = .next (endCall (.error .coercionError) s))

/-- R174 and R175: `p` writes `w` zeros or moves the cursor over `w` bits, takes no value and gives none. -/
def Obligations.PaddingWritesZerosAndSkipsBits : Prop :=
  ∀ (w : Nat) (o : BitOrder) (s : State), w ≠ 0 →
    (s.wbits.length = s.cur →
      exec (.pEnc w o) s = .next { s with
        wbits := s.wbits ++ List.replicate w false, cur := s.cur + w, fi := s.fi + 1 }) ∧
    exec (.pDec w o) s = .next { s with cur := s.cur + w, fi := s.fi + 1 }

/-- R136 (decision D7): an operand whose tag the kind does not take ends the call with *coercion error*. -/
def Obligations.OperandsOfAnotherTagAreCoercionErrors : Prop :=
  ∀ (k : Kind) (w : Nat) (o : BitOrder) (s : State) (v : Value),
    k ≠ .p → (k.instr .enc w o).wf = true → s.val[s.vi]? = some v → accepts k v = false →
    exec (k.instr .enc w o) s = .next (endCall (.error .coercionError) s)

/-! ## UNPACK field instructions -/

/-- R131: `u` gives the value of its bits, between 0 and `2^w - 1`, and changes CUR, FI and OUTV only. -/
def Obligations.UnsignedDecoderGivesTheValueOfTheBits : Prop :=
  ∀ (w : Nat) (o : BitOrder) (s : State), w ≠ 0 → s.cur + w ≤ s.totalBits →
    valOf (fieldBits w o s) < 2 ^ w ∧
    exec (.uDec w o) s = .next { s with
      cur := s.cur + w, fi := s.fi + 1, outv := s.outv ++ [.int (valOf (fieldBits w o s))] }

/-- R133: `s` gives the number congruent to its bits modulo `2^w` that lies in `-2^(w-1) … 2^(w-1) - 1`; it is negative
exactly when the first logical bit is set. -/
def Obligations.SignedDecoderGivesTheTwosComplementNumber : Prop :=
  ∀ (w : Nat) (o : BitOrder) (s : State), w ≠ 0 → s.cur + w ≤ s.totalBits →
    ∃ z : Int, -(2 : Int) ^ (w - 1) ≤ z ∧ z < (2 : Int) ^ (w - 1) ∧ z % 2 ^ w = valOf (fieldBits w o s) ∧
      (z < 0 ↔ (fieldBits w o s).head? = some true) ∧
      exec (.sDec w o) s = .next { s with cur := s.cur + w, fi := s.fi + 1, outv := s.outv ++ [.int z] }

/-- R135 (decision D10): `b` gives true exactly when one of its bits is one. -/
def Obligations.BooleanDecoderGivesWhetherABitIsSet : Prop :=
  ∀ (w : Nat) (o : BitOrder) (s : State), w ≠ 0 → s.cur + w ≤ s.totalBits →
    exec (.bDec w o) s = .next { s with
      cur := s.cur + w, fi := s.fi + 1, outv := s.outv ++ [.bool ((fieldBits w o s).contains true)] }

/-- R152: a 64-bit field is returned as its pattern, a 32-bit field as WIDEN32 of it. Holds for every WIDEN32 (log 9). -/
def Obligations.FloatDecoderGivesThePattern : Prop :=
  ∀ (o : BitOrder) (s : State),
    (s.cur + 64 ≤ s.totalBits → ∃ x : BitVec 64, x.toNat = valOf (fieldBits 64 o s) ∧
      exec (.fDec 64 o) s = .next { s with cur := s.cur + 64, fi := s.fi + 1, outv := s.outv ++ [.real x] }) ∧
    (s.cur + 32 ≤ s.totalBits → ∃ y : BitVec 32, y.toNat = valOf (fieldBits 32 o s) ∧
      exec (.fDec 32 o) s = .next { s with
        cur := s.cur + 32, fi := s.fi + 1, outv := s.outv ++ [.real (widen32 y)] })

/-- R165, R171: `r` gives the whole bytes whose bits are the field's bits followed by zeros. -/
def Obligations.RawDecoderGivesZeroFilledBytes : Prop :=
  ∀ (w : Nat) (o : BitOrder) (s : State), w ≠ 0 → s.cur + w ≤ s.totalBits →
    ∃ y : List Byte, y.length = (w + 7) / 8 ∧
      bytesToBits y = fieldBits w o s ++ List.replicate (8 * y.length - w) false ∧
      exec (.rDec w o) s = .next { s with cur := s.cur + w, fi := s.fi + 1, outv := s.outv ++ [.bytes y] }

/-- R167, R169 (strict, decision D23): `t` gives the text whose UTF-8 encoding is the field's zero-filled bytes; where
no text encodes to them the call ends with *decode error*. -/
def Obligations.TextDecoderGivesTheTextOrDecodeError : Prop :=
  ∀ (w : Nat) (o : BitOrder) (s : State) (y : List Byte), w ≠ 0 → s.cur + w ≤ s.totalBits →
    y.length = (w + 7) / 8 → bytesToBits y = fieldBits w o s ++ List.replicate (8 * y.length - w) false →
    (∀ t, utf8Encode t = some y →
      exec (.tDec w o) s = .next { s with cur := s.cur + w, fi := s.fi + 1, outv := s.outv ++ [.text t] }) ∧
    ((∀ t, utf8Encode t ≠ some y) → exec (.tDec w o) s = .next (endCall (.error .decodeError) s))

/-- R58: a read beyond TOTAL_BITS ends the call with *insufficient input*. (Inside UNPACK it never happens: the
invariant says so.) -/
def Obligations.ReadsBeyondTheInputAreInsufficientInput : Prop :=
  ∀ (k : Kind) (w : Nat) (o : BitOrder) (s : State),
    k ≠ .p → (k.instr .dec w o).wf = true → s.totalBits < s.cur + w →
    exec (k.instr .dec w o) s = .next (endCall (.error .insufficientInput) s)

/-! ## Field instructions: errors and frame -/

/-- R196 with R87, R91 and R92 (decision D8): a field instruction that is not well formed, in either direction, ends the
call with *format error*, whatever the operands. This covers the 45 illegal letters, every width 0, and every float
width but 32 and 64. -/
def Obligations.IllFormedFieldsAreFormatErrors : Prop :=
  ∀ (i : Instr) (f : FieldSpec) (s : State), i.fieldSpec = some f → i.wf = false →
    exec i s = .next (endCall (.error .formatError) s)

/-- R87: a group with a letter that is no kind compiles like any other group, takes and passes on a bit order, counts
in `calcsize` and among the values, and raises *format error* only when it is executed, under PACK and UNPACK alike. -/
def Obligations.IllegalLettersCompileAndFailWhenExecuted : Prop :=
  ∀ (c : Byte) (w : Nat), isLetter c = true → (∀ k : Kind, k.letter ≠ c) →
    (∀ (prev : BitOrder) (explicit : Option BitOrder) (text : List Byte),
      compileFrom prev ((explicit.map charOfOrder).toList ++ c :: (decimal w ++ 0x2C :: text)) =
        ⟨c, w, explicit.getD prev⟩ :: compileFrom (explicit.getD prev) text) ∧
    (∀ o, valueCount [⟨c, w, o⟩] = 1 ∧ calcsizeOf [⟨c, w, o⟩] = w) ∧
    (∀ (o : BitOrder) (d : Dir), ∃ i, decodeField d ⟨c, w, o⟩ = some i ∧
      ∀ s, exec i s = .next (endCall (.error .formatError) s))

/-- R26, R27, R28, R68, R194, R204: a field instruction that completes advances FI by one, CUR by its width and, under
PACK and unless it is padding, VI by one; it appends its width in bits to WBITS (PACK) or at most one value to OUTV
(UNPACK); every bit written before, every value decoded before and every other register is unchanged. Only an encoder
needs that WBITS ends at CUR, which the invariant says of PACK; under UNPACK WBITS is not used. -/
def Obligations.FieldInstructionsChangeOnlyTheirOwnRegisters : Prop :=
  ∀ (i : Instr) (f : FieldSpec) (s t : State), i.fieldSpec = some f → s.phase = .busy →
    (i.dir = .enc → s.wbits.length = s.cur) → exec i s = .next t → t.phase = .busy →
    ∃ (b : Bits) (vs : List Value),
      t = { s with
        fi := s.fi + 1, cur := s.cur + f.width
        vi := if i.dir = .enc ∧ f.isPadding = false then s.vi + 1 else s.vi
        wbits := s.wbits ++ b, outv := s.outv ++ vs } ∧
      (i.dir = .enc → b.length = f.width ∧ vs = []) ∧
      (i.dir = .dec → b = [] ∧ vs.length = if f.isPadding then 0 else 1)

/-- R238, R239, R247: whatever instruction ends a call, nothing of the call is left but its status: no payload, the
registers as after reset (log 3), PHASE IDLE; the parameters, the cache and the caller's inputs stay. -/
def Obligations.AnInstructionThatEndsACallLeavesOnlyItsStatus : Prop :=
  ∀ (i : Instr) (s t : State), s.phase = .busy → exec i s = .next t → t.phase = .idle →
    ∃ r : Response, r.payload = none ∧ r.status ≠ 0 ∧
      t = { State.reset with
        resetIn := s.resetIn, port := s.port, params := s.params, cache := s.cache, response := some r }

/-! ## Commands -/

/-- R192, R201, R208 with R37, R72 and R248 (log 6, 7): PACK, UNPACK and CALCSIZE begin to compile from the start of FMT
with PREV = MSB_FIRST, or take the cached table; above a capacity they end REFUSED (a claim about the spec, log 4). -/
def Obligations.CommandsBeginByCompiling : Prop :=
  ∀ (i : Instr) (s : State) (fits : Bool),
    ((i = .pack ∧ fits = (within s.params.maxFmtLen s.fmt.length && within s.params.maxValues s.val.length)) ∨
     (i = .unpack ∧ fits = (within s.params.maxFmtLen s.fmt.length && within s.params.maxDataBytes s.data.length)) ∨
     (i = .calcsize ∧ fits = within s.params.maxFmtLen s.fmt.length)) →
    (fits = true → cached s = none →
      exec i s = .next { s with stage := .compile, spec := [], si := 0, prev := .msbFirst }) ∧
    (fits = true → ∀ table, cached s = some table →
      exec i s = .next { s with stage := .compile, spec := table, si := s.fmt.length, prev := .msbFirst }) ∧
    (fits = false → exec i s = .next (endCall (.refused .capacity) s))

/-- R192, R193, R197 with R231 and R248: when the format is compiled, PACK ends with *arity error* if VAL has fewer values
than the table has value-carrying fields, illegal kinds and bad widths included, else starts its field loop at zero. -/
def Obligations.PackChecksArityBeforeAnyField : Prop :=
  ∀ s : State, s.resetIn = false → s.phase = .busy → s.stage = .compile → s.op = .pack → s.fmt.drop s.si = [] →
    specFits s.params s.spec = true → within s.params.maxDataBytes (byteCount (calcsizeOf s.spec)) = true →
    ∃ cache,
      (s.val.length < valueCount s.spec →
        step s = .next { endCall (.error .arityError) s with cache := cache }) ∧
      (valueCount s.spec ≤ s.val.length →
        step s = .next { s with stage := .fields, fi := 0, vi := 0, cur := 0, wbits := [], cache := cache })

/-- R201, R203, R206 (decision D14) with R60: when the format is compiled, UNPACK ends with *insufficient input* if the
sum of all widths exceeds the bits of DATA, else starts its field loop at bit 0 of DATA. -/
def Obligations.UnpackChecksSizeBeforeAnyField : Prop :=
  ∀ s : State, s.resetIn = false → s.phase = .busy → s.stage = .compile → s.op = .unpack → s.fmt.drop s.si = [] →
    specFits s.params s.spec = true →
    ∃ cache,
      (8 * s.data.length < calcsizeOf s.spec →
        step s = .next { endCall (.error .insufficientInput) s with cache := cache }) ∧
      (calcsizeOf s.spec ≤ 8 * s.data.length →
        step s = .next { s with
          stage := .fields, rbits := bytesToBits s.data, fi := 0, cur := 0, outv := [], cache := cache })

/-- R59, R65, R192: at FI = n PACK ends with OK and the `⌈CUR/8⌉` bytes whose bits are WBITS followed by zeros. -/
def Obligations.PackEndsWithTheZeroPaddedBytes : Prop :=
  ∀ s : State, s.resetIn = false → s.phase = .busy → s.stage = .fields → s.op = .pack → s.fi = s.spec.length →
    s.wbits.length = s.cur →
    ∃ y : List Byte, y.length = (s.cur + 7) / 8 ∧
      bytesToBits y = s.wbits ++ List.replicate (8 * y.length - s.cur) false ∧
      step s = .next (endCall (.ok (.bytes y)) s)

/-- R32, R201: at FI = n UNPACK ends with OK and OUTV. -/
def Obligations.UnpackEndsWithTheDecodedValues : Prop :=
  ∀ s : State, s.resetIn = false → s.phase = .busy → s.stage = .fields → s.op = .unpack → s.fi = s.spec.length →
    step s = .next (endCall (.ok (.values s.outv)) s)

/-- R211, R212, R214 (decisions D15, D18) with R248: BYTESWAP's checks in their order, and where its loop starts. The two
REFUSED clauses are claims about the spec, not about its source (R247, log 4). -/
def Obligations.ByteswapChecksItsOperandsInOrder : Prop :=
  ∀ s : State,
    (within s.params.maxDataBytes s.data.length = false →
      exec .byteswap s = .next (endCall (.refused .capacity) s)) ∧
    (within s.params.maxDataBytes s.data.length = true → (∃ c, .char c ∈ s.groups ∧ isDigit c = false) →
      exec .byteswap s = .next (endCall (.error .coercionError) s)) ∧
    (within s.params.maxDataBytes s.data.length = true → (∀ c, .char c ∈ s.groups → isDigit c = true) →
      (s.data.length < s.offset → exec .byteswap s = .next (endCall (.refused .offsetOutOfRange) s)) ∧
      (s.offset ≤ s.data.length →
        exec .byteswap s = .next { s with stage := .swap, gi := 0, bi := s.offset, out := [] }))

/-- R211, R212, R213, R214 (decisions D15, D16): a group character of size `g` appends the next `g` bytes reversed; too
few bytes are *insufficient input*, and `0` ends REFUSED (a claim about the spec, log 4). -/
def Obligations.GroupCharactersReverseTheirBytes : Prop :=
  ∀ p ∈ groupSizes, ∀ s : State,
    (p.2 = 0 → exec p.1 s = .next (endCall (.refused .zeroGroup) s)) ∧
    (p.2 ≠ 0 → s.data.length < s.bi + p.2 → exec p.1 s = .next (endCall (.error .insufficientInput) s)) ∧
    (p.2 ≠ 0 → s.bi + p.2 ≤ s.data.length →
      ∃ y : List Byte, y.length = p.2 ∧ (∀ r < p.2, y[r]? = s.data[s.bi + p.2 - 1 - r]?) ∧
        exec p.1 s = .next { s with out := s.out ++ y, bi := s.bi + p.2, gi := s.gi + 1 })

/-- R211, R214 (decision D17): after the last group BYTESWAP ends with OUT, or REFUSED when bytes are left over (a claim
about the spec, log 4). -/
def Obligations.ByteswapEndsWithTheSwappedBytes : Prop :=
  ∀ s : State, s.resetIn = false → s.phase = .busy → s.stage = .swap → s.gi = s.groups.length →
    (s.bi = s.data.length → step s = .next (endCall (.ok (.bytes s.out)) s)) ∧
    (s.bi < s.data.length → step s = .next (endCall (.refused .longTail) s))

/-! ## Whole calls -/

/-- R190, R192, R217: from any state in IDLE with a valid cache and PACK presented, the machine reaches IDLE with the
response of the call-level function PACK, and with nothing else of the call left. The bound of `2·len(FMT) + 3` steps is
the model's: it counts the steps of log 1, which R272 gives no standing. Where the response is REFUSED, above a capacity
checked as log 6 says, it is a claim about the spec alone (log 4). -/
def Obligations.PackRunsToTheResponseOfItsFunction : Prop :=
  ∀ (s : State) (c : Command) (rest : List Command), s.resetIn = false → s.phase = .idle → s.port = c :: rest →
    c.op = 0 → CacheOk s →
    ∃ n cache, n ≤ 2 * c.fmt.length + 3 ∧ (∀ e ∈ cache, e.2 = compile e.1) ∧
      run n s = .next { endCall (packCall s.params c.fmt c.val) s with port := rest, cache := cache }

/-- R190, R201, R217: the machine reaches the response of the call-level function UNPACK. The bound of `2·len(FMT) + 3`
steps is the model's: it counts the steps of log 1, which R272 gives no standing. Where the response is REFUSED, above a
capacity checked as log 6 says, it is a claim about the spec alone (log 4). -/
def Obligations.UnpackRunsToTheResponseOfItsFunction : Prop :=
  ∀ (s : State) (c : Command) (rest : List Command), s.resetIn = false → s.phase = .idle → s.port = c :: rest →
    c.op = 1 → CacheOk s →
    ∃ n cache, n ≤ 2 * c.fmt.length + 3 ∧ (∀ e ∈ cache, e.2 = compile e.1) ∧
      run n s = .next { endCall (unpackCall s.params c.fmt c.data) s with port := rest, cache := cache }

/-- R190, R208, R217: the machine reaches the response of the call-level function CALCSIZE. R115, R208: inside the
capacities that response is the sum of the widths, whatever the kinds and widths, never an error. R248: above one,
MAX_FMT_LEN, MAX_FIELDS or MAX_WIDTH, it is REFUSED, a claim about the spec alone (log 4), checked as log 6 says. The
bound of `len(FMT) + 2` steps is the model's: it counts the steps of log 1, which R272 gives no standing. -/
def Obligations.CalcsizeRunsToTheSumOfTheWidths : Prop :=
  ∀ (s : State) (c : Command) (rest : List Command), s.resetIn = false → s.phase = .idle → s.port = c :: rest →
    c.op = 2 → CacheOk s →
    (∃ n cache, n ≤ c.fmt.length + 2 ∧ (∀ e ∈ cache, e.2 = compile e.1) ∧
      run n s = .next { endCall (calcsizeCall s.params c.fmt) s with port := rest, cache := cache }) ∧
    (within s.params.maxFmtLen c.fmt.length = true → specFits s.params (compile c.fmt) = true →
      calcsizeCall s.params c.fmt = .ok (.size ((compile c.fmt).map (·.width)).sum)) ∧
    ((within s.params.maxFmtLen c.fmt.length = false ∨ specFits s.params (compile c.fmt) = false) →
      calcsizeCall s.params c.fmt = .refused .capacity)

/-- R190, R211: the machine reaches the response of the call-level function BYTESWAP, whose groups may also be given as
numbers (log 19). The bound of `len(GROUPS) + 2` steps is the model's: it counts the steps of log 1, which R272 gives no
standing. Where the response is REFUSED (a zero group, decision D16; bytes left over, D17; an offset beyond the data, D18;
a capacity, log 6), it is a claim about the spec alone (R247, log 4). -/
def Obligations.ByteswapRunsToTheResponseOfItsFunction : Prop :=
  ∀ (s : State) (c : Command) (rest : List Command), s.resetIn = false → s.phase = .idle → s.port = c :: rest →
    c.op = 3 →
    ∃ n, n ≤ c.groups.length + 2 ∧
      run n s = .next { endCall (byteswapCall s.params c.groups c.data c.offset) s with port := rest }

/-- R70, R71, R72, R239, R261: the response of a call depends on its latched inputs and the parameters alone. Two
machines in IDLE, whatever ran on them before, whatever their caches hold, give the same response to the same command. -/
def Obligations.ResponsesDependOnTheInputsOfTheCallAlone : Prop :=
  ∀ (s1 s2 : State) (c : Command) (rest1 rest2 : List Command),
    s1.resetIn = false → s2.resetIn = false → s1.phase = .idle → s2.phase = .idle →
    s1.port = c :: rest1 → s2.port = c :: rest2 → CacheOk s1 → CacheOk s2 → s1.params = s2.params →
    ∃ n1 n2 t1 t2 r, run n1 s1 = .next t1 ∧ run n2 s2 = .next t2 ∧ t1.phase = .idle ∧ t2.phase = .idle ∧
      t1.port = rest1 ∧ t2.port = rest2 ∧ t1.response = some r ∧ t2.response = some r

/-- R65, R195: PACK's output has `⌈calcsize/8⌉` bytes, and every bit beyond `calcsize` is zero. -/
def Obligations.PackOutputHasTheSizeOfItsFormat : Prop :=
  ∀ (p : Params) (fmt : List Byte) (val : List Value) (y : List Byte), packCall p fmt val = .ok (.bytes y) →
    y.length = (calcsizeOf (compile fmt) + 7) / 8 ∧
    ∀ b ∈ (bytesToBits y).drop (calcsizeOf (compile fmt)), b = false

/-- R207: unpacking what PACK gave, with the same format, gives every value as its field's decoder returns what its
encoder wrote, or the *decode error* of the first text field that does not decode. -/
def Obligations.UnpackOfPackGivesTheValuesBack : Prop :=
  ∀ (p : Params) (fmt : List Byte) (val : List Value) (y : List Byte), packCall p fmt val = .ok (.bytes y) →
    unpackCall p fmt y =
      match roundTripFields (compile fmt) val with
      | .ok vs => .ok (.values vs)
      | .error e => .error e

/-- R24, R193, R195: surplus values are never read, whatever they are. -/
def Obligations.PackIgnoresSurplusValues : Prop :=
  ∀ (p : Params) (fmt : List Byte) (val extra : List Value), p.maxValues = none →
    valueCount (compile fmt) ≤ val.length → packCall p fmt (val ++ extra) = packCall p fmt val

/-- R66: bits from `calcsize` on are not read: two inputs that agree before that give the same result, whatever their
lengths. -/
def Obligations.UnpackIgnoresSurplusBits : Prop :=
  ∀ (p : Params) (fmt data1 data2 : List Byte), p.maxDataBytes = none →
    calcsizeOf (compile fmt) ≤ 8 * data1.length → calcsizeOf (compile fmt) ≤ 8 * data2.length →
    (bytesToBits data1).take (calcsizeOf (compile fmt)) = (bytesToBits data2).take (calcsizeOf (compile fmt)) →
    unpackCall p fmt data1 = unpackCall p fmt data2

/-- R215: swapping the same groups twice gives the bytes from the offset on. -/
def Obligations.ByteswapTwiceIsTheIdentity : Prop :=
  ∀ (p : Params) (groups : List GroupElem) (x y : List Byte) (offset : Nat),
    byteswapCall p groups x offset = .ok (.bytes y) →
    byteswapCall p groups y 0 = .ok (.bytes (x.drop offset))

/-! ## Codec laws -/

/-- R138: what an integer comes back as: under `u` its remainder modulo `2^w`, under `s` the number congruent to it in
the signed range. Encoding is the same for both. -/
def Obligations.IntegersRoundTripModuloTwoToTheWidth : Prop :=
  ∀ (w : Nat) (z : Int), w ≠ 0 →
    ∃ (b : Bits) (y : Int), encU w (.int z) = .ok b ∧ encS w (.int z) = .ok b ∧ decU b = .ok (.int (z % 2 ^ w)) ∧
      decS w b = .ok (.int y) ∧ -(2 : Int) ^ (w - 1) ≤ y ∧ y < (2 : Int) ^ (w - 1) ∧ y % 2 ^ w = z % 2 ^ w

/-- R154 (b), (c): NARROW32 gives the pattern of every number, zero and infinity that binary32 holds, sign kept, and some
NaN for a NaN. Holds for every value of the free answers of Config (log 8). -/
def Obligations.NarrowIsExactOnRepresentableReals : Prop :=
  (∀ (x : BitVec 64) (y : BitVec 32), exp64 x ≠ 2047 → exp32 y ≠ 255 → sign64 x = sign32 y →
    magnitude64 x = magnitude32 y → narrow32 x = some y) ∧
  (∀ (x : BitVec 64) (y : BitVec 32), exp64 x = 2047 → frac64 x = 0 → exp32 y = 255 → frac32 y = 0 →
    sign64 x = sign32 y → narrow32 x = some y) ∧
  (∀ x : BitVec 64, isNaN64 x = true → ∃ y, narrow32 x = some y ∧ isNaN32 y = true)

/-- R155 (b), (c): WIDEN32 gives the same number for every finite pattern, subnormals and both zeros included, the same
infinity, and some NaN for a NaN. Holds for every value of the free answer of Config (log 9). -/
def Obligations.WidenIsExactOnEveryNumber : Prop :=
  (∀ y : BitVec 32, exp32 y ≠ 255 → exp64 (widen32 y) ≠ 2047 ∧ sign64 (widen32 y) = sign32 y ∧
    magnitude64 (widen32 y) = magnitude32 y) ∧
  (∀ y : BitVec 32, exp32 y = 255 → frac32 y = 0 →
    exp64 (widen32 y) = 2047 ∧ frac64 (widen32 y) = 0 ∧ sign64 (widen32 y) = sign32 y) ∧
  (∀ y : BitVec 32, isNaN32 y = true → isNaN64 (widen32 y) = true)

/-- R168: the four rows of the encoding table, as numbers, and the code points without an encoding. -/
def Obligations.Utf8EncodingFollowsTheTable : Prop :=
  ∀ n : Nat,
    (n ≤ 0x7F → (utf8EncodeOne n).map (·.map BitVec.toNat) = some [n]) ∧
    (0x80 ≤ n → n ≤ 0x7FF → (utf8EncodeOne n).map (·.map BitVec.toNat) = some [0xC0 + n / 64, 0x80 + n % 64]) ∧
    (0x800 ≤ n → n ≤ 0xFFFF → ¬(0xD800 ≤ n ∧ n ≤ 0xDFFF) →
      (utf8EncodeOne n).map (·.map BitVec.toNat) =
        some [0xE0 + n / 4096, 0x80 + n / 64 % 64, 0x80 + n % 64]) ∧
    (0x10000 ≤ n → n ≤ 0x10FFFF →
      (utf8EncodeOne n).map (·.map BitVec.toNat) =
        some [0xF0 + n / 262144, 0x80 + n / 4096 % 64, 0x80 + n / 64 % 64, 0x80 + n % 64]) ∧
    (0xD800 ≤ n → n ≤ 0xDFFF → utf8EncodeOne n = none) ∧ (0x10FFFF < n → utf8EncodeOne n = none) ∧
    utf8EncodeOne (-1 - n) = none

/-- R169 (strict, decision D23): a byte sequence decodes to a text exactly when the text encodes to it. So the valid
sequences are the concatenations of table encodings, and the decoding is unique. -/
def Obligations.Utf8DecodeIsTheInverseOfEncode : Prop :=
  ∀ (y : List Byte) (t : List Int), utf8Decode y = some t ↔ utf8Encode t = some y

/-! ## The bit buffer -/

/-- R61: the bits handed to a write and returned by a read are the logical string, most significant bit first, whatever
the order; in the buffer an LSB_FIRST field stands reversed. Reading a write back at its address in the same order gives
the string, in the other order its reverse. The write changes the addresses it names and no other (R55). -/
def Obligations.BufferReadsBackWhatWasWritten : Prop :=
  ∀ (s : State) (b : Bits) (o : BitOrder), s.cur ≤ s.wbits.length →
    (∀ k, (writeBits b o s).wbits[k]? =
      if s.cur ≤ k ∧ k < s.cur + b.length then (match o with
        | .msbFirst => b
        | .lsbFirst => b.reverse)[k - s.cur]?
      else s.wbits[k]?) ∧
    ∀ r : State, r.rbits = (writeBits b o s).wbits → r.cur = s.cur →
      readBits b.length o r = some (b, { r with cur := s.cur + b.length }) ∧
      ∀ o', o' ≠ o → readBits b.length o' r = some (b.reverse, { r with cur := s.cur + b.length })

/-- R7, R50, R62: the buffer as one big-endian integer: extraction is a shift right and a mask, insertion into zeros a
shift left and a sum. -/
def Obligations.BufferIsABigEndianInteger : Prop :=
  ∀ (y : List Byte) (p : Nat),
    (∀ n, p + n ≤ 8 * y.length →
      valOf (memRead (bytesToBits y) p n) = shiftExtract y.length (bufferInt y) p n) ∧
    (∀ b : Bits, p + b.length ≤ 8 * y.length →
      (∀ k, p ≤ k → k < p + b.length → (bytesToBits y)[k]? = some false) →
      bufferInt (bitsToBytes (memWrite (bytesToBits y) p b)) = shiftInsert y.length (bufferInt y) p b)

/-- R29, R63: the accumulator form holds the same bits as WBITS and finalizes to the same bytes. -/
def Obligations.AccumulatorFormAgreesWithTheBitString : Prop :=
  ∀ b : Bits,
    bitsOfAcc (appendBits AccBuf.empty b) = b ∧
    (appendBits AccBuf.empty b).nacc = b.length % 8 ∧
    finalizeAcc (appendBits AccBuf.empty b) = bitsToBytes (b ++ List.replicate (tailLength b.length) false)

/-! ## The whole machine -/

/-- R38, R260 with D19: after reset the block is IDLE, no response is pending and the cache is empty; asserting reset
gives that state from any state, a call in flight included (R261; what the caller presents stays, log 12). -/
def Obligations.ResetLeavesTheBlockBetweenCalls : Prop :=
  (State.reset.phase = .idle ∧ State.reset.response = none ∧ State.reset.cache = []) ∧
  ∀ s : State, s.resetIn = true →
    step s = .next { State.reset with params := s.params, port := s.port }

/-- R38, R260: the invariant holds after reset, whatever the parameters and the commands presented. The values of the dead
registers are the model's choice (log 3). -/
def Obligations.InvariantHoldsAfterReset : Prop :=
  ∀ (p : Params) (commands : List Command), Inv { State.reset with params := p, port := commands }

/-- R26, R27, R28, R29, R32, R72, R111, R193, R203, R239: every step keeps the invariant of Safety.lean, from every state
that satisfies it. Its clauses on STAGE and on the registers between two calls are the model's choice (log 1, 3). -/
def Obligations.EveryStepKeepsTheInvariant : Prop :=
  ∀ s t : State, Inv s → step s = .next t → Inv t

/-- R12, R190, R194: from a state that satisfies the invariant every step has a next state; in particular the encoders
find the value they need. -/
def Obligations.EveryStepFromTheInvariantCompletes : Prop :=
  ∀ s : State, Inv s → Safe (step s)

/-- R22, R33, R37, R270: while a call runs, the latch, the parameters and the caller's queue (log 2) keep their
values and no response appears. -/
def Obligations.TheLatchIsReadOnlyDuringACall : Prop :=
  ∀ s t : State, s.resetIn = false → s.phase = .busy → step s = .next t → t.phase = .busy →
    t.op = s.op ∧ t.fmt = s.fmt ∧ t.val = s.val ∧ t.data = s.data ∧ t.groups = s.groups ∧ t.offset = s.offset ∧
    t.params = s.params ∧ t.port = s.port ∧ t.resetIn = s.resetIn ∧ t.response = s.response

/-- R21: no step writes the parameters. That no step but reset (R38) removes or replaces an entry of the cache is the
model's choice (log 7): R72 only asks that an entry is what compiling its string gives, and R4 leaves the rest of the
cache out of scope. -/
def Obligations.StepsKeepTheParametersAndTheCache : Prop :=
  ∀ s t : State, step s = .next t →
    t.params = s.params ∧ (s.resetIn = false → ∃ new, t.cache = s.cache ++ new)

/-- R231 with R33 and R247: the code of every status, which are the spec's own numbers (decision D3). No response has the
unused code 6, and a payload is there exactly when the status is OK. -/
def Obligations.StatusCodesAreThoseOfTheTable : Prop :=
  (∀ p : Payload, (Response.ok p).status = 0 ∧ (Response.ok p).payload = some p) ∧
  (Response.error .formatError).status = 1 ∧ (Response.error .arityError).status = 2 ∧
  (Response.error .insufficientInput).status = 3 ∧ (Response.error .coercionError).status = 4 ∧
  (Response.error .decodeError).status = 5 ∧ (∀ r : Reason, (Response.refused r).status = 7) ∧
  ∀ r : Response, r.status ≠ 6 ∧ (r.payload.isSome = true ↔ r.status = 0)
end

