-- ==== Sys2Proof/Laws/Bits.lean ====
section
/-! SUPPORT. Laws of bit strings (R8): lengths, `bitsOf` and `valOf` as inverses, whole bytes, bit order, and the
buffer primitives MemRead and MemWrite. -/

namespace Sys2Proof.Machine

/-! ## `bitsOf` and `valOf` -/

@[simp] theorem bitsOf_length (v w : Nat) : (bitsOf v w).length = w := by simp [bitsOf]

theorem bitsOf_getElem? (v w i : Nat) (h : i < w) : (bitsOf v w)[i]? = some (v.testBit (w - 1 - i)) := by
  simp [bitsOf, h]

theorem bitsOf_succ (v w : Nat) : bitsOf v (w + 1) = v.testBit w :: bitsOf v w := by
  refine List.ext_getElem? fun i => ?_
  rcases i with _ | i
  · simp [bitsOf]
  · rcases Nat.lt_or_ge i w with h | h
    · simp [bitsOf, h, show w - (i + 1) = w - 1 - i by omega]
    · simp [bitsOf, h]

theorem valOf_foldl (s : Bits) (acc : Nat) :
    s.foldl (fun acc b => 2 * acc + b.toNat) acc = acc * 2 ^ s.length + valOf s := by
  induction s generalizing acc with
  | nil => simp [valOf]
  | cons b s ih =>
    simp only [valOf, List.foldl_cons, List.length_cons]
    rw [ih, ih]
    ring

@[simp] theorem valOf_nil : valOf [] = 0 := rfl

theorem valOf_cons (b : Bool) (s : Bits) : valOf (b :: s) = b.toNat * 2 ^ s.length + valOf s := by
  simp only [valOf, List.foldl_cons]
  rw [valOf_foldl]
  simp [valOf]

theorem valOf_append (s t : Bits) : valOf (s ++ t) = valOf s * 2 ^ t.length + valOf t := by
  simp only [valOf, List.foldl_append]
  rw [valOf_foldl]
  simp [valOf]

theorem valOf_lt (s : Bits) : valOf s < 2 ^ s.length := by
  induction s with
  | nil => simp
  | cons b s ih =>
    rw [valOf_cons, List.length_cons, pow_succ]
    cases b <;> simp <;> omega

theorem valOf_bitsOf (v w : Nat) : valOf (bitsOf v w) = v % 2 ^ w := by
  induction w with
  | zero => simp [bitsOf, Nat.mod_one]
  | succ w ih =>
    rw [bitsOf_succ, valOf_cons, ih, bitsOf_length, pow_succ, Nat.mod_mul, Nat.testBit_eq_decide_div_mod_eq]
    rcases Nat.mod_two_eq_zero_or_one (v / 2 ^ w) with h | h <;> simp [h]
    omega

theorem valOf_inj {s t : Bits} (hl : s.length = t.length) (hv : valOf s = valOf t) : s = t := by
  induction s generalizing t with
  | nil => cases t <;> simp_all
  | cons b s ih =>
    cases t with
    | nil => simp at hl
    | cons c t =>
      have hl' : s.length = t.length := by simpa using hl
      rw [valOf_cons, valOf_cons, hl'] at hv
      have hs := valOf_lt s
      have ht := valOf_lt t
      rw [hl'] at hs
      cases b <;> cases c <;> simp at hv
      · rw [ih hl' hv]
      · omega
      · omega
      · rw [ih hl' hv]

theorem bitsOf_valOf (s : Bits) : bitsOf (valOf s) s.length = s :=
  valOf_inj (by simp) (by rw [valOf_bitsOf, Nat.mod_eq_of_lt (valOf_lt s)])

/-! ## Bytes -/

@[simp] theorem bytesToBits_nil : bytesToBits [] = [] := rfl

theorem bytesToBits_cons (b : Byte) (y : List Byte) : bytesToBits (b :: y) = bitsOf b.toNat 8 ++ bytesToBits y := by
  simp [bytesToBits]

theorem bytesToBits_append (x y : List Byte) : bytesToBits (x ++ y) = bytesToBits x ++ bytesToBits y := by
  simp [bytesToBits]

@[simp] theorem bytesToBits_length (y : List Byte) : (bytesToBits y).length = 8 * y.length := by
  induction y with
  | nil => rfl
  | cons b y ih => rw [bytesToBits_cons]; simp [ih]; omega

@[simp] theorem bitsToBytes_length (s : Bits) : (bitsToBytes s).length = s.length / 8 := by simp [bitsToBytes]

theorem bitsToBytes_append (s t : Bits) (hs : s.length = 8) :
    bitsToBytes (s ++ t) = BitVec.ofNat 8 (valOf s) :: bitsToBytes t := by
  refine List.ext_getElem? fun a => ?_
  rcases a with _ | a
  · simp [bitsToBytes, hs]
  · rcases Nat.lt_or_ge a (t.length / 8) with h | h
    · have hd : (s ++ t).drop (8 * (a + 1)) = t.drop (8 * a) := by
        rw [List.drop_append, List.drop_of_length_le (by omega), List.nil_append]
        congr 1
        omega
      simp [bitsToBytes, hs, h, hd]
    · simp [bitsToBytes, hs, h]

@[simp] theorem bitsToBytes_bytesToBits (y : List Byte) : bitsToBytes (bytesToBits y) = y := by
  induction y with
  | nil => rfl
  | cons b y ih =>
    rw [bytesToBits_cons, bitsToBytes_append _ _ (by simp), ih, valOf_bitsOf]
    congr 1
    apply BitVec.eq_of_toNat_eq
    simp [b.isLt]

theorem bytesToBits_bitsToBytes (s : Bits) (h : s.length % 8 = 0) : bytesToBits (bitsToBytes s) = s := by
  obtain ⟨n, hn⟩ : ∃ n, s.length = 8 * n := ⟨s.length / 8, by omega⟩
  induction n generalizing s with
  | zero => simp [List.length_eq_zero_iff.mp (by omega : s.length = 0), bitsToBytes]
  | succ n ih =>
    have h8 : (s.take 8).length = 8 := by simp; omega
    rw [← List.take_append_drop 8 s, bitsToBytes_append _ _ h8, bytesToBits_cons, ih (s.drop 8) (by simp; omega) (by simp; omega)]
    congr 1
    have hlt := valOf_lt (s.take 8)
    rw [h8] at hlt
    rw [BitVec.toNat_ofNat, Nat.mod_eq_of_lt hlt]
    conv_rhs => rw [← bitsOf_valOf (s.take 8), h8]

theorem tailLength_lt (n : Nat) : tailLength n < 8 := by simp only [tailLength]; omega

theorem add_tailLength_mod (n : Nat) : (n + tailLength n) % 8 = 0 := by simp only [tailLength]; omega

theorem add_tailLength_div (n : Nat) : (n + tailLength n) / 8 = byteCount n := by simp only [tailLength, byteCount]; omega

/-! ## Bit order -/

@[simp] theorem inOrder_length (o : BitOrder) (s : Bits) : (inOrder o s).length = s.length := by cases o <;> simp [inOrder]

/-- R61: applying a bit order twice gives the string back. -/
@[simp] theorem inOrder_inOrder (o : BitOrder) (s : Bits) : inOrder o (inOrder o s) = s := by cases o <;> simp [inOrder]

@[simp] theorem inOrder_replicate (o : BitOrder) (n : Nat) (b : Bool) :
    inOrder o (List.replicate n b) = List.replicate n b := by cases o <;> simp [inOrder]

/-! ## The buffer primitives -/

@[simp] theorem memRead_length (buf : Bits) (p n : Nat) (h : p + n ≤ buf.length) : (memRead buf p n).length = n := by
  simp [memRead]; omega

/-- R57: at the end of the buffer MemWrite appends. -/
theorem memWrite_end (buf s : Bits) : memWrite buf buf.length s = buf ++ s := by simp [memWrite]

/-- What `write_bits` does when CUR is the buffer's length (R29, R57). -/
theorem writeBits_end (b : Bits) (o : BitOrder) (s : State) (h : s.wbits.length = s.cur) :
    writeBits b o s = { s with wbits := s.wbits ++ inOrder o b, cur := s.cur + b.length } := by
  simp [writeBits, ← h, memWrite_end]

/-- Everything `read_bits` can answer (R58). -/
theorem readBits_cases (n : Nat) (o : BitOrder) (s : State) :
    (s.totalBits < s.cur + n ∧ readBits n o s = none) ∨
    (s.cur + n ≤ s.totalBits ∧
      readBits n o s = some (inOrder o (memRead s.rbits s.cur n), { s with cur := s.cur + n })) := by
  unfold readBits
  split
  · exact .inl ⟨‹_›, rfl⟩
  · exact .inr ⟨by omega, rfl⟩

end Sys2Proof.Machine
end

