-- ==== Sys2Proof/Laws/Decode.lean ====
section
/-! SUPPORT. Laws of the scanner and the compiler (R82, R111): what a group consumes, and the compiler's loop as an
equation without fuel. -/

namespace Sys2Proof

theorem digitRun_length_le (acc : Nat) (text : List Byte) : (digitRun acc text).2.length ≤ text.length := by
  induction text generalizing acc with
  | nil => simp [digitRun]
  | cons c cs ih =>
    rw [digitRun]
    split
    · exact (ih _).trans (by simp)
    · simp

theorem digitRun_suffix (acc : Nat) (text : List Byte) : (digitRun acc text).2 <:+ text := by
  induction text generalizing acc with
  | nil => simp [digitRun]
  | cons c cs ih =>
    rw [digitRun]
    split
    · exact (ih _).trans (List.suffix_cons c cs)
    · exact List.suffix_refl _

/-- Everything a plain group can be (R82): a letter, a digit run that begins with a digit, and the text after it. -/
theorem plainGroupAt_eq_some {text : List Byte} {k : Byte} {w : Nat} {after : List Byte}
    (h : plainGroupAt text = some (k, w, after)) :
    ∃ d rest, text = k :: d :: rest ∧ isLetter k = true ∧ isDigit d = true ∧ digitRun 0 (d :: rest) = (w, after) := by
  match text, h with
  | c :: d :: rest, h =>
    simp only [plainGroupAt] at h
    split at h
    · rename_i hc
      simp only [Option.some.injEq, Prod.mk.injEq] at h
      obtain ⟨rfl, h1, h2⟩ := h
      simp only [Bool.and_eq_true] at hc
      exact ⟨d, rest, rfl, hc.1, hc.2, Prod.ext h1 h2⟩
    · cases h

theorem plainGroupAt_suffix {text : List Byte} {k : Byte} {w : Nat} {after : List Byte}
    (h : plainGroupAt text = some (k, w, after)) : after <:+ text ∧ after.length + 2 ≤ text.length := by
  obtain ⟨d, rest, rfl, -, hd, hr⟩ := plainGroupAt_eq_some h
  rw [digitRun, if_pos hd] at hr
  have hs := digitRun_suffix (10 * 0 + digit d) rest
  have hl := digitRun_length_le (10 * 0 + digit d) rest
  rw [hr] at hs hl
  exact ⟨hs.trans ((List.suffix_cons _ _).trans (List.suffix_cons _ _)), by simpa using hl⟩

/-- Everything a group with its optional prefix can be (R81, R82). -/
theorem groupAt_eq_some {prev : BitOrder} {text : List Byte} {f : FieldSpec} {after : List Byte}
    (h : groupAt prev text = some (f, after)) :
    ∃ c cs, text = c :: cs ∧
      ((∃ o, orderOfChar c = some o ∧ f.order = o ∧ plainGroupAt cs = some (f.kind, f.width, after)) ∨
       (orderOfChar c = none ∧ f.order = prev ∧ plainGroupAt (c :: cs) = some (f.kind, f.width, after))) := by
  match text, h with
  | c :: cs, h =>
    refine ⟨c, cs, rfl, ?_⟩
    simp only [groupAt] at h
    split at h
    · rename_i o ho
      obtain ⟨⟨k, w, a⟩, hp, he⟩ := Option.map_eq_some_iff.mp h
      simp only [Prod.mk.injEq] at he
      obtain ⟨rfl, rfl⟩ := he
      exact .inl ⟨o, ho, rfl, hp⟩
    · rename_i ho
      obtain ⟨⟨k, w, a⟩, hp, he⟩ := Option.map_eq_some_iff.mp h
      simp only [Prod.mk.injEq] at he
      obtain ⟨rfl, rfl⟩ := he
      exact .inr ⟨ho, rfl, hp⟩

theorem groupAt_length {prev : BitOrder} {text : List Byte} {f : FieldSpec} {after : List Byte}
    (h : groupAt prev text = some (f, after)) : after.length < text.length := by
  obtain ⟨c, cs, rfl, ⟨o, -, -, hp⟩ | ⟨-, -, hp⟩⟩ := groupAt_eq_some h
  all_goals
    have := (plainGroupAt_suffix hp).2
    simp only [List.length_cons] at *
    omega

/-- The loop's result does not depend on the fuel once that is the text's length. -/
theorem compileLoop_fuel {fuel : Nat} (prev : BitOrder) (text : List Byte) (h : text.length ≤ fuel) :
    compileLoop fuel prev text = compileLoop text.length prev text := by
  induction fuel using Nat.strong_induction_on generalizing prev text with
  | _ fuel ih =>
    match fuel, text, h with
    | 0, [], _ => rfl
    | _ + 1, [], _ => rfl
    | m + 1, c :: cs, h =>
      simp only [List.length_cons, compileLoop] at h ⊢
      cases hg : groupAt prev (c :: cs) with
      | none => simp only; exact ih m (by omega) prev cs (by omega)
      | some p =>
        obtain ⟨f, after⟩ := p
        have hl := groupAt_length hg
        simp only [List.length_cons] at hl
        simp only
        rw [ih m (by omega) f.order after (by omega)]
        rcases Nat.lt_or_ge cs.length (m + 1) with hlt | hge
        · rw [ih cs.length hlt f.order after (by omega)]
        · omega

@[simp] theorem compileFrom_nil (prev : BitOrder) : compileFrom prev [] = [] := rfl

/-- One turn of R111's loop where a group starts. -/
theorem compileFrom_group {prev : BitOrder} {text : List Byte} {f : FieldSpec} {after : List Byte}
    (h : groupAt prev text = some (f, after)) : compileFrom prev text = f :: compileFrom f.order after := by
  obtain ⟨c, cs, rfl, -⟩ := groupAt_eq_some h
  have hl := groupAt_length h
  simp only [List.length_cons] at hl
  simp only [compileFrom, List.length_cons, compileLoop, h]
  rw [compileLoop_fuel _ _ (by omega)]

/-- One turn of R111's loop where no group starts (R86). -/
theorem compileFrom_skip {prev : BitOrder} {c : Byte} {cs : List Byte} (h : groupAt prev (c :: cs) = none) :
    compileFrom prev (c :: cs) = compileFrom prev cs := by
  simp only [compileFrom, List.length_cons, compileLoop, h]

theorem isLetter_not_order {c : Byte} (h : isLetter c = true) : orderOfChar c = none := by
  revert h
  revert c
  decide

/-- A plain group is a group that takes the order before it (R89). -/
theorem groupAt_of_plain {prev : BitOrder} {text : List Byte} {k : Byte} {w : Nat} {after : List Byte}
    (h : plainGroupAt text = some (k, w, after)) : groupAt prev text = some (⟨k, w, prev⟩, after) := by
  obtain ⟨d, rest, rfl, hk, -, -⟩ := plainGroupAt_eq_some h
  simp [groupAt, isLetter_not_order hk, h]

/-- R111's turn on a prefix, taken in two: the order first, the group after it (log 13). -/
theorem compileFrom_order {prev o : BitOrder} {c : Byte} {cs : List Byte} {g : Byte × Nat × List Byte}
    (ho : orderOfChar c = some o) (hg : plainGroupAt cs = some g) :
    compileFrom prev (c :: cs) = compileFrom o cs := by
  obtain ⟨k, w, after⟩ := g
  rw [compileFrom_group (f := ⟨k, w, o⟩) (after := after) (by simp [groupAt, ho, hg]),
    compileFrom_group (groupAt_of_plain hg)]

end Sys2Proof
end

