-- ==== Sys2Proof/Laws/State.lean ====
section
/-! SUPPORT. What each named update of State does to each field, true by rfl, so that no proof unfolds a record
update. -/

namespace Sys2Proof.Machine

@[simp] theorem advance_resetIn (s : State) : (advance s).resetIn = s.resetIn := rfl
@[simp] theorem advance_port (s : State) : (advance s).port = s.port := rfl
@[simp] theorem advance_params (s : State) : (advance s).params = s.params := rfl
@[simp] theorem advance_phase (s : State) : (advance s).phase = s.phase := rfl
@[simp] theorem advance_stage (s : State) : (advance s).stage = s.stage := rfl
@[simp] theorem advance_op (s : State) : (advance s).op = s.op := rfl
@[simp] theorem advance_fmt (s : State) : (advance s).fmt = s.fmt := rfl
@[simp] theorem advance_val (s : State) : (advance s).val = s.val := rfl
@[simp] theorem advance_data (s : State) : (advance s).data = s.data := rfl
@[simp] theorem advance_groups (s : State) : (advance s).groups = s.groups := rfl
@[simp] theorem advance_offset (s : State) : (advance s).offset = s.offset := rfl
@[simp] theorem advance_spec (s : State) : (advance s).spec = s.spec := rfl
@[simp] theorem advance_si (s : State) : (advance s).si = s.si := rfl
@[simp] theorem advance_prev (s : State) : (advance s).prev = s.prev := rfl
@[simp] theorem advance_fi (s : State) : (advance s).fi = s.fi + 1 := rfl
@[simp] theorem advance_vi (s : State) : (advance s).vi = s.vi := rfl
@[simp] theorem advance_cur (s : State) : (advance s).cur = s.cur := rfl
@[simp] theorem advance_wbits (s : State) : (advance s).wbits = s.wbits := rfl
@[simp] theorem advance_rbits (s : State) : (advance s).rbits = s.rbits := rfl
@[simp] theorem advance_outv (s : State) : (advance s).outv = s.outv := rfl
@[simp] theorem advance_gi (s : State) : (advance s).gi = s.gi := rfl
@[simp] theorem advance_bi (s : State) : (advance s).bi = s.bi := rfl
@[simp] theorem advance_out (s : State) : (advance s).out = s.out := rfl
@[simp] theorem advance_response (s : State) : (advance s).response = s.response := rfl
@[simp] theorem advance_cache (s : State) : (advance s).cache = s.cache := rfl

@[simp] theorem writeBits_resetIn (b : Bits) (o : BitOrder) (s : State) : (writeBits b o s).resetIn = s.resetIn := rfl
@[simp] theorem writeBits_port (b : Bits) (o : BitOrder) (s : State) : (writeBits b o s).port = s.port := rfl
@[simp] theorem writeBits_params (b : Bits) (o : BitOrder) (s : State) : (writeBits b o s).params = s.params := rfl
@[simp] theorem writeBits_phase (b : Bits) (o : BitOrder) (s : State) : (writeBits b o s).phase = s.phase := rfl
@[simp] theorem writeBits_stage (b : Bits) (o : BitOrder) (s : State) : (writeBits b o s).stage = s.stage := rfl
@[simp] theorem writeBits_op (b : Bits) (o : BitOrder) (s : State) : (writeBits b o s).op = s.op := rfl
@[simp] theorem writeBits_fmt (b : Bits) (o : BitOrder) (s : State) : (writeBits b o s).fmt = s.fmt := rfl
@[simp] theorem writeBits_val (b : Bits) (o : BitOrder) (s : State) : (writeBits b o s).val = s.val := rfl
@[simp] theorem writeBits_data (b : Bits) (o : BitOrder) (s : State) : (writeBits b o s).data = s.data := rfl
@[simp] theorem writeBits_groups (b : Bits) (o : BitOrder) (s : State) : (writeBits b o s).groups = s.groups := rfl
@[simp] theorem writeBits_offset (b : Bits) (o : BitOrder) (s : State) : (writeBits b o s).offset = s.offset := rfl
@[simp] theorem writeBits_spec (b : Bits) (o : BitOrder) (s : State) : (writeBits b o s).spec = s.spec := rfl
@[simp] theorem writeBits_si (b : Bits) (o : BitOrder) (s : State) : (writeBits b o s).si = s.si := rfl
@[simp] theorem writeBits_prev (b : Bits) (o : BitOrder) (s : State) : (writeBits b o s).prev = s.prev := rfl
@[simp] theorem writeBits_fi (b : Bits) (o : BitOrder) (s : State) : (writeBits b o s).fi = s.fi := rfl
@[simp] theorem writeBits_vi (b : Bits) (o : BitOrder) (s : State) : (writeBits b o s).vi = s.vi := rfl
@[simp] theorem writeBits_cur (b : Bits) (o : BitOrder) (s : State) : (writeBits b o s).cur = s.cur + b.length := rfl
@[simp] theorem writeBits_wbits (b : Bits) (o : BitOrder) (s : State) : (writeBits b o s).wbits = memWrite s.wbits s.cur (inOrder o b) := rfl
@[simp] theorem writeBits_rbits (b : Bits) (o : BitOrder) (s : State) : (writeBits b o s).rbits = s.rbits := rfl
@[simp] theorem writeBits_outv (b : Bits) (o : BitOrder) (s : State) : (writeBits b o s).outv = s.outv := rfl
@[simp] theorem writeBits_gi (b : Bits) (o : BitOrder) (s : State) : (writeBits b o s).gi = s.gi := rfl
@[simp] theorem writeBits_bi (b : Bits) (o : BitOrder) (s : State) : (writeBits b o s).bi = s.bi := rfl
@[simp] theorem writeBits_out (b : Bits) (o : BitOrder) (s : State) : (writeBits b o s).out = s.out := rfl
@[simp] theorem writeBits_response (b : Bits) (o : BitOrder) (s : State) : (writeBits b o s).response = s.response := rfl
@[simp] theorem writeBits_cache (b : Bits) (o : BitOrder) (s : State) : (writeBits b o s).cache = s.cache := rfl

@[simp] theorem fromBytes_resetIn (y : List Byte) (s : State) : (fromBytes y s).resetIn = s.resetIn := rfl
@[simp] theorem fromBytes_port (y : List Byte) (s : State) : (fromBytes y s).port = s.port := rfl
@[simp] theorem fromBytes_params (y : List Byte) (s : State) : (fromBytes y s).params = s.params := rfl
@[simp] theorem fromBytes_phase (y : List Byte) (s : State) : (fromBytes y s).phase = s.phase := rfl
@[simp] theorem fromBytes_stage (y : List Byte) (s : State) : (fromBytes y s).stage = s.stage := rfl
@[simp] theorem fromBytes_op (y : List Byte) (s : State) : (fromBytes y s).op = s.op := rfl
@[simp] theorem fromBytes_fmt (y : List Byte) (s : State) : (fromBytes y s).fmt = s.fmt := rfl
@[simp] theorem fromBytes_val (y : List Byte) (s : State) : (fromBytes y s).val = s.val := rfl
@[simp] theorem fromBytes_data (y : List Byte) (s : State) : (fromBytes y s).data = s.data := rfl
@[simp] theorem fromBytes_groups (y : List Byte) (s : State) : (fromBytes y s).groups = s.groups := rfl
@[simp] theorem fromBytes_offset (y : List Byte) (s : State) : (fromBytes y s).offset = s.offset := rfl
@[simp] theorem fromBytes_spec (y : List Byte) (s : State) : (fromBytes y s).spec = s.spec := rfl
@[simp] theorem fromBytes_si (y : List Byte) (s : State) : (fromBytes y s).si = s.si := rfl
@[simp] theorem fromBytes_prev (y : List Byte) (s : State) : (fromBytes y s).prev = s.prev := rfl
@[simp] theorem fromBytes_fi (y : List Byte) (s : State) : (fromBytes y s).fi = s.fi := rfl
@[simp] theorem fromBytes_vi (y : List Byte) (s : State) : (fromBytes y s).vi = s.vi := rfl
@[simp] theorem fromBytes_cur (y : List Byte) (s : State) : (fromBytes y s).cur = 0 := rfl
@[simp] theorem fromBytes_wbits (y : List Byte) (s : State) : (fromBytes y s).wbits = s.wbits := rfl
@[simp] theorem fromBytes_rbits (y : List Byte) (s : State) : (fromBytes y s).rbits = bytesToBits y := rfl
@[simp] theorem fromBytes_outv (y : List Byte) (s : State) : (fromBytes y s).outv = s.outv := rfl
@[simp] theorem fromBytes_gi (y : List Byte) (s : State) : (fromBytes y s).gi = s.gi := rfl
@[simp] theorem fromBytes_bi (y : List Byte) (s : State) : (fromBytes y s).bi = s.bi := rfl
@[simp] theorem fromBytes_out (y : List Byte) (s : State) : (fromBytes y s).out = s.out := rfl
@[simp] theorem fromBytes_response (y : List Byte) (s : State) : (fromBytes y s).response = s.response := rfl
@[simp] theorem fromBytes_cache (y : List Byte) (s : State) : (fromBytes y s).cache = s.cache := rfl

@[simp] theorem compileGroup_resetIn (k : Byte) (w n : Nat) (s : State) : (compileGroup k w n s).resetIn = s.resetIn := rfl
@[simp] theorem compileGroup_port (k : Byte) (w n : Nat) (s : State) : (compileGroup k w n s).port = s.port := rfl
@[simp] theorem compileGroup_params (k : Byte) (w n : Nat) (s : State) : (compileGroup k w n s).params = s.params := rfl
@[simp] theorem compileGroup_phase (k : Byte) (w n : Nat) (s : State) : (compileGroup k w n s).phase = s.phase := rfl
@[simp] theorem compileGroup_stage (k : Byte) (w n : Nat) (s : State) : (compileGroup k w n s).stage = s.stage := rfl
@[simp] theorem compileGroup_op (k : Byte) (w n : Nat) (s : State) : (compileGroup k w n s).op = s.op := rfl
@[simp] theorem compileGroup_fmt (k : Byte) (w n : Nat) (s : State) : (compileGroup k w n s).fmt = s.fmt := rfl
@[simp] theorem compileGroup_val (k : Byte) (w n : Nat) (s : State) : (compileGroup k w n s).val = s.val := rfl
@[simp] theorem compileGroup_data (k : Byte) (w n : Nat) (s : State) : (compileGroup k w n s).data = s.data := rfl
@[simp] theorem compileGroup_groups (k : Byte) (w n : Nat) (s : State) : (compileGroup k w n s).groups = s.groups := rfl
@[simp] theorem compileGroup_offset (k : Byte) (w n : Nat) (s : State) : (compileGroup k w n s).offset = s.offset := rfl
@[simp] theorem compileGroup_spec (k : Byte) (w n : Nat) (s : State) : (compileGroup k w n s).spec = s.spec ++ [⟨k, w, s.prev⟩] := rfl
@[simp] theorem compileGroup_si (k : Byte) (w n : Nat) (s : State) : (compileGroup k w n s).si = s.si + n := rfl
@[simp] theorem compileGroup_prev (k : Byte) (w n : Nat) (s : State) : (compileGroup k w n s).prev = s.prev := rfl
@[simp] theorem compileGroup_fi (k : Byte) (w n : Nat) (s : State) : (compileGroup k w n s).fi = s.fi := rfl
@[simp] theorem compileGroup_vi (k : Byte) (w n : Nat) (s : State) : (compileGroup k w n s).vi = s.vi := rfl
@[simp] theorem compileGroup_cur (k : Byte) (w n : Nat) (s : State) : (compileGroup k w n s).cur = s.cur := rfl
@[simp] theorem compileGroup_wbits (k : Byte) (w n : Nat) (s : State) : (compileGroup k w n s).wbits = s.wbits := rfl
@[simp] theorem compileGroup_rbits (k : Byte) (w n : Nat) (s : State) : (compileGroup k w n s).rbits = s.rbits := rfl
@[simp] theorem compileGroup_outv (k : Byte) (w n : Nat) (s : State) : (compileGroup k w n s).outv = s.outv := rfl
@[simp] theorem compileGroup_gi (k : Byte) (w n : Nat) (s : State) : (compileGroup k w n s).gi = s.gi := rfl
@[simp] theorem compileGroup_bi (k : Byte) (w n : Nat) (s : State) : (compileGroup k w n s).bi = s.bi := rfl
@[simp] theorem compileGroup_out (k : Byte) (w n : Nat) (s : State) : (compileGroup k w n s).out = s.out := rfl
@[simp] theorem compileGroup_response (k : Byte) (w n : Nat) (s : State) : (compileGroup k w n s).response = s.response := rfl
@[simp] theorem compileGroup_cache (k : Byte) (w n : Nat) (s : State) : (compileGroup k w n s).cache = s.cache := rfl

@[simp] theorem endCall_resetIn (r : Response) (s : State) : (endCall r s).resetIn = s.resetIn := rfl
@[simp] theorem endCall_port (r : Response) (s : State) : (endCall r s).port = s.port := rfl
@[simp] theorem endCall_params (r : Response) (s : State) : (endCall r s).params = s.params := rfl
@[simp] theorem endCall_phase (r : Response) (s : State) : (endCall r s).phase = .idle := rfl
@[simp] theorem endCall_stage (r : Response) (s : State) : (endCall r s).stage = .compile := rfl
@[simp] theorem endCall_op (r : Response) (s : State) : (endCall r s).op = .pack := rfl
@[simp] theorem endCall_fmt (r : Response) (s : State) : (endCall r s).fmt = [] := rfl
@[simp] theorem endCall_val (r : Response) (s : State) : (endCall r s).val = [] := rfl
@[simp] theorem endCall_data (r : Response) (s : State) : (endCall r s).data = [] := rfl
@[simp] theorem endCall_groups (r : Response) (s : State) : (endCall r s).groups = [] := rfl
@[simp] theorem endCall_offset (r : Response) (s : State) : (endCall r s).offset = 0 := rfl
@[simp] theorem endCall_spec (r : Response) (s : State) : (endCall r s).spec = [] := rfl
@[simp] theorem endCall_si (r : Response) (s : State) : (endCall r s).si = 0 := rfl
@[simp] theorem endCall_prev (r : Response) (s : State) : (endCall r s).prev = .msbFirst := rfl
@[simp] theorem endCall_fi (r : Response) (s : State) : (endCall r s).fi = 0 := rfl
@[simp] theorem endCall_vi (r : Response) (s : State) : (endCall r s).vi = 0 := rfl
@[simp] theorem endCall_cur (r : Response) (s : State) : (endCall r s).cur = 0 := rfl
@[simp] theorem endCall_wbits (r : Response) (s : State) : (endCall r s).wbits = [] := rfl
@[simp] theorem endCall_rbits (r : Response) (s : State) : (endCall r s).rbits = [] := rfl
@[simp] theorem endCall_outv (r : Response) (s : State) : (endCall r s).outv = [] := rfl
@[simp] theorem endCall_gi (r : Response) (s : State) : (endCall r s).gi = 0 := rfl
@[simp] theorem endCall_bi (r : Response) (s : State) : (endCall r s).bi = 0 := rfl
@[simp] theorem endCall_out (r : Response) (s : State) : (endCall r s).out = [] := rfl
@[simp] theorem endCall_response (r : Response) (s : State) : (endCall r s).response = some r := rfl
@[simp] theorem endCall_cache (r : Response) (s : State) : (endCall r s).cache = s.cache := rfl

@[simp] theorem resetEvent_resetIn (s : State) : (resetEvent s).resetIn = false := rfl
@[simp] theorem resetEvent_port (s : State) : (resetEvent s).port = s.port := rfl
@[simp] theorem resetEvent_params (s : State) : (resetEvent s).params = s.params := rfl
@[simp] theorem resetEvent_phase (s : State) : (resetEvent s).phase = .idle := rfl
@[simp] theorem resetEvent_stage (s : State) : (resetEvent s).stage = .compile := rfl
@[simp] theorem resetEvent_op (s : State) : (resetEvent s).op = .pack := rfl
@[simp] theorem resetEvent_fmt (s : State) : (resetEvent s).fmt = [] := rfl
@[simp] theorem resetEvent_val (s : State) : (resetEvent s).val = [] := rfl
@[simp] theorem resetEvent_data (s : State) : (resetEvent s).data = [] := rfl
@[simp] theorem resetEvent_groups (s : State) : (resetEvent s).groups = [] := rfl
@[simp] theorem resetEvent_offset (s : State) : (resetEvent s).offset = 0 := rfl
@[simp] theorem resetEvent_spec (s : State) : (resetEvent s).spec = [] := rfl
@[simp] theorem resetEvent_si (s : State) : (resetEvent s).si = 0 := rfl
@[simp] theorem resetEvent_prev (s : State) : (resetEvent s).prev = .msbFirst := rfl
@[simp] theorem resetEvent_fi (s : State) : (resetEvent s).fi = 0 := rfl
@[simp] theorem resetEvent_vi (s : State) : (resetEvent s).vi = 0 := rfl
@[simp] theorem resetEvent_cur (s : State) : (resetEvent s).cur = 0 := rfl
@[simp] theorem resetEvent_wbits (s : State) : (resetEvent s).wbits = [] := rfl
@[simp] theorem resetEvent_rbits (s : State) : (resetEvent s).rbits = [] := rfl
@[simp] theorem resetEvent_outv (s : State) : (resetEvent s).outv = [] := rfl
@[simp] theorem resetEvent_gi (s : State) : (resetEvent s).gi = 0 := rfl
@[simp] theorem resetEvent_bi (s : State) : (resetEvent s).bi = 0 := rfl
@[simp] theorem resetEvent_out (s : State) : (resetEvent s).out = [] := rfl
@[simp] theorem resetEvent_response (s : State) : (resetEvent s).response = none := rfl
@[simp] theorem resetEvent_cache (s : State) : (resetEvent s).cache = [] := rfl

@[simp] theorem latch_resetIn (c : Command) (rest : List Command) (s : State) : (latch c rest s).resetIn = s.resetIn := rfl
@[simp] theorem latch_port (c : Command) (rest : List Command) (s : State) : (latch c rest s).port = rest := rfl
@[simp] theorem latch_params (c : Command) (rest : List Command) (s : State) : (latch c rest s).params = s.params := rfl
@[simp] theorem latch_phase (c : Command) (rest : List Command) (s : State) : (latch c rest s).phase = .busy := rfl
@[simp] theorem latch_stage (c : Command) (rest : List Command) (s : State) : (latch c rest s).stage = .compile := rfl
@[simp] theorem latch_op (c : Command) (rest : List Command) (s : State) : (latch c rest s).op = Op.ofCode c.op := rfl
@[simp] theorem latch_fmt (c : Command) (rest : List Command) (s : State) : (latch c rest s).fmt = c.fmt := rfl
@[simp] theorem latch_val (c : Command) (rest : List Command) (s : State) : (latch c rest s).val = c.val := rfl
@[simp] theorem latch_data (c : Command) (rest : List Command) (s : State) : (latch c rest s).data = c.data := rfl
@[simp] theorem latch_groups (c : Command) (rest : List Command) (s : State) : (latch c rest s).groups = c.groups := rfl
@[simp] theorem latch_offset (c : Command) (rest : List Command) (s : State) : (latch c rest s).offset = c.offset := rfl
@[simp] theorem latch_spec (c : Command) (rest : List Command) (s : State) : (latch c rest s).spec = [] := rfl
@[simp] theorem latch_si (c : Command) (rest : List Command) (s : State) : (latch c rest s).si = 0 := rfl
@[simp] theorem latch_prev (c : Command) (rest : List Command) (s : State) : (latch c rest s).prev = .msbFirst := rfl
@[simp] theorem latch_fi (c : Command) (rest : List Command) (s : State) : (latch c rest s).fi = 0 := rfl
@[simp] theorem latch_vi (c : Command) (rest : List Command) (s : State) : (latch c rest s).vi = 0 := rfl
@[simp] theorem latch_cur (c : Command) (rest : List Command) (s : State) : (latch c rest s).cur = 0 := rfl
@[simp] theorem latch_wbits (c : Command) (rest : List Command) (s : State) : (latch c rest s).wbits = [] := rfl
@[simp] theorem latch_rbits (c : Command) (rest : List Command) (s : State) : (latch c rest s).rbits = [] := rfl
@[simp] theorem latch_outv (c : Command) (rest : List Command) (s : State) : (latch c rest s).outv = [] := rfl
@[simp] theorem latch_gi (c : Command) (rest : List Command) (s : State) : (latch c rest s).gi = 0 := rfl
@[simp] theorem latch_bi (c : Command) (rest : List Command) (s : State) : (latch c rest s).bi = 0 := rfl
@[simp] theorem latch_out (c : Command) (rest : List Command) (s : State) : (latch c rest s).out = [] := rfl
@[simp] theorem latch_response (c : Command) (rest : List Command) (s : State) : (latch c rest s).response = none := rfl
@[simp] theorem latch_cache (c : Command) (rest : List Command) (s : State) : (latch c rest s).cache = s.cache := rfl

@[simp] theorem betweenCalls_resetIn (s : State) : (betweenCalls s).resetIn = s.resetIn := rfl
@[simp] theorem betweenCalls_port (s : State) : (betweenCalls s).port = s.port := rfl
@[simp] theorem betweenCalls_params (s : State) : (betweenCalls s).params = s.params := rfl
@[simp] theorem betweenCalls_phase (s : State) : (betweenCalls s).phase = .idle := rfl
@[simp] theorem betweenCalls_stage (s : State) : (betweenCalls s).stage = .compile := rfl
@[simp] theorem betweenCalls_op (s : State) : (betweenCalls s).op = .pack := rfl
@[simp] theorem betweenCalls_fmt (s : State) : (betweenCalls s).fmt = [] := rfl
@[simp] theorem betweenCalls_val (s : State) : (betweenCalls s).val = [] := rfl
@[simp] theorem betweenCalls_data (s : State) : (betweenCalls s).data = [] := rfl
@[simp] theorem betweenCalls_groups (s : State) : (betweenCalls s).groups = [] := rfl
@[simp] theorem betweenCalls_offset (s : State) : (betweenCalls s).offset = 0 := rfl
@[simp] theorem betweenCalls_spec (s : State) : (betweenCalls s).spec = [] := rfl
@[simp] theorem betweenCalls_si (s : State) : (betweenCalls s).si = 0 := rfl
@[simp] theorem betweenCalls_prev (s : State) : (betweenCalls s).prev = .msbFirst := rfl
@[simp] theorem betweenCalls_fi (s : State) : (betweenCalls s).fi = 0 := rfl
@[simp] theorem betweenCalls_vi (s : State) : (betweenCalls s).vi = 0 := rfl
@[simp] theorem betweenCalls_cur (s : State) : (betweenCalls s).cur = 0 := rfl
@[simp] theorem betweenCalls_wbits (s : State) : (betweenCalls s).wbits = [] := rfl
@[simp] theorem betweenCalls_rbits (s : State) : (betweenCalls s).rbits = [] := rfl
@[simp] theorem betweenCalls_outv (s : State) : (betweenCalls s).outv = [] := rfl
@[simp] theorem betweenCalls_gi (s : State) : (betweenCalls s).gi = 0 := rfl
@[simp] theorem betweenCalls_bi (s : State) : (betweenCalls s).bi = 0 := rfl
@[simp] theorem betweenCalls_out (s : State) : (betweenCalls s).out = [] := rfl
@[simp] theorem betweenCalls_response (s : State) : (betweenCalls s).response = s.response := rfl
@[simp] theorem betweenCalls_cache (s : State) : (betweenCalls s).cache = s.cache := rfl

end Sys2Proof.Machine
end

