-- ==== Sys2Proof/Laws/Ops.lean ====
section
/-! SUPPORT. For each shared operation, one lemma that says everything it can answer. -/

namespace Sys2Proof.Machine

/-- The PACK step of a value-carrying field answers a raise, the completed step, or the fault of an empty VAL. -/
theorem packField_cases (k : Kind) (w : Nat) (o : BitOrder) (enc : Value → Except ErrorKind Bits) (s : State) :
    (legalWidth k w = false ∧ packField k w o enc s = raise .formatError s) ∨
    (legalWidth k w = true ∧ s.val[s.vi]? = none ∧ packField k w o enc s = .fault .noValueLeft) ∨
    (∃ v e, legalWidth k w = true ∧ s.val[s.vi]? = some v ∧ enc v = .error e ∧ packField k w o enc s = raise e s) ∨
    (∃ v b, legalWidth k w = true ∧ s.val[s.vi]? = some v ∧ enc v = .ok b ∧
      packField k w o enc s = .next (advance (writeBits b o { s with vi := s.vi + 1 }))) := by
  unfold packField
  cases hw : legalWidth k w
  · simp
  · cases hv : s.val[s.vi]? with
    | none => simp
    | some v => cases he : enc v <;> simp [he]

/-- The UNPACK step of a value-carrying field answers a raise or the completed step. -/
theorem unpackField_cases (k : Kind) (w : Nat) (o : BitOrder) (dec : Bits → Except ErrorKind Value) (s : State) :
    (legalWidth k w = false ∧ unpackField k w o dec s = raise .formatError s) ∨
    (legalWidth k w = true ∧ s.totalBits < s.cur + w ∧ unpackField k w o dec s = raise .insufficientInput s) ∨
    (∃ e, legalWidth k w = true ∧ s.cur + w ≤ s.totalBits ∧
      dec (inOrder o (memRead s.rbits s.cur w)) = .error e ∧ unpackField k w o dec s = raise e s) ∨
    (∃ v, legalWidth k w = true ∧ s.cur + w ≤ s.totalBits ∧
      dec (inOrder o (memRead s.rbits s.cur w)) = .ok v ∧
      unpackField k w o dec s = .next (advance { s with cur := s.cur + w, outv := s.outv ++ [v] })) := by
  unfold unpackField
  cases hw : legalWidth k w
  · simp
  · rcases readBits_cases w o s with ⟨hlt, hr⟩ | ⟨hle, hr⟩
    · simp [hr, hlt]
    · cases hd : dec (inOrder o (memRead s.rbits s.cur w)) <;> simp [hr, hd, hle]

/-- A turn of the group loop answers a refusal, a raise, or the swapped group (R211). -/
theorem swapGroup_cases (g : Nat) (s : State) :
    (g = 0 ∧ swapGroup g s = refuse .zeroGroup s) ∨
    (g ≠ 0 ∧ s.data.length < s.bi + g ∧ swapGroup g s = raise .insufficientInput s) ∨
    (g ≠ 0 ∧ s.bi + g ≤ s.data.length ∧
      swapGroup g s = .next
        { s with out := s.out ++ ((s.data.drop s.bi).take g).reverse, bi := s.bi + g, gi := s.gi + 1 }) := by
  unfold swapGroup
  split
  · exact .inl ⟨‹_›, rfl⟩
  · split
    · exact .inr (.inl ⟨‹_›, ‹_›, rfl⟩)
    · exact .inr (.inr ⟨‹_›, by omega, rfl⟩)

/-- The cache holds the table afterwards or is untouched; nothing else changes (R72). -/
theorem memoize_cases (s : State) :
    memoize s = s ∨ (s.params.memo = true ∧ memoize s = { s with cache := s.cache ++ [(s.fmt, s.spec)] }) := by
  unfold memoize
  split
  · rename_i h
    exact .inr ⟨by simp_all, rfl⟩
  · exact .inl rfl

/-- A table found in the cache is an entry for this format string. -/
theorem cached_some {s : State} {t : List FieldSpec} (h : cached s = some t) :
    s.params.memo = true ∧ (s.fmt, t) ∈ s.cache := by
  unfold cached at h
  split at h
  · rename_i hm
    obtain ⟨e, he, rfl⟩ := Option.map_eq_some_iff.mp h
    have hk := List.find?_some he
    have hm' := List.mem_of_find?_eq_some he
    simp only [beq_iff_eq] at hk
    exact ⟨hm, by rw [← hk]; exact hm'⟩
  · cases h

/-- How compilation begins: from the cache with nothing left to scan, or from the start of FMT. -/
theorem beginCompile_cases (s : State) :
    (∃ t, cached s = some t ∧
      beginCompile s = { s with stage := .compile, spec := t, si := s.fmt.length, prev := .msbFirst }) ∨
    (cached s = none ∧ beginCompile s = { s with stage := .compile, spec := [], si := 0, prev := .msbFirst }) := by
  unfold beginCompile
  cases h : cached s <;> simp

/-- The end of the group loop (R211, R214). -/
theorem finishSwap_cases (s : State) :
    (s.bi < s.data.length ∧ finishSwap s = refuse .longTail s) ∨
    (s.data.length ≤ s.bi ∧ finishSwap s = finish (.bytes s.out) s) := by
  unfold finishSwap
  split
  · exact .inl ⟨‹_›, rfl⟩
  · exact .inr ⟨by omega, rfl⟩

/-- PACK after compilation (R192, R193). -/
theorem startPack_cases (s : State) :
    startPack s = refuse .capacity s ∨
    (s.val.length < valueCount s.spec ∧ startPack s = raise .arityError s) ∨
    (valueCount s.spec ≤ s.val.length ∧
      startPack s = .next { s with stage := .fields, fi := 0, vi := 0, cur := 0, wbits := [] }) := by
  unfold startPack
  split
  · split
    · exact .inr (.inl ⟨‹_›, rfl⟩)
    · exact .inr (.inr ⟨by omega, rfl⟩)
  · exact .inl rfl

/-- UNPACK after compilation (R201, R203). -/
theorem startUnpack_cases (s : State) :
    (8 * s.data.length < calcsizeOf s.spec ∧ startUnpack s = raise .insufficientInput (fromBytes s.data s)) ∨
    (calcsizeOf s.spec ≤ 8 * s.data.length ∧
      startUnpack s = .next
        { s with rbits := bytesToBits s.data, cur := 0, stage := .fields, fi := 0, outv := [] }) := by
  unfold startUnpack
  simp only [State.totalBits, fromBytes_rbits, bytesToBits_length, fromBytes_spec]
  split
  · exact .inl ⟨‹_›, rfl⟩
  · exact .inr ⟨by omega, rfl⟩

/-- Raising, refusing and finishing are one operation with three kinds of response. -/
theorem raise_eq (k : ErrorKind) (s : State) : raise k s = .next (endCall (.error k) s) := rfl
theorem refuse_eq (r : Reason) (s : State) : refuse r s = .next (endCall (.refused r) s) := rfl
theorem finish_eq (p : Payload) (s : State) : finish p s = .next (endCall (.ok p) s) := rfl

end Sys2Proof.Machine
end

