-- ==== Sys2Proof/Laws/PerInstr.lean ====
section
/-! SUPPORT. Lemmas made per instruction, one per constructor of `Instr`. -/

namespace Sys2Proof.Laws

/-- A field instruction is what its own spec entry decodes to under its own direction: no operand is dropped between
SPEC and `exec`. -/
def SpecEntry.Statement (i : Instr) : Prop :=
  ∀ f, i.fieldSpec = some f → decodeField i.dir f = some i

theorem SpecEntry.uEnc (w : Nat) (o : BitOrder) : SpecEntry.Statement (.uEnc w o) := by
  rintro _ ⟨⟩; rfl

theorem SpecEntry.uDec (w : Nat) (o : BitOrder) : SpecEntry.Statement (.uDec w o) := by
  rintro _ ⟨⟩; rfl

theorem SpecEntry.sEnc (w : Nat) (o : BitOrder) : SpecEntry.Statement (.sEnc w o) := by
  rintro _ ⟨⟩; rfl

theorem SpecEntry.sDec (w : Nat) (o : BitOrder) : SpecEntry.Statement (.sDec w o) := by
  rintro _ ⟨⟩; rfl

theorem SpecEntry.fEnc (w : Nat) (o : BitOrder) : SpecEntry.Statement (.fEnc w o) := by
  rintro _ ⟨⟩; rfl

theorem SpecEntry.fDec (w : Nat) (o : BitOrder) : SpecEntry.Statement (.fDec w o) := by
  rintro _ ⟨⟩; rfl

theorem SpecEntry.bEnc (w : Nat) (o : BitOrder) : SpecEntry.Statement (.bEnc w o) := by
  rintro _ ⟨⟩; rfl

theorem SpecEntry.bDec (w : Nat) (o : BitOrder) : SpecEntry.Statement (.bDec w o) := by
  rintro _ ⟨⟩; rfl

theorem SpecEntry.tEnc (w : Nat) (o : BitOrder) : SpecEntry.Statement (.tEnc w o) := by
  rintro _ ⟨⟩; rfl

theorem SpecEntry.tDec (w : Nat) (o : BitOrder) : SpecEntry.Statement (.tDec w o) := by
  rintro _ ⟨⟩; rfl

theorem SpecEntry.rEnc (w : Nat) (o : BitOrder) : SpecEntry.Statement (.rEnc w o) := by
  rintro _ ⟨⟩; rfl

theorem SpecEntry.rDec (w : Nat) (o : BitOrder) : SpecEntry.Statement (.rDec w o) := by
  rintro _ ⟨⟩; rfl

theorem SpecEntry.pEnc (w : Nat) (o : BitOrder) : SpecEntry.Statement (.pEnc w o) := by
  rintro _ ⟨⟩; rfl

theorem SpecEntry.pDec (w : Nat) (o : BitOrder) : SpecEntry.Statement (.pDec w o) := by
  rintro _ ⟨⟩; rfl

theorem SpecEntry.illegalUpperA (w : Nat) (o : BitOrder) : SpecEntry.Statement (.illegalUpperA w o) := by
  rintro _ ⟨⟩; rfl

theorem SpecEntry.illegalUpperB (w : Nat) (o : BitOrder) : SpecEntry.Statement (.illegalUpperB w o) := by
  rintro _ ⟨⟩; rfl

theorem SpecEntry.illegalUpperC (w : Nat) (o : BitOrder) : SpecEntry.Statement (.illegalUpperC w o) := by
  rintro _ ⟨⟩; rfl

theorem SpecEntry.illegalUpperD (w : Nat) (o : BitOrder) : SpecEntry.Statement (.illegalUpperD w o) := by
  rintro _ ⟨⟩; rfl

theorem SpecEntry.illegalUpperE (w : Nat) (o : BitOrder) : SpecEntry.Statement (.illegalUpperE w o) := by
  rintro _ ⟨⟩; rfl

theorem SpecEntry.illegalUpperF (w : Nat) (o : BitOrder) : SpecEntry.Statement (.illegalUpperF w o) := by
  rintro _ ⟨⟩; rfl

theorem SpecEntry.illegalUpperG (w : Nat) (o : BitOrder) : SpecEntry.Statement (.illegalUpperG w o) := by
  rintro _ ⟨⟩; rfl

theorem SpecEntry.illegalUpperH (w : Nat) (o : BitOrder) : SpecEntry.Statement (.illegalUpperH w o) := by
  rintro _ ⟨⟩; rfl

theorem SpecEntry.illegalUpperI (w : Nat) (o : BitOrder) : SpecEntry.Statement (.illegalUpperI w o) := by
  rintro _ ⟨⟩; rfl

theorem SpecEntry.illegalUpperJ (w : Nat) (o : BitOrder) : SpecEntry.Statement (.illegalUpperJ w o) := by
  rintro _ ⟨⟩; rfl

theorem SpecEntry.illegalUpperK (w : Nat) (o : BitOrder) : SpecEntry.Statement (.illegalUpperK w o) := by
  rintro _ ⟨⟩; rfl

theorem SpecEntry.illegalUpperL (w : Nat) (o : BitOrder) : SpecEntry.Statement (.illegalUpperL w o) := by
  rintro _ ⟨⟩; rfl

theorem SpecEntry.illegalUpperM (w : Nat) (o : BitOrder) : SpecEntry.Statement (.illegalUpperM w o) := by
  rintro _ ⟨⟩; rfl

theorem SpecEntry.illegalUpperN (w : Nat) (o : BitOrder) : SpecEntry.Statement (.illegalUpperN w o) := by
  rintro _ ⟨⟩; rfl

theorem SpecEntry.illegalUpperO (w : Nat) (o : BitOrder) : SpecEntry.Statement (.illegalUpperO w o) := by
  rintro _ ⟨⟩; rfl

theorem SpecEntry.illegalUpperP (w : Nat) (o : BitOrder) : SpecEntry.Statement (.illegalUpperP w o) := by
  rintro _ ⟨⟩; rfl

theorem SpecEntry.illegalUpperQ (w : Nat) (o : BitOrder) : SpecEntry.Statement (.illegalUpperQ w o) := by
  rintro _ ⟨⟩; rfl

theorem SpecEntry.illegalUpperR (w : Nat) (o : BitOrder) : SpecEntry.Statement (.illegalUpperR w o) := by
  rintro _ ⟨⟩; rfl

theorem SpecEntry.illegalUpperS (w : Nat) (o : BitOrder) : SpecEntry.Statement (.illegalUpperS w o) := by
  rintro _ ⟨⟩; rfl

theorem SpecEntry.illegalUpperT (w : Nat) (o : BitOrder) : SpecEntry.Statement (.illegalUpperT w o) := by
  rintro _ ⟨⟩; rfl

theorem SpecEntry.illegalUpperU (w : Nat) (o : BitOrder) : SpecEntry.Statement (.illegalUpperU w o) := by
  rintro _ ⟨⟩; rfl

theorem SpecEntry.illegalUpperV (w : Nat) (o : BitOrder) : SpecEntry.Statement (.illegalUpperV w o) := by
  rintro _ ⟨⟩; rfl

theorem SpecEntry.illegalUpperW (w : Nat) (o : BitOrder) : SpecEntry.Statement (.illegalUpperW w o) := by
  rintro _ ⟨⟩; rfl

theorem SpecEntry.illegalUpperX (w : Nat) (o : BitOrder) : SpecEntry.Statement (.illegalUpperX w o) := by
  rintro _ ⟨⟩; rfl

theorem SpecEntry.illegalUpperY (w : Nat) (o : BitOrder) : SpecEntry.Statement (.illegalUpperY w o) := by
  rintro _ ⟨⟩; rfl

theorem SpecEntry.illegalUpperZ (w : Nat) (o : BitOrder) : SpecEntry.Statement (.illegalUpperZ w o) := by
  rintro _ ⟨⟩; rfl

theorem SpecEntry.illegalLowerA (w : Nat) (o : BitOrder) : SpecEntry.Statement (.illegalLowerA w o) := by
  rintro _ ⟨⟩; rfl

theorem SpecEntry.illegalLowerC (w : Nat) (o : BitOrder) : SpecEntry.Statement (.illegalLowerC w o) := by
  rintro _ ⟨⟩; rfl

theorem SpecEntry.illegalLowerD (w : Nat) (o : BitOrder) : SpecEntry.Statement (.illegalLowerD w o) := by
  rintro _ ⟨⟩; rfl

theorem SpecEntry.illegalLowerE (w : Nat) (o : BitOrder) : SpecEntry.Statement (.illegalLowerE w o) := by
  rintro _ ⟨⟩; rfl

theorem SpecEntry.illegalLowerG (w : Nat) (o : BitOrder) : SpecEntry.Statement (.illegalLowerG w o) := by
  rintro _ ⟨⟩; rfl

theorem SpecEntry.illegalLowerH (w : Nat) (o : BitOrder) : SpecEntry.Statement (.illegalLowerH w o) := by
  rintro _ ⟨⟩; rfl

theorem SpecEntry.illegalLowerI (w : Nat) (o : BitOrder) : SpecEntry.Statement (.illegalLowerI w o) := by
  rintro _ ⟨⟩; rfl

theorem SpecEntry.illegalLowerJ (w : Nat) (o : BitOrder) : SpecEntry.Statement (.illegalLowerJ w o) := by
  rintro _ ⟨⟩; rfl

theorem SpecEntry.illegalLowerK (w : Nat) (o : BitOrder) : SpecEntry.Statement (.illegalLowerK w o) := by
  rintro _ ⟨⟩; rfl

theorem SpecEntry.illegalLowerL (w : Nat) (o : BitOrder) : SpecEntry.Statement (.illegalLowerL w o) := by
  rintro _ ⟨⟩; rfl

theorem SpecEntry.illegalLowerM (w : Nat) (o : BitOrder) : SpecEntry.Statement (.illegalLowerM w o) := by
  rintro _ ⟨⟩; rfl

theorem SpecEntry.illegalLowerN (w : Nat) (o : BitOrder) : SpecEntry.Statement (.illegalLowerN w o) := by
  rintro _ ⟨⟩; rfl

theorem SpecEntry.illegalLowerO (w : Nat) (o : BitOrder) : SpecEntry.Statement (.illegalLowerO w o) := by
  rintro _ ⟨⟩; rfl

theorem SpecEntry.illegalLowerQ (w : Nat) (o : BitOrder) : SpecEntry.Statement (.illegalLowerQ w o) := by
  rintro _ ⟨⟩; rfl

theorem SpecEntry.illegalLowerV (w : Nat) (o : BitOrder) : SpecEntry.Statement (.illegalLowerV w o) := by
  rintro _ ⟨⟩; rfl

theorem SpecEntry.illegalLowerW (w : Nat) (o : BitOrder) : SpecEntry.Statement (.illegalLowerW w o) := by
  rintro _ ⟨⟩; rfl

theorem SpecEntry.illegalLowerX (w : Nat) (o : BitOrder) : SpecEntry.Statement (.illegalLowerX w o) := by
  rintro _ ⟨⟩; rfl

theorem SpecEntry.illegalLowerY (w : Nat) (o : BitOrder) : SpecEntry.Statement (.illegalLowerY w o) := by
  rintro _ ⟨⟩; rfl

theorem SpecEntry.illegalLowerZ (w : Nat) (o : BitOrder) : SpecEntry.Statement (.illegalLowerZ w o) := by
  rintro _ ⟨⟩; rfl

theorem SpecEntry.skip (c : Byte) : SpecEntry.Statement (.skip c) := by
  rintro _ ⟨⟩

theorem SpecEntry.prefixMsb : SpecEntry.Statement .prefixMsb := by
  rintro _ ⟨⟩

theorem SpecEntry.prefixLsb : SpecEntry.Statement .prefixLsb := by
  rintro _ ⟨⟩

theorem SpecEntry.pack : SpecEntry.Statement .pack := by
  rintro _ ⟨⟩

theorem SpecEntry.unpack : SpecEntry.Statement .unpack := by
  rintro _ ⟨⟩

theorem SpecEntry.calcsize : SpecEntry.Statement .calcsize := by
  rintro _ ⟨⟩

theorem SpecEntry.byteswap : SpecEntry.Statement .byteswap := by
  rintro _ ⟨⟩

theorem SpecEntry.byteswapGroup0 : SpecEntry.Statement .byteswapGroup0 := by
  rintro _ ⟨⟩

theorem SpecEntry.byteswapGroup1 : SpecEntry.Statement .byteswapGroup1 := by
  rintro _ ⟨⟩

theorem SpecEntry.byteswapGroup2 : SpecEntry.Statement .byteswapGroup2 := by
  rintro _ ⟨⟩

theorem SpecEntry.byteswapGroup3 : SpecEntry.Statement .byteswapGroup3 := by
  rintro _ ⟨⟩

theorem SpecEntry.byteswapGroup4 : SpecEntry.Statement .byteswapGroup4 := by
  rintro _ ⟨⟩

theorem SpecEntry.byteswapGroup5 : SpecEntry.Statement .byteswapGroup5 := by
  rintro _ ⟨⟩

theorem SpecEntry.byteswapGroup6 : SpecEntry.Statement .byteswapGroup6 := by
  rintro _ ⟨⟩

theorem SpecEntry.byteswapGroup7 : SpecEntry.Statement .byteswapGroup7 := by
  rintro _ ⟨⟩

theorem SpecEntry.byteswapGroup8 : SpecEntry.Statement .byteswapGroup8 := by
  rintro _ ⟨⟩

theorem SpecEntry.byteswapGroup9 : SpecEntry.Statement .byteswapGroup9 := by
  rintro _ ⟨⟩

end Sys2Proof.Laws
end

