-- ==== Sys2Proof/Laws/Step.lean ====
section
/-! SUPPORT. What a step can do: the instructions a fetch can give, the meaning of a fetched field, and one inversion
lemma per loop of the engine. -/

namespace Sys2Proof.Machine

/-! ## Fetched instructions -/

theorem kind_letter_of_ofLetter {c : Byte} {k : Kind} (h : Kind.ofLetter c = some k) : k.letter = c := by
  revert h; revert k; revert c
  decide

theorem fieldSpec_instr (k : Kind) (d : Dir) (w : Nat) (o : BitOrder) :
    (k.instr d w o).fieldSpec = some ⟨k.letter, w, o⟩ := by cases k <;> cases d <;> rfl

theorem illegalInstr_fieldSpec {c : Byte} {w : Nat} {o : BitOrder} {i : Instr} (h : illegalInstr c w o = some i) :
    i.fieldSpec = some ⟨c, w, o⟩ := by
  have key : ∀ c : Byte, (∀ j, illegalInstr c w o = some j → j.fieldSpec = some ⟨c, w, o⟩) := by
    intro c j hj
    have hc : c = BitVec.ofNat 8 c.toNat := by simp
    unfold illegalInstr at hj
    split at hj <;> first | (cases hj; done) | (rename_i he; rw [he] at hc; subst hc; cases hj; rfl)
  exact key c i h

/-- An entry decodes to an instruction that executes just that entry. -/
theorem decodeField_fieldSpec {d : Dir} {f : FieldSpec} {i : Instr} (h : decodeField d f = some i) :
    i.fieldSpec = some f := by
  unfold decodeField at h
  cases hk : Kind.ofLetter f.kind with
  | some k =>
    simp only [hk, Option.some.injEq] at h
    rw [← h, fieldSpec_instr, kind_letter_of_ofLetter hk]
  | none =>
    simp only [hk] at h
    rw [illegalInstr_fieldSpec h]

theorem exec_illegal {c : Byte} {w : Nat} {o : BitOrder} {i : Instr} (h : illegalInstr c w o = some i) (s : State) :
    exec i s = raise .formatError s := by
  unfold illegalInstr at h
  split at h <;> first | (cases h; done) | (cases h; rfl)

/-- What the instruction of a recognised kind does (R194, R204). -/
def fieldMeaning (k : Kind) (d : Dir) (w : Nat) (o : BitOrder) (s : State) : Host.Outcome State Fault Refusal :=
  match k, d with
  | .p, .enc => execPEnc w o s
  | .p, .dec => execPDec w o s
  | k, .enc => packField k w o (encodeKind k w) s
  | k, .dec => unpackField k w o (decodeKind k w) s

theorem exec_instr (k : Kind) (d : Dir) (w : Nat) (o : BitOrder) (s : State) :
    exec (k.instr d w o) s = fieldMeaning k d w o s := by cases k <;> cases d <;> rfl

/-- What a fetched field does: *format error* on an unknown kind, else the meaning of its kind. -/
theorem exec_decodeField {d : Dir} {f : FieldSpec} {i : Instr} (h : decodeField d f = some i) (s : State) :
    (Kind.ofLetter f.kind = none ∧ exec i s = raise .formatError s) ∨
    (∃ k, Kind.ofLetter f.kind = some k ∧ exec i s = fieldMeaning k d f.width f.order s) := by
  unfold decodeField at h
  cases hk : Kind.ofLetter f.kind with
  | some k =>
    simp only [hk, Option.some.injEq] at h
    exact .inr ⟨k, rfl, by rw [← h, exec_instr]⟩
  | none =>
    simp only [hk] at h
    exact .inl ⟨rfl, exec_illegal h s⟩

/-- What a scanned character does: a prefix sets PREV, anything else is skipped (R86, R112). -/
theorem exec_decodeScanChar (c : Byte) (cs : List Byte) (s : State) :
    (∃ o g, orderOfChar c = some o ∧ plainGroupAt cs = some g ∧
      exec (decodeScanChar c cs) s = .next { s with prev := o, si := s.si + 1 }) ∨
    ((orderOfChar c = none ∨ plainGroupAt cs = none) ∧
      exec (decodeScanChar c cs) s = .next { s with si := s.si + 1 }) := by
  unfold decodeScanChar
  cases ho : orderOfChar c with
  | none => exact .inr ⟨.inl rfl, rfl⟩
  | some o =>
    cases hg : plainGroupAt cs with
    | none => exact .inr ⟨.inr rfl, rfl⟩
    | some g => exact .inl ⟨o, g, rfl, rfl, by cases o <;> rfl⟩

/-- A group character is a group of its digit (R212). -/
theorem exec_decodeGroupChar {c : Byte} {i : Instr} (h : decodeGroupChar c = some i) (s : State) :
    isDigit c = true ∧ exec i s = swapGroup (digit c) s := by
  have hd : isDigit c = true ∧ ∃ n, c = BitVec.ofNat 8 (0x30 + n) ∧ n < 10 := by
    have key : ∀ c : Byte, decodeGroupChar c ≠ none →
        isDigit c = true ∧ c = BitVec.ofNat 8 (0x30 + digit c) ∧ digit c < 10 := by decide
    obtain ⟨h1, h2, h3⟩ := key c (by simp [h])
    exact ⟨h1, _, h2, h3⟩
  refine ⟨hd.1, ?_⟩
  obtain ⟨n, rfl, hn⟩ := hd.2
  interval_cases n <;> (cases h; rfl)

/-! ## Steps -/

/-- A step under reset (R260). -/
theorem step_reset {s : State} (h : s.resetIn = true) : step s = .next (resetEvent s) := by
  simp [step, runFetched, fetch, h]

theorem step_idle {s : State} (h : s.resetIn = false) (hp : s.phase = .idle) (hq : s.port = []) :
    step s = .next s := by
  simp [step, runFetched, fetch, h, hp, fetchCommand, hq]

theorem step_command {s : State} {c : Command} {rest : List Command} (h : s.resetIn = false)
    (hp : s.phase = .idle) (hq : s.port = c :: rest) :
    step s = exec (decodeCommand c.op) (latch c rest s) := by
  simp [step, runFetched, fetch, h, hp, fetchCommand, hq]

/-- A step of the compiler's loop (R111): its end, a group, a prefix, or a skipped character. -/
theorem step_compile_cases {s : State} (h : s.resetIn = false) (hp : s.phase = .busy) (hs : s.stage = .compile) :
    (s.fmt.drop s.si = [] ∧ step s = finishCompile s) ∨
    (∃ k w after, plainGroupAt (s.fmt.drop s.si) = some (k, w, after) ∧
      step s = .next (compileGroup k w ((s.fmt.drop s.si).length - after.length) s)) ∨
    (∃ c cs o g, s.fmt.drop s.si = c :: cs ∧ orderOfChar c = some o ∧ plainGroupAt cs = some g ∧
      step s = .next { s with prev := o, si := s.si + 1 }) ∨
    (∃ c cs, s.fmt.drop s.si = c :: cs ∧ plainGroupAt (c :: cs) = none ∧
      (orderOfChar c = none ∨ plainGroupAt cs = none) ∧ step s = .next { s with si := s.si + 1 }) := by
  have hf : step s = runFetched (fetchScan s) := by simp [step, fetch, h, hp, hs]
  rw [hf]
  unfold fetchScan
  cases hd : s.fmt.drop s.si with
  | nil => exact .inl ⟨rfl, rfl⟩
  | cons c cs =>
    cases hg : plainGroupAt (c :: cs) with
    | some g =>
      obtain ⟨k, w, after⟩ := g
      exact .inr (.inl ⟨k, w, after, rfl, by simp only [hg]; rfl⟩)
    | none =>
      simp only [hg]
      rcases exec_decodeScanChar c cs s with ⟨o, g, ho, hp', he⟩ | ⟨ho, he⟩
      · exact .inr (.inr (.inl ⟨c, cs, o, g, rfl, ho, hp', he⟩))
      · exact .inr (.inr (.inr ⟨c, cs, rfl, hg, ho, he⟩))

/-- A step of the field loop (R192, R201): its end, a format error, or the meaning of the field at FI. -/
theorem step_fields_cases {s : State} {d : Dir} (h : s.resetIn = false) (hp : s.phase = .busy)
    (hs : s.stage = .fields) (hd : dirOf s.op = some d) :
    (s.spec[s.fi]? = none ∧ step s = finishFields s) ∨
    (∃ f, s.spec[s.fi]? = some f ∧ Kind.ofLetter f.kind = none ∧ step s = raise .formatError s) ∨
    (∃ f k, s.spec[s.fi]? = some f ∧ Kind.ofLetter f.kind = some k ∧
      step s = fieldMeaning k d f.width f.order s) := by
  have hf : step s = runFetched (fetchField s) := by simp [step, fetch, h, hp, hs]
  rw [hf]
  unfold fetchField
  simp only [hd]
  cases hi : s.spec[s.fi]? with
  | none => exact .inl ⟨rfl, rfl⟩
  | some f =>
    simp only
    cases hdf : decodeField d f with
    | none =>
      refine .inr (.inl ⟨f, rfl, ?_, rfl⟩)
      cases hk : Kind.ofLetter f.kind with
      | none => rfl
      | some k => simp [decodeField, hk] at hdf
    | some i =>
      rcases exec_decodeField hdf s with ⟨hk, he⟩ | ⟨k, hk, he⟩
      · exact .inr (.inl ⟨f, rfl, hk, he⟩)
      · exact .inr (.inr ⟨f, k, rfl, hk, he⟩)

/-- A step of the group loop (R211): its end, a bad character, or one group. -/
theorem step_swap_cases {s : State} (h : s.resetIn = false) (hp : s.phase = .busy) (hs : s.stage = .swap) :
    (s.groups[s.gi]? = none ∧ step s = finishSwap s) ∨
    (∃ e k, s.groups[s.gi]? = some e ∧ groupValue e = .error k ∧ step s = raise .coercionError s) ∨
    (∃ e g, s.groups[s.gi]? = some e ∧ groupValue e = .ok g ∧ step s = swapGroup g s) := by
  have hf : step s = runFetched (fetchSwap s) := by simp [step, fetch, h, hp, hs]
  rw [hf]
  unfold fetchSwap
  cases hi : s.groups[s.gi]? with
  | none => exact .inl ⟨rfl, rfl⟩
  | some e =>
    cases e with
    | nat n => exact .inr (.inr ⟨_, n, rfl, rfl, rfl⟩)
    | char c =>
      simp only
      cases hc : decodeGroupChar c with
      | none =>
        have hnd : isDigit c = false := by
          revert hc; clear hi hf; revert c
          decide
        exact .inr (.inl ⟨_, .coercionError, rfl, by simp [groupValue, hnd], rfl⟩)
      | some i =>
        obtain ⟨hd, he⟩ := exec_decodeGroupChar hc s
        exact .inr (.inr ⟨_, digit c, rfl, by simp [groupValue, hd], he⟩)

end Sys2Proof.Machine
end

