-- ==== Sys2Proof/Laws/Codec.lean ====
section
/-! SUPPORT. Laws of the encoders and of the spec table's counts: every encoder gives as many bits as the field is wide,
and what one more field adds to CUR and VI. -/

namespace Sys2Proof.Machine

theorem fieldOfBytes_length {w : Nat} {y : List Byte} {b : Bits} (h : fieldOfBytes w y = .ok b) : b.length = w := by
  unfold fieldOfBytes at h
  split at h
  · cases h
  · cases h
    simp only [truncBits, List.length_take, bytesToBits_length]
    omega

/-- R64: the field's width is the number of bits moved, whatever the kind. -/
theorem encodeKind_length {k : Kind} {w : Nat} {v : Value} {b : Bits} (hw : legalWidth k w = true)
    (h : encodeKind k w v = .ok b) : b.length = w := by
  cases k with
  | u => simp only [encodeKind, encU, intBits] at h; split at h <;> cases h; simp
  | s => simp only [encodeKind, encS, intBits] at h; split at h <;> cases h; simp
  | f =>
    simp only [legalWidth, Bool.or_eq_true, beq_iff_eq] at hw
    simp only [encodeKind, encF] at h
    split at h
    · cases h
    · split at h
      · cases h; simp_all
      · split at h <;> cases h
        simp_all
  | b => simp only [encodeKind, encB] at h; split at h <;> cases h; simp
  | t =>
    simp only [encodeKind, encT] at h
    split at h
    · cases h
    · split at h
      · cases h
      · exact fieldOfBytes_length h
  | r =>
    simp only [encodeKind, encR] at h
    split at h
    · cases h
    · exact fieldOfBytes_length h
  | p => cases h; simp [encP]

theorem take_succ_of_getElem? {α : Type} {l : List α} {i : Nat} {a : α} (h : l[i]? = some a) :
    l.take (i + 1) = l.take i ++ [a] := by
  rw [List.take_add_one, h]
  rfl

theorem valueCount_append (l m : List FieldSpec) : valueCount (l ++ m) = valueCount l + valueCount m := by
  simp [valueCount, List.countP_append]

theorem calcsizeOf_append (l m : List FieldSpec) : calcsizeOf (l ++ m) = calcsizeOf l + calcsizeOf m := by
  simp [calcsizeOf]

theorem valueCount_singleton (f : FieldSpec) : valueCount [f] = if f.isPadding then 0 else 1 := by
  cases h : f.isPadding <;> simp [valueCount, h]

theorem calcsizeOf_singleton (f : FieldSpec) : calcsizeOf [f] = f.width := by simp [calcsizeOf]

theorem valueCount_take_le (l : List FieldSpec) (i : Nat) : valueCount (l.take i) ≤ valueCount l := by
  conv_rhs => rw [← List.take_append_drop i l, valueCount_append]
  omega

theorem calcsizeOf_take_le (l : List FieldSpec) (i : Nat) : calcsizeOf (l.take i) ≤ calcsizeOf l := by
  conv_rhs => rw [← List.take_append_drop i l, calcsizeOf_append]
  omega

/-- R116: of the seven kinds, `p` alone is padding. -/
theorem isPadding_of_kind {f : FieldSpec} {k : Kind} (h : Kind.ofLetter f.kind = some k) :
    f.isPadding = (k == .p) := by
  unfold FieldSpec.isPadding
  rw [← kind_letter_of_ofLetter h]
  cases k <;> decide

end Sys2Proof.Machine
end

