-- ==== Sys2Proof/Tests/Slice0.lean ====
section
/-! SUPPORT. The model's own tests. Every expected value is a vector of spec/95_test_vectors.md or is written out from the
rule the comment names. Each test is one instruction, one step or one call of an operation. The last part gives, for
every statement with hypotheses, operands that meet them: `witness_<statement>`. -/

namespace Sys2Proof.Tests

open Sys2Proof Sys2Proof.Machine

/-! ## Small states -/

/-- After reset with one command presented. -/
def presented (c : Command) : State := { State.reset with port := [c] }

/-- About to compile the text `t`. -/
def scanning (op : Op) (t : List Byte) : State := { State.reset with phase := .busy, op := op, fmt := t }

/-- PACK about to execute the only entry of its table. -/
def packing (f : FieldSpec) (v : List Value) : State :=
  { State.reset with phase := .busy, stage := .fields, op := .pack, spec := [f], val := v }

/-- UNPACK about to execute the only entry of its table, with the cursor at `cur`. -/
def unpacking (f : FieldSpec) (y : List Byte) (cur : Nat) : State :=
  { State.reset with
    phase := .busy, stage := .fields, op := .unpack, spec := [f], data := y, rbits := bytesToBits y, cur := cur }

/-- BYTESWAP about to swap its first group, from byte `i` on. -/
def swapping (g : List GroupElem) (y : List Byte) (i : Nat) : State :=
  { State.reset with phase := .busy, stage := .swap, op := .byteswap, groups := g, data := y, offset := i, bi := i }

/-- What is seen of the next state, if there is one. -/
def seen {α : Type} (f : State → α) (o : Host.Outcome State Fault Refusal) : Option α :=
  match o with
  | .next t => some (f t)
  | .fault _ => none
  | .refused _ => none

/-- The bits written, CUR, VI and FI. -/
def written (t : State) : Bits × Nat × Nat × Nat := (t.wbits, t.cur, t.vi, t.fi)

/-- The values decoded, CUR and FI. -/
def decoded (t : State) : List Value × Nat × Nat := (t.outv, t.cur, t.fi)

/-- What the decoder reads, if it accepts. -/
def readAs (ctx : Context) (bytes : List Byte) : Option (Instr × List Byte) := (decode ctx bytes).toOption

/-- Why the decoder rejects, if it does. -/
def rejected (ctx : Context) (bytes : List Byte) : Option Reject :=
  match decode ctx bytes with
  | .ok _ => none
  | .error r => some r

/-! ## WellFormed refuses -/

theorem test_wf_zero_width : (Instr.uEnc 0 .msbFirst).problem = some .zeroWidth := by decide
theorem test_wf_zero_width_padding : (Instr.pDec 0 .msbFirst).problem = some .zeroWidth := by decide
theorem test_wf_zero_width_float : (Instr.fDec 0 .msbFirst).problem = some .zeroWidth := by decide
theorem test_wf_float_width : (Instr.fEnc 33 .msbFirst).problem = some .floatWidth := by decide
theorem test_wf_unknown_kind : (Instr.illegalUpperU 8 .msbFirst).problem = some .unknownKind := by decide
theorem test_wf_accepts : (Instr.fDec 32 .lsbFirst).wf = true ∧ (Instr.fEnc 64 .msbFirst).wf = true ∧
    (Instr.sDec 1 .msbFirst).wf = true := by decide

/-! ## Decoding, words written out from R81, R84, R85, R87, R97, R212 -/

/-- The illegal capital letters by character code (R11, R87). -/
def illegalCapitals : List (Byte × (Nat → BitOrder → Instr)) :=
  [(0x41, .illegalUpperA), (0x42, .illegalUpperB), (0x43, .illegalUpperC), (0x44, .illegalUpperD),
   (0x45, .illegalUpperE), (0x46, .illegalUpperF), (0x47, .illegalUpperG), (0x48, .illegalUpperH),
   (0x49, .illegalUpperI), (0x4A, .illegalUpperJ), (0x4B, .illegalUpperK), (0x4C, .illegalUpperL),
   (0x4D, .illegalUpperM), (0x4E, .illegalUpperN), (0x4F, .illegalUpperO), (0x50, .illegalUpperP),
   (0x51, .illegalUpperQ), (0x52, .illegalUpperR), (0x53, .illegalUpperS), (0x54, .illegalUpperT),
   (0x55, .illegalUpperU), (0x56, .illegalUpperV), (0x57, .illegalUpperW), (0x58, .illegalUpperX),
   (0x59, .illegalUpperY), (0x5A, .illegalUpperZ)]

/-- The illegal small letters by character code: all but `u s f b t r p` (R11, R84, R87). -/
def illegalSmall : List (Byte × (Nat → BitOrder → Instr)) :=
  [(0x61, .illegalLowerA), (0x63, .illegalLowerC), (0x64, .illegalLowerD), (0x65, .illegalLowerE),
   (0x67, .illegalLowerG), (0x68, .illegalLowerH), (0x69, .illegalLowerI), (0x6A, .illegalLowerJ),
   (0x6B, .illegalLowerK), (0x6C, .illegalLowerL), (0x6D, .illegalLowerM), (0x6E, .illegalLowerN),
   (0x6F, .illegalLowerO), (0x71, .illegalLowerQ), (0x76, .illegalLowerV), (0x77, .illegalLowerW),
   (0x78, .illegalLowerX), (0x79, .illegalLowerY), (0x7A, .illegalLowerZ)]

/-- `<X4`, followed by a comma. -/
theorem test_decode_illegal_capitals : ∀ p ∈ illegalCapitals,
    readAs (.group .dec .msbFirst) [0x3C, p.1, 0x34, 0x2C] = some (p.2 4 .lsbFirst, [0x2C]) := by
  decide

/-- `x10` after a group of order LSB_FIRST. -/
theorem test_decode_illegal_small : ∀ p ∈ illegalSmall,
    readAs (.group .enc .lsbFirst) [p.1, 0x31, 0x30] = some (p.2 10 .lsbFirst, []) := by
  decide

/-- `>u19`, `s6`, `f32`, `b1`, `<t24`, `r43`, `p4` under PACK. -/
theorem test_decode_encoders :
    readAs (.group .enc .lsbFirst) [0x3E, 0x75, 0x31, 0x39] = some (.uEnc 19 .msbFirst, []) ∧
    readAs (.group .enc .msbFirst) [0x73, 0x36, 0x75] = some (.sEnc 6 .msbFirst, [0x75]) ∧
    readAs (.group .enc .msbFirst) [0x66, 0x33, 0x32] = some (.fEnc 32 .msbFirst, []) ∧
    readAs (.group .enc .lsbFirst) [0x62, 0x31] = some (.bEnc 1 .lsbFirst, []) ∧
    readAs (.group .enc .msbFirst) [0x3C, 0x74, 0x32, 0x34] = some (.tEnc 24 .lsbFirst, []) ∧
    readAs (.group .enc .msbFirst) [0x72, 0x34, 0x33] = some (.rEnc 43 .msbFirst, []) ∧
    readAs (.group .enc .lsbFirst) [0x70, 0x34, 0x3E] = some (.pEnc 4 .lsbFirst, [0x3E]) := by decide

/-- `u007`, `<s3`, `>f64`, `b2`, `t12`, `<r12`, `p0` under UNPACK. -/
theorem test_decode_decoders :
    readAs (.group .dec .msbFirst) [0x75, 0x30, 0x30, 0x37] = some (.uDec 7 .msbFirst, []) ∧
    readAs (.group .dec .msbFirst) [0x3C, 0x73, 0x33] = some (.sDec 3 .lsbFirst, []) ∧
    readAs (.group .dec .lsbFirst) [0x3E, 0x66, 0x36, 0x34] = some (.fDec 64 .msbFirst, []) ∧
    readAs (.group .dec .msbFirst) [0x62, 0x32] = some (.bDec 2 .msbFirst, []) ∧
    readAs (.group .dec .lsbFirst) [0x74, 0x31, 0x32] = some (.tDec 12 .lsbFirst, []) ∧
    readAs (.group .dec .msbFirst) [0x3C, 0x72, 0x31, 0x32] = some (.rDec 12 .lsbFirst, []) ∧
    readAs (.group .dec .msbFirst) [0x70, 0x30] = some (.pDec 0 .msbFirst, []) := by decide

/-- `>u1`; `<u1`; `<8u8`; `> u1`; `<>u4`; a space. -/
theorem test_decode_scan :
    readAs .scan [0x3E, 0x75, 0x31] = some (.prefixMsb, [0x75, 0x31]) ∧
    readAs .scan [0x3C, 0x75, 0x31] = some (.prefixLsb, [0x75, 0x31]) ∧
    readAs .scan [0x3C, 0x38, 0x75, 0x38] = some (.skip 0x3C, [0x38, 0x75, 0x38]) ∧
    readAs .scan [0x3E, 0x20, 0x75, 0x31] = some (.skip 0x3E, [0x20, 0x75, 0x31]) ∧
    readAs .scan [0x3C, 0x3E, 0x75, 0x34] = some (.skip 0x3C, [0x3E, 0x75, 0x34]) ∧
    readAs .scan [0x20] = some (.skip 0x20, []) := by decide

/-- OP codes 0 to 3 (R97). -/
theorem test_decode_commands :
    readAs .command [0] = some (.pack, []) ∧ readAs .command [1] = some (.unpack, []) ∧
    readAs .command [2] = some (.calcsize, []) ∧ readAs .command [3] = some (.byteswap, []) := by decide

/-- The characters `0` to `9` (R212). -/
theorem test_decode_group_characters :
    readAs .swapGroup [0x30] = some (.byteswapGroup0, []) ∧ readAs .swapGroup [0x31] = some (.byteswapGroup1, []) ∧
    readAs .swapGroup [0x32] = some (.byteswapGroup2, []) ∧ readAs .swapGroup [0x33] = some (.byteswapGroup3, []) ∧
    readAs .swapGroup [0x34] = some (.byteswapGroup4, []) ∧ readAs .swapGroup [0x35] = some (.byteswapGroup5, []) ∧
    readAs .swapGroup [0x36] = some (.byteswapGroup6, []) ∧ readAs .swapGroup [0x37] = some (.byteswapGroup7, []) ∧
    readAs .swapGroup [0x38] = some (.byteswapGroup8, []) ∧ readAs .swapGroup [0x39] = some (.byteswapGroup9, []) := by
  decide

/-- No byte; OP code 4; `u` without a digit; `<8`; a group where a prefix or a skipped character is looked for; `x`. -/
theorem test_decode_rejects :
    rejected (.group .enc .msbFirst) [] = some .endOfText ∧
    rejected .command [4] = some .noSuchCommand ∧
    rejected (.group .enc .msbFirst) [0x75] = some .noGroup ∧
    rejected (.group .enc .msbFirst) [0x3C, 0x38] = some .noGroup ∧
    rejected .scan [0x75, 0x38] = some .plainGroup ∧
    rejected .swapGroup [0x78] = some .notADigit := by decide

/-- The bytes the encoder writes for the groups of E1 and for a width of three digits (R81). -/
theorem test_encode :
    encode (.uEnc 1 .msbFirst) = [0x3E, 0x75, 0x31] ∧ encode (.sDec 120 .lsbFirst) = [0x3C, 0x73, 0x31, 0x32, 0x30] ∧
    encode .unpack = [1] ∧ encode .byteswapGroup7 = [0x37] ∧ encode (.skip 0x2C) = [0x2C] := by decide

/-- Section 2 of the vectors: `u1<u2u3`, `<8u8`, `u1< u2`, `ab12c3`. -/
theorem test_compile :
    compile [0x75, 0x31, 0x3C, 0x75, 0x32, 0x75, 0x33] =
      [⟨0x75, 1, .msbFirst⟩, ⟨0x75, 2, .lsbFirst⟩, ⟨0x75, 3, .lsbFirst⟩] ∧
    compile [0x3C, 0x38, 0x75, 0x38] = [⟨0x75, 8, .msbFirst⟩] ∧
    compile [0x75, 0x31, 0x3C, 0x20, 0x75, 0x32] = [⟨0x75, 1, .msbFirst⟩, ⟨0x75, 2, .msbFirst⟩] ∧
    compile [0x61, 0x62, 0x31, 0x32, 0x63, 0x33] = [⟨0x62, 12, .msbFirst⟩, ⟨0x63, 3, .msbFirst⟩] := by decide

/-! ## The host's words (log 10) -/

/-- `u8` with its letter in the low byte; the letter alone; a group character; a prefix; a command; no bit. -/
theorem test_table_words :
    decodeTableWord 16 0x3875 = some (.uEnc 8 .msbFirst) ∧ decodeTableWord 8 0x75 = some (.uEnc 0 .msbFirst) ∧
    decodeTableWord 8 0x35 = some .byteswapGroup5 ∧ decodeTableWord 8 0x3C = some .prefixLsb ∧
    decodeTableWord 8 3 = some .byteswap ∧ decodeTableWord 0 0 = some (.skip 0) := by decide

/-- The placed word is what the next step runs: `<` sets PREV, a skipped character moves SI, CALCSIZE of the empty format
starts, the group `2` finds no data, `X` is no kind. -/
theorem test_fetch_words :
    seen (·.prev) (step (State.reset.withFetchWord 8 0x3C)) = some .lsbFirst ∧
    seen (·.si) (step (State.reset.withFetchWord 0 0)) = some 1 ∧
    seen (·.op) (step (State.reset.withFetchWord 8 2)) = some .calcsize ∧
    seen (·.response) (step (State.reset.withFetchWord 8 0x32)) = some (some (.error .insufficientInput)) ∧
    seen (·.response) (step (State.reset.withFetchWord 8 0x58)) = some (some (.error .formatError)) := by decide

/-! ## Field instructions (section 3 of the vectors) -/

/-- `pack("u4", INT(-17))` → `F0`. -/
theorem test_uEnc_wraps : seen written (exec (.uEnc 4 .msbFirst) (packing ⟨0x75, 4, .msbFirst⟩ [.int (-17)])) =
    some ([true, true, true, true], 4, 1, 1) := by decide

/-- `pack("<u16", INT(0x1234))` → `2C 48`. -/
theorem test_uEnc_lsb : seen (·.wbits) (exec (.uEnc 16 .lsbFirst) (packing ⟨0x75, 16, .lsbFirst⟩ [.int 0x1234])) =
    some (bytesToBits [0x2C, 0x48]) := by decide

/-- `unpack("<u4<u4", AB)` → 5, 13. -/
theorem test_uDec : seen decoded (exec (.uDec 4 .lsbFirst) (unpacking ⟨0x75, 4, .lsbFirst⟩ [0xAB] 0)) =
      some ([.int 5], 4, 1) ∧
    seen decoded (exec (.uDec 4 .lsbFirst) (unpacking ⟨0x75, 4, .lsbFirst⟩ [0xAB] 4)) = some ([.int 13], 8, 1) := by
  decide

/-- `unpack("u9", 00)` → *insufficient input*. -/
theorem test_uDec_beyond : seen (·.response) (exec (.uDec 9 .msbFirst) (unpacking ⟨0x75, 9, .msbFirst⟩ [0] 0)) =
    some (some (.error .insufficientInput)) := by decide

/-- `pack("s4", INT(-9))` → `70`. -/
theorem test_sEnc_wraps : seen written (exec (.sEnc 4 .msbFirst) (packing ⟨0x73, 4, .msbFirst⟩ [.int (-9)])) =
    some ([false, true, true, true], 4, 1, 1) := by decide

/-- `pack("<s8", INT(-128))` → `01`. -/
theorem test_sEnc_lsb : seen (·.wbits) (exec (.sEnc 8 .lsbFirst) (packing ⟨0x73, 8, .lsbFirst⟩ [.int (-128)])) =
    some (bytesToBits [0x01]) := by decide

/-- `unpack("s4s4", F7)` → -1, 7. -/
theorem test_sDec : seen decoded (exec (.sDec 4 .msbFirst) (unpacking ⟨0x73, 4, .msbFirst⟩ [0xF7] 0)) =
      some ([.int (-1)], 4, 1) ∧
    seen decoded (exec (.sDec 4 .msbFirst) (unpacking ⟨0x73, 4, .msbFirst⟩ [0xF7] 4)) = some ([.int 7], 8, 1) := by
  decide

/-- `pack("f32", REAL(3.75))` → `40 70 00 00`. -/
theorem test_fEnc_narrow : seen (·.wbits) (exec (.fEnc 32 .msbFirst)
    (packing ⟨0x66, 32, .msbFirst⟩ [.real 0x400E000000000000])) = some (bytesToBits [0x40, 0x70, 0, 0]) := by decide

/-- `pack("f64", REAL(-2.5))` → `C0 04 00 00 00 00 00 00`. -/
theorem test_fEnc_64 : seen (·.wbits) (exec (.fEnc 64 .msbFirst)
    (packing ⟨0x66, 64, .msbFirst⟩ [.real 0xC004000000000000])) =
    some (bytesToBits [0xC0, 0x04, 0, 0, 0, 0, 0, 0]) := by decide

/-- `unpack("<f32", 00 00 01 FC)` → 1.0. -/
theorem test_fDec_widen : seen decoded (exec (.fDec 32 .lsbFirst)
    (unpacking ⟨0x66, 32, .lsbFirst⟩ [0, 0, 1, 0xFC] 0)) = some ([.real 0x3FF0000000000000], 32, 1) := by decide

/-- `unpack("f16", 00 00)` → *format error*. -/
theorem test_fDec_width : seen (·.response) (exec (.fDec 16 .msbFirst) (unpacking ⟨0x66, 16, .msbFirst⟩ [0, 0] 0)) =
    some (some (.error .formatError)) := by decide

/-- `pack("<b3", BOOL(true))` → `80`. -/
theorem test_bEnc : seen written (exec (.bEnc 3 .lsbFirst) (packing ⟨0x62, 3, .lsbFirst⟩ [.bool true])) =
    some ([true, false, false], 3, 1, 1) := by decide

/-- `pack("b1", INT(5))` → `80`. -/
theorem test_bEnc_int : seen (·.wbits) (exec (.bEnc 1 .msbFirst) (packing ⟨0x62, 1, .msbFirst⟩ [.int 5])) =
    some [true] := by decide

/-- `unpack("b2", 80)` → true; `unpack("b2", 00)` → false. -/
theorem test_bDec : seen decoded (exec (.bDec 2 .msbFirst) (unpacking ⟨0x62, 2, .msbFirst⟩ [0x80] 0)) =
      some ([.bool true], 2, 1) ∧
    seen decoded (exec (.bDec 2 .msbFirst) (unpacking ⟨0x62, 2, .msbFirst⟩ [0] 0)) = some ([.bool false], 2, 1) := by
  decide

/-- `pack("t12", TEXT("Hi"))` → `48 60`, of which 12 bits are the field's. -/
theorem test_tEnc : seen (·.wbits) (exec (.tEnc 12 .msbFirst) (packing ⟨0x74, 12, .msbFirst⟩ [.text [0x48, 0x69]])) =
    some ((bytesToBits [0x48, 0x60]).take 12) := by decide

/-- `pack("t24", TEXT("Hi"))` → *coercion error*. -/
theorem test_tEnc_short : seen (·.response) (exec (.tEnc 24 .msbFirst)
    (packing ⟨0x74, 24, .msbFirst⟩ [.text [0x48, 0x69]])) = some (some (.error .coercionError)) := by decide

/-- `unpack("t12", 48 60)` → "H`". -/
theorem test_tDec : seen decoded (exec (.tDec 12 .msbFirst) (unpacking ⟨0x74, 12, .msbFirst⟩ [0x48, 0x60] 0)) =
    some ([.text [0x48, 0x60]], 12, 1) := by decide

/-- `unpack("t16", C0 80)` → *decode error*. -/
theorem test_tDec_overlong : seen (·.response) (exec (.tDec 16 .msbFirst)
    (unpacking ⟨0x74, 16, .msbFirst⟩ [0xC0, 0x80] 0)) = some (some (.error .decodeError)) := by decide

/-- `pack("<r12", BYTES(AB CD))` → `3D 50`, of which 12 bits are the field's. -/
theorem test_rEnc : seen (·.wbits) (exec (.rEnc 12 .lsbFirst) (packing ⟨0x72, 12, .lsbFirst⟩ [.bytes [0xAB, 0xCD]])) =
    some ((bytesToBits [0x3D, 0x50]).take 12) := by decide

/-- `unpack("<r12", 3D 50)` → `AB C0`. -/
theorem test_rDec : seen decoded (exec (.rDec 12 .lsbFirst) (unpacking ⟨0x72, 12, .lsbFirst⟩ [0x3D, 0x50] 0)) =
    some ([.bytes [0xAB, 0xC0]], 12, 1) := by decide

/-- `pack("p1")`: one zero bit, no value taken. -/
theorem test_pEnc : seen written (exec (.pEnc 1 .msbFirst) (packing ⟨0x70, 1, .msbFirst⟩ [.int 1])) =
    some ([false], 1, 0, 1) := by decide

/-- `unpack("p8", AB)` → no value. -/
theorem test_pDec : seen decoded (exec (.pDec 8 .msbFirst) (unpacking ⟨0x70, 8, .msbFirst⟩ [0xAB] 0)) =
    some ([], 8, 1) := by decide

/-- `pack("p0")` → *format error*. -/
theorem test_pEnc_zero : seen (·.response) (exec (.pEnc 0 .msbFirst) (packing ⟨0x70, 0, .msbFirst⟩ [])) =
    some (some (.error .formatError)) := by decide

/-- `pack("x8", INT(1))`, `pack("U8", INT(1))` → *format error*, for every illegal letter. -/
theorem test_illegal_letters :
    (∀ p ∈ illegalCapitals, seen (·.response) (exec (p.2 8 .msbFirst) (packing ⟨p.1, 8, .msbFirst⟩ [.int 1])) =
      some (some (.error .formatError))) ∧
    (∀ p ∈ illegalSmall, seen (·.response) (exec (p.2 8 .msbFirst) (packing ⟨p.1, 8, .msbFirst⟩ [.int 1])) =
      some (some (.error .formatError))) := by
  decide

/-! ## Scanner, commands, groups, one step each -/

/-- R112, R86: `>` and `<` set PREV, a comma does not. -/
theorem test_scan_steps :
    seen (fun t => (t.prev, t.si)) (step { scanning .pack [0x3E, 0x75, 0x31] with prev := .lsbFirst }) =
      some (.msbFirst, 1) ∧
    seen (fun t => (t.prev, t.si)) (step (scanning .pack [0x3C, 0x75, 0x31])) = some (.lsbFirst, 1) ∧
    seen (fun t => (t.prev, t.si)) (step { scanning .pack [0x2C, 0x3C, 0x75, 0x31] with prev := .lsbFirst }) =
      some (.lsbFirst, 1) := by decide

/-- R111: the group `x12` becomes a spec entry with the order PREV. -/
theorem test_group_step :
    seen (fun t => (t.spec, t.si)) (step { scanning .pack [0x78, 0x31, 0x32, 0x3E] with prev := .lsbFirst }) =
      some ([⟨0x78, 12, .lsbFirst⟩], 3) := by decide

/-- R37, R192: a presented PACK is latched and starts to compile. -/
theorem test_pack_step : seen (fun t => (t.phase, t.op, t.fmt, t.val))
    (step (presented { op := 0, fmt := [0x75, 0x38], val := [.int 1], data := [], groups := [], offset := 0 })) =
    some (.busy, .pack, [0x75, 0x38], [.int 1]) := by decide

/-- `pack("u8u8", INT(1))` → *arity error*, at the end of compilation. -/
theorem test_pack_arity : seen (·.response) (step { scanning .pack [] with
    spec := [⟨0x75, 8, .msbFirst⟩, ⟨0x75, 8, .msbFirst⟩], val := [.int 1] }) = some (some (.error .arityError)) := by
  decide

/-- R37, R201: UNPACK. -/
theorem test_unpack_step : seen (fun t => (t.phase, t.op, t.data, t.si))
    (step (presented { op := 1, fmt := [0x75, 0x38], val := [], data := [0xAB, 0xCD], groups := [], offset := 0 })) =
    some (.busy, .unpack, [0xAB, 0xCD], 0) := by decide

/-- `unpack("x8", (empty))` → *insufficient input*, at the end of compilation. -/
theorem test_unpack_size : seen (·.response) (step { scanning .unpack [] with spec := [⟨0x78, 8, .msbFirst⟩] }) =
    some (some (.error .insufficientInput)) := by decide

/-- R37, R208: CALCSIZE. -/
theorem test_calcsize_step : seen (fun t => (t.phase, t.op, t.fmt))
    (step (presented { op := 2, fmt := [0x66], val := [], data := [], groups := [], offset := 0 })) =
    some (.busy, .calcsize, [0x66]) := by decide

/-- `calcsize("x8U8u0")` → 16, at the end of compilation. -/
theorem test_calcsize_end : seen (·.response) (step { scanning .calcsize [] with
    spec := [⟨0x78, 8, .msbFirst⟩, ⟨0x55, 8, .msbFirst⟩, ⟨0x75, 0, .msbFirst⟩] }) = some (some (.ok (.size 16))) := by
  decide

/-- R248: CALCSIZE with a width one above MAX_WIDTH, at the end of compilation. -/
theorem test_calcsize_capacity : seen (·.response) (step { scanning .calcsize [] with
    params := { Params.unbounded with maxWidth := some 32 }, spec := [⟨0x66, 33, .msbFirst⟩] }) =
    some (some (.refused .capacity)) := by decide

/-- R211: BYTESWAP starts at OFFSET. -/
theorem test_byteswap_step : seen (fun t => (t.stage, t.gi, t.bi, t.out)) (step (presented
    { op := 3, fmt := [], val := [], data := [1, 2, 3, 4, 5], groups := [.char 0x32, .nat 2], offset := 1 })) =
    some (.swap, 0, 1, []) := by decide

/-- `"x"`, `01 02`, offset 3 → *coercion error*; `"2"`, offset 3 → `Refused(offset_out_of_range)`. -/
theorem test_byteswap_checks :
    seen (·.response) (step (presented
      { op := 3, fmt := [], val := [], data := [1, 2], groups := [.char 0x78], offset := 3 })) =
      some (some (.error .coercionError)) ∧
    seen (·.response) (step (presented
      { op := 3, fmt := [], val := [], data := [1, 2], groups := [.char 0x32], offset := 3 })) =
      some (some (.refused .offsetOutOfRange)) := by decide

/-- R211: a group character of every size on ten bytes; `0` ends REFUSED. -/
theorem test_group_characters :
    ∀ p ∈ groupSizes.tail, seen (fun t => (t.out, t.bi, t.gi))
      (exec p.1 (swapping [.char 0x39] [0, 1, 2, 3, 4, 5, 6, 7, 8, 9] 1)) =
      some ([9, 8, 7, 6, 5, 4, 3, 2, 1].drop (9 - p.2), 1 + p.2, 1) := by
  decide

/-- `"0"`, `01` → `Refused(zero_group)`; `"4"`, 5 bytes → `Refused(long_tail)`. -/
theorem test_group_refusals :
    seen (·.response) (exec .byteswapGroup0 (swapping [.char 0x30] [1] 0)) = some (some (.refused .zeroGroup)) ∧
    seen (·.response) (step { swapping [.char 0x34] [1, 2, 3, 4, 5] 4 with gi := 1 }) =
      some (some (.refused .longTail)) := by decide

/-! ## The source's own examples (section 1 of the vectors), through the call-level functions -/

/-- E1. -/
theorem test_E1 : packCall Params.unbounded [0x75, 0x31, 0x75, 0x31, 0x73, 0x36, 0x75, 0x37, 0x75, 0x39]
    [.int 0, .int 0, .int (-2), .int 65, .int 22] = .ok (.bytes [0x3E, 0x82, 0x16]) := by decide

/-- E5: `<u19s3f32`. -/
theorem test_E5 : packCall Params.unbounded [0x3C, 0x75, 0x31, 0x39, 0x73, 0x33, 0x66, 0x33, 0x32]
    [.int 0x1234, .int (-2), .real 0xBFF0000000000000] =
    .ok (.bytes [0x2C, 0x48, 0x0C, 0x00, 0x00, 0x07, 0xF4]) := by decide

/-- E6. -/
theorem test_E6 : byteswapCall Params.unbounded [.char 0x34, .char 0x31, .char 0x34]
    [0x01, 0, 0, 0, 0x01, 0xE7, 0xA2, 0x91, 0] 0 =
    .ok (.bytes [0, 0, 0, 0x01, 0x01, 0, 0x91, 0xA2, 0xE7]) := by decide

/-- X2: `unpack("b1t24", 24 34 90 80)` → false, "Hi!". -/
theorem test_X2 : unpackCall Params.unbounded [0x62, 0x31, 0x74, 0x32, 0x34] [0x24, 0x34, 0x90, 0x80] =
    .ok (.values [.bool false, .text [0x48, 0x69, 0x21]]) := by decide

/-! ## Witnesses: operands that meet the hypotheses of each statement, at the edges of their ranges -/

/-- `u0` before a prefix, `>` and `<` before `u1`, `<` before a space, a command. -/
theorem witness_EncodeThenDecodeIsTheInstruction :
    (Instr.uEnc 0 .lsbFirst).delimited [0x3C] = true ∧ (Instr.illegalLowerZ 10 .msbFirst).delimited [] = true ∧
    Instr.prefixMsb.delimited [0x75, 0x31] = true ∧ Instr.prefixLsb.delimited [0x5A, 0x30] = true ∧
    (Instr.skip 0x3C).delimited [0x20] = true ∧ Instr.byteswap.delimited [0] = true := by decide

/-- ` <A0`, `z9`, then a comma. -/
theorem witness_CompileGivesTheWrittenGroupsWithInheritedOrder :
    (∀ g ∈ [GroupText.mk [0x20] (some .lsbFirst) 0x41 0, GroupText.mk [] none 0x7A 9],
      isLetter g.kind = true ∧ ∀ c ∈ g.strays, isStray c = true) ∧ ∀ c ∈ [(0x2C : Byte)], isStray c = true := by decide

theorem witness_CompileOfAConcatenationAtASeparator : isStray 0x2C = true ∧ isStray 0 = true ∧ isStray 0xFF = true := by
  decide

/-- `u08` before `<`. -/
theorem witness_WidthIsTheDecimalValueOfTheDigitRun :
    isLetter 0x75 = true ∧ ([0x30, 0x38] : List Byte) ≠ [] ∧ (∀ d ∈ ([0x30, 0x38] : List Byte), isDigit d = true) ∧
    (([0x3C] : List Byte).head?.all fun c => !isDigit c) = true := by decide

/-- One state for each of the five clauses. -/
theorem witness_StepRunsTheInstructionItFetches :
    ((presented (bareCommand 3)).resetIn = false ∧ (presented (bareCommand 3)).phase = .idle ∧
      (presented (bareCommand 3)).port = [bareCommand 3]) ∧
    (State.reset.resetIn = false ∧ State.reset.phase = .idle ∧ State.reset.port = []) ∧
    ((scanning .pack [0x2C]).phase = .busy ∧ (scanning .pack [0x2C]).stage = .compile ∧
      readAs .scan ((scanning .pack [0x2C]).fmt.drop (scanning .pack [0x2C]).si) = some (.skip 0x2C, [])) ∧
    ((packing ⟨0x75, 8, .msbFirst⟩ []).stage = .fields ∧ dirOf (packing ⟨0x75, 8, .msbFirst⟩ []).op = some .enc ∧
      (packing ⟨0x75, 8, .msbFirst⟩ []).spec[0]? = some ⟨0x75, 8, .msbFirst⟩ ∧
      decodeField .enc ⟨0x75, 8, .msbFirst⟩ = some (.uEnc 8 .msbFirst)) ∧
    ((swapping [.char 0x34] [] 0).stage = .swap ∧ (swapping [.char 0x34] [] 0).groups[0]? = some (.char 0x34) ∧
      decodeGroupChar 0x34 = some .byteswapGroup4) := by decide

/-- `u8` at the start of the text. -/
theorem witness_ACompiledGroupIsTheInstructionOfItsText :
    (scanning .unpack [0x75, 0x38]).resetIn = false ∧ (scanning .unpack [0x75, 0x38]).phase = .busy ∧
    (scanning .unpack [0x75, 0x38]).stage = .compile ∧ (plainGroupAt [0x75, 0x38]).isSome = true ∧
    readAs (.group .dec .msbFirst) [0x75, 0x38] = some (.uDec 8 .msbFirst, []) := by decide

/-- Width 1, an integer and both booleans. -/
theorem witness_IntegerEncodersWriteTheRemainderModuloTwoToTheWidth :
    ∀ p ∈ [(Value.int (-1), (-1 : Int)), (.bool true, 1), (.bool false, 0)],
      (1 : Nat) ≠ 0 ∧ (packing ⟨0x75, 1, .msbFirst⟩ [p.1]).wbits.length = (packing ⟨0x75, 1, .msbFirst⟩ [p.1]).cur ∧
      (packing ⟨0x75, 1, .msbFirst⟩ [p.1]).val[0]? = some p.1 ∧
      (p.1 = .int p.2 ∨ (p.1 = .bool true ∧ p.2 = 1) ∨ (p.1 = .bool false ∧ p.2 = 0)) := by decide

/-- A boolean, a non-zero integer and zero. -/
theorem witness_BooleanEncoderWritesZeroOrOne :
    (packing ⟨0x62, 1, .msbFirst⟩ [.bool true]).val[0]? = some (.bool true) ∧
    (packing ⟨0x62, 1, .msbFirst⟩ [.int (-1)]).val[0]? = some (.int (-1)) ∧ (true = true ↔ (-1 : Int) ≠ 0) ∧
    (packing ⟨0x62, 1, .msbFirst⟩ [.int 0]).val[0]? = some (.int 0) ∧ (false = true ↔ (0 : Int) ≠ 0) ∧
    (packing ⟨0x62, 1, .msbFirst⟩ [.int 0]).wbits.length = (packing ⟨0x62, 1, .msbFirst⟩ [.int 0]).cur := by decide

/-- The real 1.0 has a NARROW32. The answer for 0.1, which binary32 cannot hold, is the free one, so that no data meets the
third clause for certain: it says what happens if the free answer is a failure. -/
theorem witness_FloatEncoderWritesThePattern :
    (packing ⟨0x66, 32, .msbFirst⟩ [.real 0x3FF0000000000000]).wbits.length =
      (packing ⟨0x66, 32, .msbFirst⟩ [.real 0x3FF0000000000000]).cur ∧
    (packing ⟨0x66, 32, .msbFirst⟩ [.real 0x3FF0000000000000]).val[0]? = some (.real 0x3FF0000000000000) ∧
    narrow32 0x3FF0000000000000 = some 0x3F800000 ∧
    (narrow32 0x3FB999999999999A = none ↔ Config.narrowInexact 0x3FB999999999999A = none) := by
  refine ⟨rfl, rfl, by decide, ?_⟩
  rw [show narrow32 0x3FB999999999999A = Config.narrowInexact 0x3FB999999999999A from rfl]

/-- `t` and `r` with exactly the field's bits, with one bit less, and a text with a surrogate. -/
theorem witness_TextAndRawEncodersWriteTheFirstBits :
    (packing ⟨0x74, 16, .msbFirst⟩ [.text [0x48, 0x69]]).val[0]? = some (.text [0x48, 0x69]) ∧
    utf8Encode [0x48, 0x69] = some [0x48, 0x69] ∧ 16 ≤ 8 * ([0x48, 0x69] : List Byte).length ∧
    8 * ([0x48, 0x69] : List Byte).length < 17 ∧ utf8Encode [0xD800] = none ∧
    (packing ⟨0x72, 16, .msbFirst⟩ [.bytes [0xAB, 0xCD]]).val[0]? = some (.bytes [0xAB, 0xCD]) ∧
    (packing ⟨0x72, 16, .msbFirst⟩ [.bytes [0xAB, 0xCD]]).wbits.length =
      (packing ⟨0x72, 16, .msbFirst⟩ [.bytes [0xAB, 0xCD]]).cur := by decide

theorem witness_PaddingWritesZerosAndSkipsBits : (1 : Nat) ≠ 0 ∧
    (packing ⟨0x70, 1, .msbFirst⟩ []).wbits.length = (packing ⟨0x70, 1, .msbFirst⟩ []).cur := by decide

/-- An integer for `f`, a text for `r`, a real for `b`. -/
theorem witness_OperandsOfAnotherTagAreCoercionErrors :
    ∀ p ∈ [(Kind.f, Value.int 1), (.r, .text []), (.b, .real 0), (.u, .bytes []), (.s, .text []), (.t, .bool true)],
      p.1 ≠ .p ∧ (p.1.instr .enc 32 .lsbFirst).wf = true ∧ accepts p.1 p.2 = false ∧
      (packing ⟨0x66, 32, .msbFirst⟩ [p.2]).val[0]? = some p.2 := by decide

/-- The last 8 bits of two bytes. Also for the signed, the boolean and the raw decoder. -/
theorem witness_UnsignedDecoderGivesTheValueOfTheBits : (8 : Nat) ≠ 0 ∧
    (unpacking ⟨0x75, 8, .msbFirst⟩ [0x80, 1] 8).cur + 8 ≤ (unpacking ⟨0x75, 8, .msbFirst⟩ [0x80, 1] 8).totalBits := by
  decide

theorem witness_SignedDecoderGivesTheTwosComplementNumber : (1 : Nat) ≠ 0 ∧
    (unpacking ⟨0x73, 1, .msbFirst⟩ [0x80] 7).cur + 1 ≤ (unpacking ⟨0x73, 1, .msbFirst⟩ [0x80] 7).totalBits := by decide

theorem witness_BooleanDecoderGivesWhetherABitIsSet : (8 : Nat) ≠ 0 ∧
    (unpacking ⟨0x62, 8, .lsbFirst⟩ [0x80] 0).cur + 8 ≤ (unpacking ⟨0x62, 8, .lsbFirst⟩ [0x80] 0).totalBits := by decide

theorem witness_FloatDecoderGivesThePattern :
    (unpacking ⟨0x66, 64, .msbFirst⟩ [0, 0, 0, 0, 0, 0, 0, 0] 0).cur + 64 ≤
      (unpacking ⟨0x66, 64, .msbFirst⟩ [0, 0, 0, 0, 0, 0, 0, 0] 0).totalBits ∧
    (unpacking ⟨0x66, 32, .msbFirst⟩ [0, 0, 0, 0] 0).cur + 32 ≤
      (unpacking ⟨0x66, 32, .msbFirst⟩ [0, 0, 0, 0] 0).totalBits := by decide

theorem witness_RawDecoderGivesZeroFilledBytes : (12 : Nat) ≠ 0 ∧
    (unpacking ⟨0x72, 12, .lsbFirst⟩ [0x3D, 0x50] 4).cur + 12 ≤
      (unpacking ⟨0x72, 12, .lsbFirst⟩ [0x3D, 0x50] 4).totalBits := by decide

/-- `t12` on `48 60`, and `t8` on `C3`, whose byte no text encodes to. -/
theorem witness_TextDecoderGivesTheTextOrDecodeError :
    ((unpacking ⟨0x74, 12, .msbFirst⟩ [0x48, 0x60] 0).cur + 12 ≤
        (unpacking ⟨0x74, 12, .msbFirst⟩ [0x48, 0x60] 0).totalBits ∧
      ([0x48, 0x60] : List Byte).length = (12 + 7) / 8 ∧
      bytesToBits [0x48, 0x60] = fieldBits 12 .msbFirst (unpacking ⟨0x74, 12, .msbFirst⟩ [0x48, 0x60] 0) ++
        List.replicate (8 * 2 - 12) false ∧
      utf8Encode [0x48, 0x60] = some [0x48, 0x60]) ∧
    (bytesToBits [0xC3] = fieldBits 8 .msbFirst (unpacking ⟨0x74, 8, .msbFirst⟩ [0xC3] 0) ++
        List.replicate (8 * 1 - 8) false ∧
      utf8Decode [0xC3] = none) := by decide

/-- The second clause of `TextDecoderGivesTheTextOrDecodeError`: no text encodes to the byte `C3`. -/
theorem witness_NoTextEncodesToC3 : ∀ t, utf8Encode t ≠ some [0xC3] := by
  intro t h
  cases t with
  | nil => simp [utf8Encode] at h
  | cons c cs =>
    simp only [utf8Encode, utf8EncodeOne] at h
    split_ifs at h with h0 h1 h2 h3 h4 h5 <;> cases he : utf8Encode cs <;> simp [he, byteOf] at h
    obtain ⟨h, -⟩ := h
    have h' := congrArg BitVec.toNat h
    simp at h'
    omega

/-- A field that ends one bit beyond the input. -/
theorem witness_ReadsBeyondTheInputAreInsufficientInput :
    Kind.t ≠ .p ∧ (Kind.t.instr .dec 9 .msbFirst).wf = true ∧
    (unpacking ⟨0x74, 9, .msbFirst⟩ [0] 0).totalBits < (unpacking ⟨0x74, 9, .msbFirst⟩ [0] 0).cur + 9 := by decide

/-- `u0`, `f33` in both directions, `X8`. -/
theorem witness_IllFormedFieldsAreFormatErrors :
    ∀ p ∈ [(Instr.uEnc 0 .lsbFirst, FieldSpec.mk 0x75 0 .lsbFirst), (.fEnc 33 .msbFirst, ⟨0x66, 33, .msbFirst⟩),
        (.fDec 63 .msbFirst, ⟨0x66, 63, .msbFirst⟩), (.pDec 0 .msbFirst, ⟨0x70, 0, .msbFirst⟩),
        (.illegalUpperX 8 .msbFirst, ⟨0x58, 8, .msbFirst⟩)],
      p.1.fieldSpec = some p.2 ∧ p.1.wf = false := by decide

/-- `A` and `U`. -/
theorem witness_IllegalLettersCompileAndFailWhenExecuted :
    (isLetter 0x41 = true ∧ ∀ k : Kind, k.letter ≠ 0x41) ∧ (isLetter 0x55 = true ∧ ∀ k : Kind, k.letter ≠ 0x55) := by
  refine ⟨⟨by decide, fun k => ?_⟩, by decide, fun k => ?_⟩ <;> cases k <;> decide

/-- `u8` under PACK; the second field of an UNPACK, `u8` and padding, where CUR is 8 and WBITS is empty. All complete, with
the call still BUSY. -/
theorem witness_FieldInstructionsChangeOnlyTheirOwnRegisters :
    ((Instr.uEnc 8 .msbFirst).fieldSpec = some ⟨0x75, 8, .msbFirst⟩ ∧
      ((Instr.uEnc 8 .msbFirst).dir = .enc → (packing ⟨0x75, 8, .msbFirst⟩ [.int 1]).wbits.length =
        (packing ⟨0x75, 8, .msbFirst⟩ [.int 1]).cur) ∧
      seen (·.phase) (exec (.uEnc 8 .msbFirst) (packing ⟨0x75, 8, .msbFirst⟩ [.int 1])) = some .busy) ∧
    ∀ p ∈ [(Instr.uDec 8 .msbFirst, FieldSpec.mk 0x75 8 .msbFirst), (.pDec 8 .msbFirst, ⟨0x70, 8, .msbFirst⟩)],
      p.1.fieldSpec = some p.2 ∧ (unpacking p.2 [0, 1] 8).phase = .busy ∧ (unpacking p.2 [0, 1] 8).cur = 8 ∧
      (unpacking p.2 [0, 1] 8).wbits = [] ∧
      (p.1.dir = .enc → (unpacking p.2 [0, 1] 8).wbits.length = (unpacking p.2 [0, 1] 8).cur) ∧
      seen (·.phase) (exec p.1 (unpacking p.2 [0, 1] 8)) = some .busy := by decide

/-- An illegal letter, and the group `0`. -/
theorem witness_AnInstructionThatEndsACallLeavesOnlyItsStatus :
    seen (·.phase) (exec (.illegalLowerX 8 .msbFirst) (packing ⟨0x78, 8, .msbFirst⟩ [.int 1])) = some .idle ∧
    seen (·.phase) (exec .byteswapGroup0 (swapping [.char 0x30] [1] 0)) = some .idle := by decide

/-- Without a cached table; with one; above a capacity. -/
theorem witness_CommandsBeginByCompiling :
    (within (scanning .pack [0x75, 0x38]).params.maxFmtLen 2 &&
      within (scanning .pack [0x75, 0x38]).params.maxValues 0) = true ∧
    cached (scanning .pack [0x75, 0x38]) = none ∧
    cached { scanning .unpack [0x75, 0x38] with
      params := { Params.unbounded with memo := true }
      cache := [([0x75, 0x38], [⟨0x75, 8, .msbFirst⟩])] } = some [⟨0x75, 8, .msbFirst⟩] ∧
    (let s := { scanning .calcsize [0x75, 0x38] with params := { Params.unbounded with maxFmtLen := some 1 } }
     within s.params.maxFmtLen s.fmt.length = false) ∧
    (let s := { scanning .calcsize [0x75, 0x38] with params := { Params.unbounded with maxFmtLen := some 2 } }
     within s.params.maxFmtLen s.fmt.length = true) := by decide

/-- One value for two fields; two values for two fields. -/
theorem witness_PackChecksArityBeforeAnyField :
    ∀ v ∈ [[Value.int 1], [.int 1, .int 2]],
      let s := { scanning .pack [] with spec := [⟨0x75, 8, .msbFirst⟩, ⟨0x78, 0, .msbFirst⟩], val := v }
      s.resetIn = false ∧ s.phase = .busy ∧ s.stage = .compile ∧ s.op = .pack ∧ s.fmt.drop s.si = [] ∧
      specFits s.params s.spec = true ∧ within s.params.maxDataBytes (byteCount (calcsizeOf s.spec)) = true ∧
      (s.val.length < valueCount s.spec ∨ valueCount s.spec ≤ s.val.length) := by decide

/-- 9 bits of 8; 9 bits of 16. -/
theorem witness_UnpackChecksSizeBeforeAnyField :
    ∀ y ∈ [([0] : List Byte), [0, 0]],
      let s := { scanning .unpack [] with spec := [⟨0x75, 8, .msbFirst⟩, ⟨0x78, 1, .msbFirst⟩], data := y }
      s.resetIn = false ∧ s.phase = .busy ∧ s.stage = .compile ∧ s.op = .unpack ∧ s.fmt.drop s.si = [] ∧
      specFits s.params s.spec = true ∧ (8 * s.data.length < calcsizeOf s.spec ∨ calcsizeOf s.spec ≤ 8 * s.data.length)
    := by decide

/-- One bit written. -/
theorem witness_PackEndsWithTheZeroPaddedBytes :
    let s := { packing ⟨0x75, 1, .msbFirst⟩ [.int 1] with fi := 1, vi := 1, cur := 1, wbits := [true] }
    s.resetIn = false ∧ s.phase = .busy ∧ s.stage = .fields ∧ s.op = .pack ∧ s.fi = s.spec.length ∧
    s.wbits.length = s.cur := by decide

theorem witness_UnpackEndsWithTheDecodedValues :
    let s := { unpacking ⟨0x75, 1, .msbFirst⟩ [0x80] 1 with fi := 1, outv := [.int 1] }
    s.resetIn = false ∧ s.phase = .busy ∧ s.stage = .fields ∧ s.op = .unpack ∧ s.fi = s.spec.length := by decide

/-- Above the capacity; a character that is no digit; an offset beyond the data; an offset at its end. -/
theorem witness_ByteswapChecksItsOperandsInOrder :
    (let s := { swapping [] [1, 2] 0 with params := { Params.unbounded with maxDataBytes := some 1 } }
     within s.params.maxDataBytes s.data.length = false) ∧
    within (swapping [.char 0x78] [1, 2] 0).params.maxDataBytes 2 = true ∧
    (GroupElem.char 0x78 ∈ (swapping [.char 0x78] [1, 2] 0).groups ∧ isDigit 0x78 = false) ∧
    (∀ c ∈ (swapping [.char 0x39, .char 0x30, .nat 12] [1, 2] 0).groups, c ≠ .char 0x78) ∧
    (isDigit 0x39 = true ∧ isDigit 0x30 = true) ∧
    (swapping [] [1, 2] 3).data.length < (swapping [] [1, 2] 3).offset ∧
    (swapping [] [1, 2] 2).offset ≤ (swapping [] [1, 2] 2).data.length := by decide

/-- The third hypothesis of `ByteswapChecksItsOperandsInOrder`, on `"90"` and a number. -/
theorem witness_EveryGroupCharacterIsADigit :
    ∀ c, GroupElem.char c ∈ (swapping [.char 0x39, .char 0x30, .nat 12] [1, 2] 0).groups → isDigit c = true := by
  simp [swapping, isDigit]

/-- The group `9` one byte short, and exactly fitting. -/
theorem witness_GroupCharactersReverseTheirBytes :
    (Instr.byteswapGroup9, 9) ∈ groupSizes ∧ (Instr.byteswapGroup0, 0) ∈ groupSizes ∧ (9 : Nat) ≠ 0 ∧
    (swapping [] [1, 2, 3, 4, 5, 6, 7, 8, 9] 1).data.length < (swapping [] [1, 2, 3, 4, 5, 6, 7, 8, 9] 1).bi + 9 ∧
    (swapping [] [1, 2, 3, 4, 5, 6, 7, 8, 9] 0).bi + 9 ≤ (swapping [] [1, 2, 3, 4, 5, 6, 7, 8, 9] 0).data.length := by
  decide

/-- Nothing left, and one byte left. -/
theorem witness_ByteswapEndsWithTheSwappedBytes :
    ∀ i ∈ [1, 2],
      let s := swapping [] [1, 2] i
      s.resetIn = false ∧ s.phase = .busy ∧ s.stage = .swap ∧ s.gi = s.groups.length ∧
      (s.bi = s.data.length ∨ s.bi < s.data.length) := by decide

/-- One idle state for each of the four commands, with a second command waiting. -/
theorem witness_RunsToTheResponse :
    ∀ op ∈ [(0 : BitVec 2), 1, 2, 3],
      let s := { State.reset with port := [bareCommand op, bareCommand 0] }
      s.resetIn = false ∧ s.phase = .idle ∧ s.port = bareCommand op :: [bareCommand 0] ∧ (bareCommand op).op = op ∧
      (∀ e ∈ s.cache, e.2 = compile e.1) ∧ within s.params.maxFmtLen (bareCommand op).fmt.length = true ∧
      specFits s.params (compile (bareCommand op).fmt) = true := by decide

theorem witness_PackRunsToTheResponseOfItsFunction :
    (presented (bareCommand 0)).phase = .idle ∧ (presented (bareCommand 0)).port = [bareCommand 0] ∧
    (presented (bareCommand 0)).resetIn = false ∧ (bareCommand 0).op = 0 ∧
    ∀ e ∈ (presented (bareCommand 0)).cache, e.2 = compile e.1 := by decide

theorem witness_UnpackRunsToTheResponseOfItsFunction :
    (presented (bareCommand 1)).phase = .idle ∧ (presented (bareCommand 1)).port = [bareCommand 1] ∧
    (presented (bareCommand 1)).resetIn = false ∧ (bareCommand 1).op = 1 ∧
    ∀ e ∈ (presented (bareCommand 1)).cache, e.2 = compile e.1 := by decide

/-- `f33` inside the capacities, at MAX_WIDTH, and one above MAX_FMT_LEN, MAX_FIELDS and MAX_WIDTH. -/
theorem witness_CalcsizeRunsToTheSumOfTheWidths :
    let c : Command := { bareCommand 2 with fmt := [0x66, 0x33, 0x33] }
    ((presented c).phase = .idle ∧ (presented c).port = [c] ∧ (presented c).resetIn = false ∧ c.op = 2 ∧
      ∀ e ∈ (presented c).cache, e.2 = compile e.1) ∧
    (within (presented c).params.maxFmtLen c.fmt.length = true ∧ specFits (presented c).params (compile c.fmt) = true) ∧
    specFits { Params.unbounded with maxWidth := some 33 } (compile c.fmt) = true ∧
    within ({ Params.unbounded with maxFmtLen := some 2 }).maxFmtLen c.fmt.length = false ∧
    specFits { Params.unbounded with maxFields := some 0 } (compile c.fmt) = false ∧
    specFits { Params.unbounded with maxWidth := some 32 } (compile c.fmt) = false := by decide

theorem witness_ByteswapRunsToTheResponseOfItsFunction :
    let c : Command := { bareCommand 3 with groups := [.nat 12, .char 0x31] }
    (presented c).phase = .idle ∧ (presented c).port = [c] ∧ (presented c).resetIn = false ∧ c.op = 3 := by decide

/-- Two machines, one of them with a response of an earlier call and a filled cache. -/
theorem witness_ResponsesDependOnTheInputsOfTheCallAlone :
    let s1 := presented (bareCommand 0)
    let s2 := { State.reset with
      port := [bareCommand 0, bareCommand 2], response := some (.error .arityError)
      cache := [([0x75, 0x38], [⟨0x75, 8, .msbFirst⟩])] }
    s1.resetIn = false ∧ s2.resetIn = false ∧ s1.phase = .idle ∧ s2.phase = .idle ∧ s1.port = [bareCommand 0] ∧
    s2.port = bareCommand 0 :: [bareCommand 2] ∧ (∀ e ∈ s1.cache, e.2 = compile e.1) ∧
    (∀ e ∈ s2.cache, e.2 = compile e.1) ∧ s1.params = s2.params := by decide

/-- `pack("u3", INT(5))` → `A0`. -/
theorem witness_PackOutputHasTheSizeOfItsFormat :
    packCall Params.unbounded [0x75, 0x33] [.int 5] = .ok (.bytes [0xA0]) := by decide

/-- `pack("t8", TEXT("é"))` → `C3`, which unpacks to *decode error*; and a call that unpacks to its values. -/
theorem witness_UnpackOfPackGivesTheValuesBack :
    packCall Params.unbounded [0x74, 0x38] [.text [0xE9]] = .ok (.bytes [0xC3]) ∧
    packCall Params.unbounded [0x75, 0x33] [.int 5] = .ok (.bytes [0xA0]) := by decide

theorem witness_PackIgnoresSurplusValues : Params.unbounded.maxValues = none ∧
    valueCount (compile [0x75, 0x33]) ≤ [Value.int 5].length := by decide

/-- `u4` on `AB` and on `A0 FF`. -/
theorem witness_UnpackIgnoresSurplusBits : Params.unbounded.maxDataBytes = none ∧
    calcsizeOf (compile [0x75, 0x34]) ≤ 8 * ([0xAB] : List Byte).length ∧
    calcsizeOf (compile [0x75, 0x34]) ≤ 8 * ([0xA0, 0xFF] : List Byte).length ∧
    (bytesToBits [0xAB]).take (calcsizeOf (compile [0x75, 0x34])) =
      (bytesToBits [0xA0, 0xFF]).take (calcsizeOf (compile [0x75, 0x34])) := by decide

/-- `"22"` on five bytes from offset 1. -/
theorem witness_ByteswapTwiceIsTheIdentity :
    byteswapCall Params.unbounded [.char 0x32, .char 0x32] [1, 2, 3, 4, 5] 1 = .ok (.bytes [3, 2, 5, 4]) := by decide

theorem witness_IntegersRoundTripModuloTwoToTheWidth : (1 : Nat) ≠ 0 := by decide

/-- The smallest subnormal of binary32, its largest number, minus zero; an infinity; a NaN. -/
theorem witness_NarrowIsExactOnRepresentableReals :
    (∀ p ∈ [((0x36A0000000000000 : BitVec 64), (0x00000001 : BitVec 32)), (0x47EFFFFFE0000000, 0x7F7FFFFF),
        (0x8000000000000000, 0x80000000)],
      exp64 p.1 ≠ 2047 ∧ exp32 p.2 ≠ 255 ∧ sign64 p.1 = sign32 p.2 ∧ magnitude64 p.1 = magnitude32 p.2) ∧
    (exp64 0xFFF0000000000000 = 2047 ∧ frac64 0xFFF0000000000000 = 0 ∧ exp32 0xFF800000 = 255 ∧
      frac32 0xFF800000 = 0 ∧ sign64 0xFFF0000000000000 = sign32 0xFF800000) ∧
    isNaN64 0x7FF0000000000001 = true := by
  refine ⟨?_, by decide, by decide⟩
  simp only [List.forall_mem_cons, List.not_mem_nil, false_implies, implies_true, and_true]
  refine ⟨⟨by decide, by decide, by decide, ?_⟩, ⟨by decide, by decide, by decide, ?_⟩,
    by decide, by decide, by decide, ?_⟩
    <;> simp [magnitude64, magnitude32, exp64, exp32, frac64, frac32]
  · rw [show 925 = 52 + 873 from rfl, pow_add]; congr 1
  · rw [show 1149 = 224 + 925 from rfl, pow_add, ← mul_assoc]; congr 1

/-- The smallest subnormal, an infinity, a NaN. -/
theorem witness_WidenIsExactOnEveryNumber :
    exp32 0x00000001 ≠ 255 ∧ (exp32 0xFF800000 = 255 ∧ frac32 0xFF800000 = 0) ∧ isNaN32 0x7F800001 = true := by decide

/-- The ends of the rows of R168. -/
theorem witness_Utf8EncodingFollowsTheTable :
    (0x80 ≤ 0x7FF ∧ 0x7FF ≤ 0x7FF) ∧ (0x800 ≤ 0xFFFF ∧ 0xFFFF ≤ 0xFFFF ∧ ¬(0xD800 ≤ 0xFFFF ∧ 0xFFFF ≤ 0xDFFF)) ∧
    (0x10000 ≤ 0x10FFFF ∧ 0x10FFFF ≤ 0x10FFFF) ∧ (0xD800 ≤ 0xDFFF ∧ 0xDFFF ≤ 0xDFFF) ∧ 0x10FFFF < 0x110000 := by decide

/-- A write at the end of the buffer and one inside, and a state that reads what was written. -/
theorem witness_BufferReadsBackWhatWasWritten :
    ∀ cur ∈ [0, 2],
      let s := { State.reset with wbits := [true, false], cur := cur }
      let r := { State.reset with rbits := (writeBits [true, true, false] .lsbFirst s).wbits, cur := cur }
      s.cur ≤ s.wbits.length ∧ r.rbits = (writeBits [true, true, false] .lsbFirst s).wbits ∧ r.cur = s.cur ∧
      BitOrder.msbFirst ≠ .lsbFirst := by decide

/-- The last four bits of two bytes, which are zero. -/
theorem witness_BufferIsABigEndianInteger :
    12 + 4 ≤ 8 * ([0xAB, 0xC0] : List Byte).length ∧
    (∀ k ∈ [12, 13, 14, 15], (bytesToBits [0xAB, 0xC0])[k]? = some false) ∧
    12 + ([true, false, false, true] : Bits).length ≤ 8 * ([0xAB, 0xC0] : List Byte).length := by decide

theorem witness_ResetLeavesTheBlockBetweenCalls : { State.reset with resetIn := true }.resetIn = true := by decide

/-- The invariant holds after reset. -/
theorem reset_inv : Inv State.reset := by
  constructor <;> simp [CacheOk, betweenCalls, State.reset]

/-- It holds in the field loop of PACK, `u1` about to be executed. -/
theorem packing_inv : Inv { packing ⟨0x75, 1, .msbFirst⟩ [.int 1] with fmt := [0x75, 0x31] } := by
  constructor <;> simp [CacheOk, packing, State.reset, PackingOk] <;> decide

/-- It holds in the group loop of BYTESWAP, one byte of two swapped. -/
theorem swapping_inv : Inv { swapping [.char 0x31, .char 0x31] [1, 2] 0 with gi := 1, bi := 1, out := [1] } := by
  constructor <;> simp [CacheOk, swapping, State.reset, SwappingOk]
  decide

/-- The three states above have next states. -/
theorem witness_EveryStepKeepsTheInvariant :
    seen (·.phase) (step State.reset) = some .idle ∧
    seen (·.wbits) (step { packing ⟨0x75, 1, .msbFirst⟩ [.int 1] with fmt := [0x75, 0x31] }) = some [true] ∧
    seen (·.out) (step { swapping [.char 0x31, .char 0x31] [1, 2] 0 with gi := 1, bi := 1, out := [1] }) =
      some [1, 2] := by decide

theorem witness_EveryStepFromTheInvariantCompletes : Inv State.reset := reset_inv

theorem witness_TheLatchIsReadOnlyDuringACall :
    (packing ⟨0x75, 1, .msbFirst⟩ [.int 1]).resetIn = false ∧ (packing ⟨0x75, 1, .msbFirst⟩ [.int 1]).phase = .busy ∧
    seen (·.phase) (step (packing ⟨0x75, 1, .msbFirst⟩ [.int 1])) = some .busy := by decide

theorem witness_StepsKeepTheParametersAndTheCache : seen (·.params) (step State.reset) = some Params.unbounded ∧
    State.reset.resetIn = false := by decide

end Sys2Proof.Tests
end

section
/-! The invariant admits no stop (R12, R190, R194): each operation that a step can end in has a next state, under the
clause of `Inv` that its two faults would break. -/

namespace Sys2Proof.Machine

/-! ## The ends of a call -/

@[simp] theorem safe_next (t : State) : Safe (.next t) := ⟨t, rfl⟩

@[simp] theorem raise_safe (k : ErrorKind) (s : State) : Safe (raise k s) := safe_next _

@[simp] theorem refuse_safe (r : Reason) (s : State) : Safe (refuse r s) := safe_next _

@[simp] theorem finish_safe (p : Payload) (s : State) : Safe (finish p s) := safe_next _

/-! ## Commands -/

theorem execPack_safe (s : State) : Safe (execPack s) := by
  unfold execPack
  split <;> simp

theorem execUnpack_safe (s : State) : Safe (execUnpack s) := by
  unfold execUnpack
  split <;> simp

theorem execCalcsize_safe (s : State) : Safe (execCalcsize s) := by
  unfold execCalcsize
  split <;> simp

theorem execByteswap_safe (s : State) : Safe (execByteswap s) := by
  unfold execByteswap
  split_ifs <;> simp

/-- Every OP code selects a command that starts or is refused, whatever its operands (R97, R214). -/
theorem exec_decodeCommand_safe (op : BitVec 2) (s : State) : Safe (exec (decodeCommand op) s) := by
  unfold decodeCommand
  split
  · exact execPack_safe s
  · exact execUnpack_safe s
  · exact execCalcsize_safe s
  · exact execByteswap_safe s

theorem startPack_safe (s : State) : Safe (startPack s) := by
  rcases startPack_cases s with h | ⟨-, h⟩ | ⟨-, h⟩ <;> simp [h]

theorem startUnpack_safe (s : State) : Safe (startUnpack s) := by
  rcases startUnpack_cases s with ⟨-, h⟩ | ⟨-, h⟩ <;> simp [h]

/-- Only BYTESWAP has no compilation to end. -/
theorem finishCompile_safe {s : State} (h : s.op ≠ .byteswap) : Safe (finishCompile s) := by
  unfold finishCompile
  split
  · cases hop : s.op with
    | pack => exact startPack_safe _
    | unpack => exact startUnpack_safe _
    | calcsize => exact finish_safe _ _
    | byteswap => exact absurd hop h
  · exact refuse_safe _ _

/-! ## Fields -/

/-- R26: the field loop runs under PACK and UNPACK alone; its end has a next state there. -/
theorem finishFields_safe {s : State} {d : Dir} (h : dirOf s.op = some d) : Safe (finishFields s) := by
  unfold finishFields
  cases hop : s.op with
  | pack => exact finish_safe _ _
  | unpack => exact finish_safe _ _
  | calcsize => simp [hop, dirOf] at h
  | byteswap => simp [hop, dirOf] at h

theorem packField_safe {k : Kind} {w : Nat} {o : BitOrder} {enc : Value → Except ErrorKind Bits} {s : State}
    (hv : s.vi < s.val.length) : Safe (packField k w o enc s) := by
  rcases packField_cases k w o enc s with ⟨-, h⟩ | ⟨-, hnone, -⟩ | ⟨_, _, -, -, -, h⟩ | ⟨_, _, -, -, -, h⟩
  · simp [h]
  · exact absurd (List.getElem?_eq_none_iff.mp hnone) (by omega)
  · simp [h]
  · simp [h]

theorem unpackField_safe (k : Kind) (w : Nat) (o : BitOrder) (dec : Bits → Except ErrorKind Value) (s : State) :
    Safe (unpackField k w o dec s) := by
  rcases unpackField_cases k w o dec s with ⟨-, h⟩ | ⟨-, -, h⟩ | ⟨_, -, -, -, h⟩ | ⟨_, -, -, -, h⟩ <;> simp [h]

theorem execPEnc_safe (w : Nat) (o : BitOrder) (s : State) : Safe (execPEnc w o s) := by
  unfold execPEnc
  split <;> simp

theorem execPDec_safe (w : Nat) (o : BitOrder) (s : State) : Safe (execPDec w o s) := by
  unfold execPDec
  split <;> simp

theorem fieldMeaning_enc_of_ne_padding {k : Kind} (hk : k ≠ .p) (w : Nat) (o : BitOrder) (s : State) :
    fieldMeaning k .enc w o s = packField k w o (encodeKind k w) s := by
  cases k
  case p => exact absurd rfl hk
  all_goals rfl

theorem fieldMeaning_dec_of_ne_padding {k : Kind} (hk : k ≠ .p) (w : Nat) (o : BitOrder) (s : State) :
    fieldMeaning k .dec w o s = unpackField k w o (decodeKind k w) s := by
  cases k
  case p => exact absurd rfl hk
  all_goals rfl

/-- A field of PACK has a next state when it is padding or a value is left for it (R194). -/
theorem fieldMeaning_enc_safe {k : Kind} {s : State} (hv : k ≠ .p → s.vi < s.val.length) (w : Nat) (o : BitOrder) :
    Safe (fieldMeaning k .enc w o s) := by
  by_cases hk : k = .p
  · subst hk; exact execPEnc_safe w o s
  · rw [fieldMeaning_enc_of_ne_padding hk]; exact packField_safe (hv hk)

/-- A field of UNPACK always has a next state (R204). -/
theorem fieldMeaning_dec_safe (k : Kind) (w : Nat) (o : BitOrder) (s : State) : Safe (fieldMeaning k .dec w o s) := by
  by_cases hk : k = .p
  · subst hk; exact execPDec_safe w o s
  · rw [fieldMeaning_dec_of_ne_padding hk]; exact unpackField_safe k w o _ s

/-- A value-carrying entry counts: fewer of them stand before it than in the whole table (R116). -/
theorem valueCount_take_lt {l : List FieldSpec} {i : Nat} {f : FieldSpec} (hf : l[i]? = some f)
    (hp : f.isPadding = false) : valueCount (l.take i) < valueCount l := by
  have hle := valueCount_take_le l (i + 1)
  rw [take_succ_of_getElem? hf, valueCount_append, valueCount_singleton, hp] at hle
  simpa using hle

/-- R194: `VAL[VI]` exists whenever a value-carrying field is reached. -/
theorem PackingOk.vi_lt {s : State} (h : PackingOk s) {f : FieldSpec} {k : Kind} (hf : s.spec[s.fi]? = some f)
    (hk : Kind.ofLetter f.kind = some k) (hp : k ≠ .p) : s.vi < s.val.length := by
  obtain ⟨-, hvi, hval⟩ := h
  have hlt := valueCount_take_lt hf (by rw [isPadding_of_kind hk]; simpa using hp)
  omega

/-! ## Groups -/

theorem swapGroup_safe (g : Nat) (s : State) : Safe (swapGroup g s) := by
  rcases swapGroup_cases g s with ⟨-, h⟩ | ⟨-, -, h⟩ | ⟨-, -, h⟩ <;> simp [h]

theorem finishSwap_safe (s : State) : Safe (finishSwap s) := by
  rcases finishSwap_cases s with ⟨-, h⟩ | ⟨-, h⟩ <;> simp [h]

/-! ## Steps -/

theorem step_idle_safe {s : State} (hr : s.resetIn = false) (hp : s.phase = .idle) : Safe (step s) := by
  cases hq : s.port with
  | nil => rw [step_idle hr hp hq]; exact safe_next s
  | cons c rest => rw [step_command hr hp hq]; exact exec_decodeCommand_safe _ _

theorem step_compile_safe {s : State} (hr : s.resetIn = false) (hp : s.phase = .busy) (hs : s.stage = .compile)
    (hop : s.op ≠ .byteswap) : Safe (step s) := by
  rcases step_compile_cases hr hp hs with ⟨-, h⟩ | ⟨_, _, _, -, h⟩ | ⟨_, _, _, _, -, -, -, h⟩ | ⟨_, _, -, -, -, h⟩
  · rw [h]; exact finishCompile_safe hop
  all_goals rw [h]; exact safe_next _

theorem step_swap_safe {s : State} (hr : s.resetIn = false) (hp : s.phase = .busy) (hs : s.stage = .swap) :
    Safe (step s) := by
  rcases step_swap_cases hr hp hs with ⟨-, h⟩ | ⟨_, _, -, -, h⟩ | ⟨_, g, -, -, h⟩
  · rw [h]; exact finishSwap_safe s
  · rw [h]; exact raise_safe _ s
  · rw [h]; exact swapGroup_safe g s

/-- A step of the field loop, given that the field at FI has a next state whatever its kind. -/
theorem step_fields_safe {s : State} {d : Dir} (hr : s.resetIn = false) (hp : s.phase = .busy)
    (hs : s.stage = .fields) (hd : dirOf s.op = some d)
    (hfield : ∀ f k, s.spec[s.fi]? = some f → Kind.ofLetter f.kind = some k →
      Safe (fieldMeaning k d f.width f.order s)) : Safe (step s) := by
  rcases step_fields_cases hr hp hs hd with ⟨-, h⟩ | ⟨_, -, -, h⟩ | ⟨f, k, hf, hk, h⟩
  · rw [h]; exact finishFields_safe hd
  · rw [h]; exact raise_safe _ s
  · rw [h]; exact hfield f k hf hk

/-- Settles O56: a case per loop of the engine, where `Inv` shuts out both faults. STAGE fits OP (`swapStage`,
`fieldStage`), and in PACK's field loop VAL has a value for the field at FI (`packing`). -/
theorem everyStepFromTheInvariantCompletes : Obligations.EveryStepFromTheInvariantCompletes := by
  intro s hinv
  cases hr : s.resetIn with
  | true => rw [step_reset hr]; exact safe_next _
  | false =>
    cases hp : s.phase with
    | idle => exact step_idle_safe hr hp
    | busy =>
      have hswap := hinv.swapStage hp
      cases hs : s.stage with
      | compile => exact step_compile_safe hr hp hs fun hop => by simp [hs, hop] at hswap
      | swap => exact step_swap_safe hr hp hs
      | fields =>
        cases hop : s.op with
        | pack =>
          refine step_fields_safe hr hp hs (d := .enc) (by rw [hop]; rfl) fun f k hf hk => ?_
          exact fieldMeaning_enc_safe (fun hk' => (hinv.packing hp hs hop).vi_lt hf hk hk') f.width f.order
        | unpack =>
          exact step_fields_safe hr hp hs (d := .dec) (by rw [hop]; rfl) fun f k _ _ =>
            fieldMeaning_dec_safe k f.width f.order s
        | calcsize => exact absurd hop (hinv.fieldStage hp hs)
        | byteswap => simp [hs, hop] at hswap

end Sys2Proof.Machine
end

section
/-! The bit buffer as one big-endian integer (R62): a window of the buffer splits its value into the part before, the
window and the part after, as digits in powers of two. -/

namespace Sys2Proof.Machine

/-- R62's `M` is the value of the buffer's bits. -/
theorem bufferInt_eq_valOf (y : List Byte) : bufferInt y = valOf (bytesToBits y) := by
  induction y using List.reverseRecOn with
  | nil => rfl
  | append_singleton y b ih =>
    have hb : b.toNat % 2 ^ 8 = b.toNat := Nat.mod_eq_of_lt b.isLt
    have hsnoc : bufferInt (y ++ [b]) = 256 * bufferInt y + b.toNat := by simp [bufferInt]
    rw [hsnoc, ih, bytesToBits_append, valOf_append, bytesToBits_cons, bytesToBits_nil, List.append_nil,
      valOf_bitsOf, bitsOf_length, hb]
    ring

theorem bufferInt_bitsToBytes {s : Bits} (h : s.length % 8 = 0) : bufferInt (bitsToBytes s) = valOf s := by
  rw [bufferInt_eq_valOf, bytesToBits_bitsToBytes s h]

theorem valOf_replicate_false (n : Nat) : valOf (List.replicate n false) = 0 := by
  induction n with
  | zero => rfl
  | succ n ih => simp [List.replicate_succ, valOf_cons, ih]

/-- A window splits the buffer into the bits before it, its own and the bits after it (R56). -/
theorem take_memRead_drop (buf : Bits) (p n : Nat) : buf.take p ++ memRead buf p n ++ buf.drop (p + n) = buf := by
  rw [List.append_assoc, memRead, ← List.drop_drop, List.take_append_drop, List.take_append_drop]

/-- Inside the buffer MemWrite replaces the window (R55). -/
theorem memWrite_inside {buf : Bits} {p : Nat} (s : Bits) (h : p ≤ buf.length) :
    memWrite buf p s = buf.take p ++ s ++ buf.drop (p + s.length) := by
  simp [memWrite, Nat.sub_eq_zero_of_le h]

theorem memWrite_length {buf s : Bits} {p : Nat} (h : p + s.length ≤ buf.length) :
    (memWrite buf p s).length = buf.length := by
  rw [memWrite_inside s (by omega)]
  simp only [List.length_append, List.length_take, List.length_drop]
  omega

/-- A buffer whose bits in a window are zero reads zeros there. -/
theorem memRead_eq_replicate_false {buf : Bits} {p n : Nat}
    (h : ∀ k, p ≤ k → k < p + n → buf[k]? = some false) : memRead buf p n = List.replicate n false := by
  refine List.ext_getElem? fun i => ?_
  rw [memRead, List.getElem?_take, List.getElem?_replicate]
  split
  · rw [List.getElem?_drop]
    exact h _ (by omega) (by omega)
  · rfl

/-- Extraction from a bit string of any length (R62). -/
theorem valOf_memRead {buf : Bits} {p n : Nat} (h : p + n ≤ buf.length) :
    valOf (memRead buf p n) = (valOf buf >>> (buf.length - p - n)) % 2 ^ n := by
  have hw : (memRead buf p n).length = n := memRead_length buf p n h
  have htail : (buf.drop (p + n)).length = buf.length - p - n := by simp; omega
  have hsplit : valOf buf = (valOf (buf.take p) * 2 ^ n + valOf (memRead buf p n)) * 2 ^ (buf.length - p - n)
      + valOf (buf.drop (p + n)) := by
    conv_lhs => rw [← take_memRead_drop buf p n, valOf_append, valOf_append, hw, htail]
  have hlow := valOf_lt (buf.drop (p + n))
  have hwin := valOf_lt (memRead buf p n)
  rw [htail] at hlow
  rw [hw] at hwin
  rw [Nat.shiftRight_eq_div_pow, hsplit, Nat.add_comm, Nat.add_mul_div_right _ _ (by positivity),
    Nat.div_eq_of_lt hlow, Nat.zero_add, Nat.mul_add_mod_of_lt hwin]

/-- Insertion into zeros in a bit string of any length (R62). -/
theorem valOf_memWrite {buf s : Bits} {p : Nat} (h : p + s.length ≤ buf.length)
    (hz : memRead buf p s.length = List.replicate s.length false) :
    valOf (memWrite buf p s) = valOf buf + valOf s <<< (buf.length - p - s.length) := by
  have htail : (buf.drop (p + s.length)).length = buf.length - p - s.length := by simp; omega
  have hbuf : valOf buf = valOf (buf.take p) * 2 ^ s.length * 2 ^ (buf.length - p - s.length)
      + valOf (buf.drop (p + s.length)) := by
    conv_lhs => rw [← take_memRead_drop buf p s.length, hz, valOf_append, valOf_append, valOf_replicate_false,
      List.length_replicate, htail, Nat.add_zero]
  rw [memWrite_inside s (by omega), valOf_append, valOf_append, htail, hbuf, Nat.shiftLeft_eq]
  ring

/-- Settles O51: both shift forms are those of bit strings, read through `bufferInt_eq_valOf`. -/
theorem bufferIsABigEndianInteger : Obligations.BufferIsABigEndianInteger := by
  intro y p
  refine ⟨fun n hn => ?_, fun b hb hz => ?_⟩
  · rw [shiftExtract, bufferInt_eq_valOf, valOf_memRead (by simpa using hn), bytesToBits_length]
  · have hin : p + b.length ≤ (bytesToBits y).length := by simpa using hb
    have hlen : (memWrite (bytesToBits y) p b).length = 8 * y.length := by
      rw [memWrite_length hin, bytesToBits_length]
    rw [bufferInt_bitsToBytes (by omega), valOf_memWrite hin (memRead_eq_replicate_false hz), shiftInsert,
      bufferInt_eq_valOf, bytesToBits_length]

end Sys2Proof.Machine
end

section
/-! The state between calls and the sources of a step: what reset gives, which instruction a step fetches, how the
commands that compile begin, and the codes of a response. -/

namespace Sys2Proof.Machine

/-! ## Between calls -/

/-- When IDLE the invariant asks for a valid cache and the registers of `betweenCalls` alone (R38, R72, R239). -/
theorem Inv.of_betweenCalls {s : State} (hc : CacheOk s) (h : s = betweenCalls s) : Inv s := by
  have hp : s.phase = .idle := by rw [h, betweenCalls_phase]
  constructor
  case cache => exact hc
  case idle => exact fun _ => h
  all_goals simp [hp]

theorem endCall_inv {s : State} (hc : CacheOk s) (r : Response) : Inv (endCall r s) :=
  .of_betweenCalls hc rfl

theorem resetEvent_inv (s : State) : Inv (resetEvent s) :=
  .of_betweenCalls (by simp [CacheOk]) rfl

/-- Settles O53: after reset by the fields of `State.reset`, under RSTIN by the step that takes the reset event. -/
theorem resetLeavesTheBlockBetweenCalls : Obligations.ResetLeavesTheBlockBetweenCalls :=
  ⟨⟨rfl, rfl, rfl⟩, fun _ h => step_reset h⟩

/-- Settles O54: this state is what the reset event makes of any state with these parameters and commands. -/
theorem invariantHoldsAfterReset : Obligations.InvariantHoldsAfterReset := fun p commands =>
  resetEvent_inv { State.reset with params := p, port := commands }

/-- Settles O59: the codes are read off the constructors; an error code lies between 1 and 5, so neither 0 nor 6. -/
theorem statusCodesAreThoseOfTheTable : Obligations.StatusCodesAreThoseOfTheTable := by
  refine ⟨fun p => ⟨rfl, rfl⟩, rfl, rfl, rfl, rfl, rfl, fun r => rfl, fun r => ?_⟩
  cases r with
  | ok p => simp [Response.status, Response.payload]
  | refused r => simp [Response.status, Response.payload]
  | error k => cases k <;> simp [Response.status, Response.payload, ErrorKind.code]

/-! ## Fetching -/

theorem step_scan {s : State} (h : s.resetIn = false) (hp : s.phase = .busy) (hs : s.stage = .compile) :
    step s = runFetched (fetchScan s) := by
  simp [step, fetch, h, hp, hs]

theorem step_field {s : State} (h : s.resetIn = false) (hp : s.phase = .busy) (hs : s.stage = .fields) :
    step s = runFetched (fetchField s) := by
  simp [step, fetch, h, hp, hs]

theorem step_group {s : State} (h : s.resetIn = false) (hp : s.phase = .busy) (hs : s.stage = .swap) :
    step s = runFetched (fetchSwap s) := by
  simp [step, fetch, h, hp, hs]

/-- What the scanner decodes: a character at which no plain group starts. -/
theorem decode_scan_ok {text after : List Byte} {i : Instr} (h : decode .scan text = .ok (i, after)) :
    ∃ c, text = c :: after ∧ plainGroupAt text = none ∧ i = decodeScanChar c after := by
  cases text with
  | nil => simp [decode] at h
  | cons c cs =>
    cases hg : plainGroupAt (c :: cs) with
    | some g => simp [decode, hg] at h
    | none =>
      simp only [decode, hg, Except.ok.injEq, Prod.mk.injEq] at h
      obtain ⟨rfl, rfl⟩ := h
      exact ⟨c, rfl, rfl, rfl⟩

/-- Settles O7: a clause per source of instructions. -/
theorem stepRunsTheInstructionItFetches : Obligations.StepRunsTheInstructionItFetches := by
  refine ⟨fun s c rest => step_command, fun s => step_idle, ?scan, ?field, ?group⟩
  case scan =>
    intro s i after hr hp hs hi
    obtain ⟨c, hd, hg, rfl⟩ := decode_scan_ok hi
    rw [hd] at hg
    simp [step_scan hr hp hs, fetchScan, hd, hg, runFetched]
  case field =>
    intro s d f i hr hp hs hd hf hi
    simp [step_field hr hp hs, fetchField, hd, hf, hi, runFetched]
  case group =>
    intro s c i hr hp hs hg hi
    simp [step_group hr hp hs, fetchSwap, hg, hi, runFetched]

theorem finishFields_unpack {s : State} (h : s.op = .unpack) : finishFields s = finish (.values s.outv) s := by
  simp [finishFields, h]

/-- Settles O31: at FI = n the field loop has no entry left, so the step is the loop's end. -/
theorem unpackEndsWithTheDecodedValues : Obligations.UnpackEndsWithTheDecodedValues := by
  intro s hr hp hs hop hfi
  have hend : s.spec[s.fi]? = none := List.getElem?_eq_none_iff.mpr hfi.ge
  have hdir : dirOf s.op = some .dec := by rw [hop]; rfl
  rcases step_fields_cases hr hp hs hdir with ⟨-, h⟩ | ⟨_, hf, -⟩ | ⟨_, _, hf, -⟩
  · rw [h, finishFields_unpack hop, finish_eq]
  · simp [hend] at hf
  · simp [hend] at hf

/-! ## The commands that compile -/

theorem beginCompile_of_cached {s : State} {table : List FieldSpec} (h : cached s = some table) :
    beginCompile s = { s with stage := .compile, spec := table, si := s.fmt.length, prev := .msbFirst } := by
  simp [beginCompile, h]

theorem beginCompile_of_not_cached {s : State} (h : cached s = none) :
    beginCompile s = { s with stage := .compile, spec := [], si := 0, prev := .msbFirst } := by
  simp [beginCompile, h]

/-- Settles O27: the three commands are one start, under a capacity check of their own. -/
theorem commandsBeginByCompiling : Obligations.CommandsBeginByCompiling := by
  intro i s fits hi
  have hstart : exec i s = if fits then .next (beginCompile s) else refuse .capacity s := by
    rcases hi with ⟨rfl, rfl⟩ | ⟨rfl, rfl⟩ | ⟨rfl, rfl⟩ <;> rfl
  refine ⟨fun hfits hc => ?_, fun hfits table hc => ?_, fun hfits => ?_⟩
  · rw [hstart, if_pos hfits, beginCompile_of_not_cached hc]
  · rw [hstart, if_pos hfits, beginCompile_of_cached hc]
  · rw [hstart, hfits]; rfl

end Sys2Proof.Machine
end

section
/-! What a step does to the registers (R21, R22, R26, R194, R204): one inversion lemma per operation that completes, and
from them the frame of the field instructions and of every step of a running call. -/

namespace Sys2Proof.Machine

/-! ## Fields -/

theorem execPEnc_next {w : Nat} {o : BitOrder} {s t : State} (h : execPEnc w o s = .next t) :
    (∃ r, t = endCall r s) ∨ t = advance (writeBits (encP w) o s) := by
  unfold execPEnc at h
  split at h <;> cases h
  · exact .inr rfl
  · exact .inl ⟨_, rfl⟩

theorem execPDec_next {w : Nat} {o : BitOrder} {s t : State} (h : execPDec w o s = .next t) :
    (∃ r, t = endCall r s) ∨ t = { s with cur := s.cur + w, fi := s.fi + 1 } := by
  unfold execPDec at h
  split at h <;> cases h
  · exact .inr rfl
  · exact .inl ⟨_, rfl⟩

/-- A field of PACK that has a next state ends the call or writes as many bits as the field is wide, taking a value
unless it is padding (R194). -/
theorem fieldMeaning_enc_next {k : Kind} {w : Nat} {o : BitOrder} {s t : State}
    (h : fieldMeaning k .enc w o s = .next t) :
    (∃ r, t = endCall r s) ∨ (∃ b : Bits, b.length = w ∧
      t = advance (writeBits b o { s with vi := if k = .p then s.vi else s.vi + 1 })) := by
  by_cases hk : k = .p
  · subst hk
    exact (execPEnc_next h).imp_right fun ht => ⟨encP w, by simp [encP], ht⟩
  · rw [fieldMeaning_enc_of_ne_padding hk] at h
    rcases packField_cases k w o (encodeKind k w) s with
      ⟨-, he⟩ | ⟨-, -, he⟩ | ⟨_, _, -, -, -, he⟩ | ⟨v, b, hw, -, hb, he⟩ <;> rw [he] at h <;> cases h
    · exact .inl ⟨_, rfl⟩
    · exact .inl ⟨_, rfl⟩
    · exact .inr ⟨b, encodeKind_length hw hb, by rw [if_neg hk]⟩

/-- The same where WBITS ends at CUR: the bits are appended (R29, R57). -/
theorem fieldMeaning_enc_next_append {k : Kind} {w : Nat} {o : BitOrder} {s t : State} (hend : s.wbits.length = s.cur)
    (h : fieldMeaning k .enc w o s = .next t) :
    (∃ r, t = endCall r s) ∨ (∃ b : Bits, b.length = w ∧ t = { s with
      fi := s.fi + 1, cur := s.cur + w, vi := if k = .p then s.vi else s.vi + 1, wbits := s.wbits ++ b }) := by
  refine (fieldMeaning_enc_next h).imp_right ?_
  rintro ⟨b, hb, rfl⟩
  refine ⟨inOrder o b, by simpa using hb, ?_⟩
  rw [writeBits_end b o { s with vi := if k = .p then s.vi else s.vi + 1 } hend, hb]
  rfl

/-- A field of UNPACK that has a next state ends the call or moves CUR over the field, giving a value unless it is
padding (R204). -/
theorem fieldMeaning_dec_next {k : Kind} {w : Nat} {o : BitOrder} {s t : State}
    (h : fieldMeaning k .dec w o s = .next t) :
    (∃ r, t = endCall r s) ∨ (∃ vs : List Value, vs.length = (if k = .p then 0 else 1) ∧
      t = { s with fi := s.fi + 1, cur := s.cur + w, outv := s.outv ++ vs }) := by
  by_cases hk : k = .p
  · subst hk
    exact (execPDec_next (o := o) h).imp_right fun ht => ⟨[], rfl, by simpa using ht⟩
  · rw [fieldMeaning_dec_of_ne_padding hk] at h
    rcases unpackField_cases k w o (decodeKind k w) s with
      ⟨-, he⟩ | ⟨-, -, he⟩ | ⟨_, -, -, -, he⟩ | ⟨v, -, -, -, he⟩ <;> rw [he] at h <;> cases h
    · exact .inl ⟨_, rfl⟩
    · exact .inl ⟨_, rfl⟩
    · exact .inl ⟨_, rfl⟩
    · exact .inr ⟨[v], by rw [if_neg hk]; rfl, rfl⟩

/-- Every field instruction is what its own entry decodes to under its own direction. -/
theorem decodeField_of_fieldSpec {i : Instr} {f : FieldSpec} (h : i.fieldSpec = some f) :
    decodeField i.dir f = some i := by
  cases i <;> cases h <;> rfl

/-- A field instruction of a running call that completes is one of the seven kinds, in its direction. -/
theorem exec_field_completes {i : Instr} {f : FieldSpec} {s t : State} (hf : i.fieldSpec = some f)
    (h : exec i s = .next t) (ht : t.phase = .busy) :
    ∃ k, f.isPadding = (k == .p) ∧ fieldMeaning k i.dir f.width f.order s = .next t := by
  rcases exec_decodeField (decodeField_of_fieldSpec hf) s with ⟨-, he⟩ | ⟨k, hk, he⟩
  · rw [he] at h
    cases h
    simp at ht
  · exact ⟨k, isPadding_of_kind hk, he ▸ h⟩

theorem busy_ne_endCall {t : State} (ht : t.phase = .busy) (r : Response) (s : State) : t ≠ endCall r s := by
  rintro rfl
  simp at ht

/-- Settles O25: by direction, from what a completed field of PACK and of UNPACK writes. -/
theorem fieldInstructionsChangeOnlyTheirOwnRegisters : Obligations.FieldInstructionsChangeOnlyTheirOwnRegisters := by
  intro i f s t hf _ hend h ht
  obtain ⟨k, hpad, hm⟩ := exec_field_completes hf h ht
  cases hd : i.dir with
  | enc =>
    rw [hd] at hm
    rcases fieldMeaning_enc_next_append (hend hd) hm with ⟨r, he⟩ | ⟨b, hb, rfl⟩
    · exact absurd he (busy_ne_endCall ht r s)
    · exact ⟨b, [], by by_cases hk : k = .p <;> simp [hpad, hk], by simp [hb], by simp⟩
  | dec =>
    rw [hd] at hm
    rcases fieldMeaning_dec_next hm with ⟨r, he⟩ | ⟨vs, hvs, rfl⟩
    · exact absurd he (busy_ne_endCall ht r s)
    · exact ⟨[], vs, by simp, by simp, by simp [hvs, hpad]⟩

/-! ## The start and the end of a compilation -/

theorem execPack_cases (s : State) : execPack s = .next (beginCompile s) ∨ execPack s = refuse .capacity s := by
  unfold execPack
  split
  · exact .inl rfl
  · exact .inr rfl

theorem execUnpack_cases (s : State) :
    execUnpack s = .next (beginCompile s) ∨ execUnpack s = refuse .capacity s := by
  unfold execUnpack
  split
  · exact .inl rfl
  · exact .inr rfl

theorem execCalcsize_cases (s : State) :
    execCalcsize s = .next (beginCompile s) ∨ execCalcsize s = refuse .capacity s := by
  unfold execCalcsize
  split
  · exact .inl rfl
  · exact .inr rfl

theorem execByteswap_cases (s : State) :
    (groupsConvert s.groups = true ∧ s.offset ≤ s.data.length ∧
      execByteswap s = .next { s with stage := .swap, gi := 0, bi := s.offset, out := [] }) ∨
    (∃ r, execByteswap s = .next (endCall r s)) := by
  unfold execByteswap
  split
  · split
    · split
      · exact .inr ⟨_, rfl⟩
      · exact .inl ⟨‹_›, by omega, rfl⟩
    · exact .inr ⟨_, rfl⟩
  · exact .inr ⟨_, rfl⟩

/-- A command starts a compilation or the group loop, or ends the call at once (R192, R201, R208, R211). -/
theorem exec_decodeCommand_cases (op : BitVec 2) (s : State) :
    (Op.ofCode op ≠ .byteswap ∧ exec (decodeCommand op) s = .next (beginCompile s)) ∨
    (Op.ofCode op = .byteswap ∧ groupsConvert s.groups = true ∧ s.offset ≤ s.data.length ∧
      exec (decodeCommand op) s = .next { s with stage := .swap, gi := 0, bi := s.offset, out := [] }) ∨
    (∃ r, exec (decodeCommand op) s = .next (endCall r s)) := by
  have hop : op = 0 ∨ op = 1 ∨ op = 2 ∨ op = 3 := by revert op; decide
  rcases hop with rfl | rfl | rfl | rfl
  · exact (execPack_cases s).imp (⟨by decide, ·⟩) fun h => .inr ⟨_, h⟩
  · exact (execUnpack_cases s).imp (⟨by decide, ·⟩) fun h => .inr ⟨_, h⟩
  · exact (execCalcsize_cases s).imp (⟨by decide, ·⟩) fun h => .inr ⟨_, h⟩
  · exact .inr ((execByteswap_cases s).imp_left (⟨rfl, ·⟩))

/-- What `memoize` stores is the compiled format (R72). -/
theorem memoize_appends (s : State) :
    ∃ new, (∀ e ∈ new, e = (s.fmt, s.spec)) ∧ memoize s = { s with cache := s.cache ++ new } := by
  rcases memoize_cases s with h | ⟨-, h⟩
  · exact ⟨[], by simp, by simp [h]⟩
  · exact ⟨[(s.fmt, s.spec)], by simp, h⟩

theorem finishCompile_cases (s : State) :
    (∃ r, finishCompile s = .next (endCall r s)) ∨
    (∃ r, finishCompile s = .next (endCall r (memoize s))) ∨
    (s.op = .pack ∧ finishCompile s = startPack (memoize s)) ∨
    (s.op = .unpack ∧ finishCompile s = startUnpack (memoize s)) ∨
    finishCompile s = .fault .stageMismatch := by
  unfold finishCompile
  split
  · cases hop : s.op with
    | pack => exact .inr (.inr (.inl ⟨rfl, rfl⟩))
    | unpack => exact .inr (.inr (.inr (.inl ⟨rfl, rfl⟩)))
    | calcsize => exact .inr (.inl ⟨_, rfl⟩)
    | byteswap => exact .inr (.inr (.inr (.inr rfl)))
  · exact .inl ⟨_, rfl⟩

theorem startPack_next {s t : State} (h : startPack s = .next t) :
    (∃ r, t = endCall r s) ∨ (valueCount s.spec ≤ s.val.length ∧
      t = { s with stage := .fields, fi := 0, vi := 0, cur := 0, wbits := [] }) := by
  rcases startPack_cases s with he | ⟨-, he⟩ | ⟨hv, he⟩ <;> rw [he] at h <;> cases h
  · exact .inl ⟨_, rfl⟩
  · exact .inl ⟨_, rfl⟩
  · exact .inr ⟨hv, rfl⟩

theorem startUnpack_next {s t : State} (h : startUnpack s = .next t) :
    (∃ r, t = endCall r s) ∨ (calcsizeOf s.spec ≤ 8 * s.data.length ∧
      t = { s with rbits := bytesToBits s.data, cur := 0, stage := .fields, fi := 0, outv := [] }) := by
  rcases startUnpack_cases s with ⟨-, he⟩ | ⟨hv, he⟩ <;> rw [he] at h <;> cases h
  · exact .inl ⟨_, rfl⟩
  · exact .inr ⟨hv, rfl⟩

/-- What follows a compilation that has a next state: the end of the call or a field loop (R192, R201, R208), with the
compiled format stored or not (R72). -/
theorem finishCompile_next {s t : State} (h : finishCompile s = .next t) :
    ∃ new, (∀ e ∈ new, e = (s.fmt, s.spec)) ∧
      ((∃ r, t = endCall r { s with cache := s.cache ++ new }) ∨
       (s.op = .pack ∧ valueCount s.spec ≤ s.val.length ∧ t = { s with
          cache := s.cache ++ new, stage := .fields, fi := 0, vi := 0, cur := 0, wbits := [] }) ∨
       (s.op = .unpack ∧ calcsizeOf s.spec ≤ 8 * s.data.length ∧ t = { s with
          cache := s.cache ++ new, rbits := bytesToBits s.data, cur := 0, stage := .fields, fi := 0, outv := [] })) := by
  obtain ⟨new, hnew, hmem⟩ := memoize_appends s
  rcases finishCompile_cases s with ⟨r, he⟩ | ⟨r, he⟩ | ⟨hop, he⟩ | ⟨hop, he⟩ | he <;> rw [he] at h
  · cases h
    exact ⟨[], by simp, .inl ⟨r, by rw [List.append_nil]⟩⟩
  · cases h
    exact ⟨new, hnew, .inl ⟨r, by rw [hmem]⟩⟩
  · rw [hmem] at h
    exact ⟨new, hnew, (startPack_next h).imp_right fun ⟨hv, ht⟩ => .inl ⟨hop, hv, ht⟩⟩
  · rw [hmem] at h
    exact ⟨new, hnew, (startUnpack_next h).imp_right fun ⟨hv, ht⟩ => .inr ⟨hop, hv, ht⟩⟩
  · cases h

/-! ## The ends of the loops, and a group -/

theorem finishFields_next {s t : State} (h : finishFields s = .next t) : ∃ r, t = endCall r s := by
  unfold finishFields at h
  split at h <;> cases h
  · exact ⟨_, rfl⟩
  · exact ⟨_, rfl⟩

theorem finishSwap_next {s t : State} (h : finishSwap s = .next t) : ∃ r, t = endCall r s := by
  rcases finishSwap_cases s with ⟨-, he⟩ | ⟨-, he⟩ <;> rw [he] at h <;> cases h
  · exact ⟨_, rfl⟩
  · exact ⟨_, rfl⟩

theorem raise_next {k : ErrorKind} {s t : State} (h : raise k s = .next t) : ∃ r, t = endCall r s := by
  cases h
  exact ⟨_, rfl⟩

/-- A turn of the group loop ends the call or moves its group from DATA to OUT (R211). -/
theorem swapGroup_next {g : Nat} {s t : State} (h : swapGroup g s = .next t) :
    (∃ r, t = endCall r s) ∨ (s.bi + g ≤ s.data.length ∧ t = { s with
      out := s.out ++ ((s.data.drop s.bi).take g).reverse, bi := s.bi + g, gi := s.gi + 1 }) := by
  rcases swapGroup_cases g s with ⟨-, he⟩ | ⟨-, -, he⟩ | ⟨-, hg, he⟩ <;> rw [he] at h <;> cases h
  · exact .inl ⟨_, rfl⟩
  · exact .inl ⟨_, rfl⟩
  · exact .inr ⟨hg, rfl⟩

end Sys2Proof.Machine
end

section
/-! The frame of a step (R21, R22, R33, R37): what no step writes, and what no step of a running call writes. -/

namespace Sys2Proof.Machine

/-- What a running call keeps: the latch, the parameters, the caller's queue, RSTIN and the pending response. -/
def latched (s : State) : Op × List Byte × List Value × List Byte × List GroupElem × Nat × Params × List Command × Bool ×
    Option Response :=
  (s.op, s.fmt, s.val, s.data, s.groups, s.offset, s.params, s.port, s.resetIn, s.response)

/-- The frame of a step of a running call: the parameters stay, the cache grows, the latch stays while the call runs. -/
structure CallFrame (s t : State) : Prop where
  params : t.params = s.params
  cache  : ∃ new, t.cache = s.cache ++ new
  latch  : t.phase = .busy → latched t = latched s

theorem CallFrame.of_endCall {s t : State} {r : Response} {new : List (List Byte × List FieldSpec)}
    (h : t = endCall r { s with cache := s.cache ++ new }) : CallFrame s t := by
  subst h
  exact ⟨rfl, ⟨new, rfl⟩, fun hp => by simp at hp⟩

theorem CallFrame.of_endCall_same_cache {s t : State} (h : ∃ r, t = endCall r s) : CallFrame s t := by
  obtain ⟨r, rfl⟩ := h
  exact .of_endCall (r := r) (new := []) (by rw [List.append_nil])

theorem CallFrame.of_latched {s t : State} (h : latched t = latched s) {new : List (List Byte × List FieldSpec)}
    (hc : t.cache = s.cache ++ new) : CallFrame s t := by
  refine ⟨?_, ⟨new, hc⟩, fun _ => h⟩
  simp only [latched, Prod.mk.injEq] at h
  obtain ⟨-, -, -, -, -, -, hparams, -⟩ := h
  exact hparams

theorem CallFrame.of_latched_same_cache {s t : State} (h : latched t = latched s) (hc : t.cache = s.cache) :
    CallFrame s t :=
  .of_latched h (new := []) (by rw [hc, List.append_nil])

theorem finishCompile_frame {s t : State} (h : finishCompile s = .next t) : CallFrame s t := by
  obtain ⟨new, -, ⟨r, ht⟩ | ⟨-, -, rfl⟩ | ⟨-, -, rfl⟩⟩ := finishCompile_next h
  · exact .of_endCall ht
  · exact .of_latched rfl rfl
  · exact .of_latched rfl rfl

theorem fieldMeaning_frame {k : Kind} {d : Dir} {w : Nat} {o : BitOrder} {s t : State}
    (h : fieldMeaning k d w o s = .next t) : CallFrame s t := by
  cases d with
  | enc =>
    rcases fieldMeaning_enc_next h with he | ⟨b, -, rfl⟩
    · exact .of_endCall_same_cache he
    · exact .of_latched_same_cache rfl rfl
  | dec =>
    rcases fieldMeaning_dec_next h with he | ⟨vs, -, rfl⟩
    · exact .of_endCall_same_cache he
    · exact .of_latched_same_cache rfl rfl

theorem swapGroup_frame {g : Nat} {s t : State} (h : swapGroup g s = .next t) : CallFrame s t := by
  rcases swapGroup_next h with he | ⟨-, rfl⟩
  · exact .of_endCall_same_cache he
  · exact .of_latched_same_cache rfl rfl

theorem step_compile_frame {s t : State} (hr : s.resetIn = false) (hp : s.phase = .busy) (hs : s.stage = .compile)
    (h : step s = .next t) : CallFrame s t := by
  rcases step_compile_cases hr hp hs with ⟨-, he⟩ | ⟨_, _, _, -, he⟩ | ⟨_, _, _, _, -, -, -, he⟩ | ⟨_, _, -, -, -, he⟩ <;>
    rw [he] at h
  · exact finishCompile_frame h
  all_goals cases h; exact .of_latched_same_cache rfl rfl

/-- A step of the field loop, which runs under PACK and UNPACK alone (R208, R210). -/
theorem step_fields_frame {s t : State} (hr : s.resetIn = false) (hp : s.phase = .busy) (hs : s.stage = .fields)
    (h : step s = .next t) : CallFrame s t := by
  cases hd : dirOf s.op with
  | none => simp [step_field hr hp hs, fetchField, hd, runFetched] at h
  | some d =>
    rcases step_fields_cases hr hp hs hd with ⟨-, he⟩ | ⟨_, -, -, he⟩ | ⟨_, _, -, -, he⟩ <;> rw [he] at h
    · exact .of_endCall_same_cache (finishFields_next h)
    · exact .of_endCall_same_cache (raise_next h)
    · exact fieldMeaning_frame h

theorem step_swap_frame {s t : State} (hr : s.resetIn = false) (hp : s.phase = .busy) (hs : s.stage = .swap)
    (h : step s = .next t) : CallFrame s t := by
  rcases step_swap_cases hr hp hs with ⟨-, he⟩ | ⟨_, _, -, -, he⟩ | ⟨_, _, -, -, he⟩ <;> rw [he] at h
  · exact .of_endCall_same_cache (finishSwap_next h)
  · exact .of_endCall_same_cache (raise_next h)
  · exact swapGroup_frame h

theorem step_busy_frame {s t : State} (hr : s.resetIn = false) (hp : s.phase = .busy) (h : step s = .next t) :
    CallFrame s t := by
  cases hs : s.stage with
  | compile => exact step_compile_frame hr hp hs h
  | fields => exact step_fields_frame hr hp hs h
  | swap => exact step_swap_frame hr hp hs h

/-- Settles O57: the frame of a step that does not end the call. -/
theorem theLatchIsReadOnlyDuringACall : Obligations.TheLatchIsReadOnlyDuringACall := by
  intro s t hr hp h ht
  simpa only [latched, Prod.mk.injEq] using (step_busy_frame hr hp h).latch ht

/-- A command's first step keeps the parameters and the cache. -/
theorem exec_decodeCommand_keeps {op : BitVec 2} {s t : State} (h : exec (decodeCommand op) s = .next t) :
    t.params = s.params ∧ t.cache = s.cache := by
  rcases exec_decodeCommand_cases op s with ⟨-, he⟩ | ⟨-, -, -, he⟩ | ⟨r, he⟩ <;> rw [he] at h <;> cases h
  · rcases beginCompile_cases s with ⟨_, -, hb⟩ | ⟨-, hb⟩ <;> rw [hb] <;> exact ⟨rfl, rfl⟩
  · exact ⟨rfl, rfl⟩
  · exact ⟨rfl, rfl⟩

/-- A step in IDLE keeps the parameters and the cache. -/
theorem step_idle_keeps {s t : State} (hr : s.resetIn = false) (hp : s.phase = .idle) (h : step s = .next t) :
    t.params = s.params ∧ t.cache = s.cache := by
  cases hq : s.port with
  | nil =>
    rw [step_idle hr hp hq] at h
    cases h
    exact ⟨rfl, rfl⟩
  | cons c rest =>
    rw [step_command hr hp hq] at h
    exact exec_decodeCommand_keeps (s := latch c rest s) h

/-- Settles O58: under reset by `resetEvent`, in IDLE nothing is stored, in a call by its frame. -/
theorem stepsKeepTheParametersAndTheCache : Obligations.StepsKeepTheParametersAndTheCache := by
  intro s t h
  cases hr : s.resetIn with
  | true =>
    rw [step_reset hr] at h
    cases h
    exact ⟨rfl, by simp⟩
  | false =>
    cases hp : s.phase with
    | idle =>
      obtain ⟨hparams, hcache⟩ := step_idle_keeps hr hp h
      exact ⟨hparams, fun _ => ⟨[], by rw [hcache, List.append_nil]⟩⟩
    | busy =>
      have hframe := step_busy_frame hr hp h
      exact ⟨hframe.params, fun _ => hframe.cache⟩

end Sys2Proof.Machine
end

section
/-! Every step keeps the invariant: a state of a running call satisfies `Inv` by the clauses of its loop alone, and each
loop keeps its own clauses. -/

namespace Sys2Proof.Machine

/-! ## The invariant, loop by loop -/

theorem Inv.of_compile {s : State} (hc : CacheOk s) (hp : s.phase = .busy) (hr : s.response = none)
    (hs : s.stage = .compile) (hop : s.op ≠ .byteswap)
    (hscan : s.spec ++ compileFrom s.prev (s.fmt.drop s.si) = compile s.fmt) : Inv s := by
  constructor
  case cache => exact hc
  case scan => exact fun _ _ => hscan
  all_goals simp [hp, hr, hs, hop]

/-- What `Inv` says of a field loop, whatever its direction (R26, R28, R114). -/
structure FieldLoopOk (s : State) : Prop where
  phase    : s.phase = .busy
  response : s.response = none
  stage    : s.stage = .fields
  table    : s.spec = compile s.fmt
  index    : s.fi ≤ s.spec.length
  cursor   : s.cur = calcsizeOf (s.spec.take s.fi)

theorem FieldLoopOk.start {s : State} (hp : s.phase = .busy) (hr : s.response = none) (hs : s.stage = .fields)
    (htable : s.spec = compile s.fmt) (hfi : s.fi = 0) (hcur : s.cur = 0) : FieldLoopOk s :=
  ⟨hp, hr, hs, htable, by simp [hfi], by simp [hfi, hcur, calcsizeOf]⟩

theorem Inv.fieldLoopOk {s : State} (h : Inv s) (hp : s.phase = .busy) (hs : s.stage = .fields) : FieldLoopOk s :=
  ⟨hp, h.noResponse hp, hs, h.table hp hs, h.index hp hs, h.cursor hp hs⟩

theorem Inv.of_packing {s : State} (hc : CacheOk s) (hl : FieldLoopOk s) (hop : s.op = .pack) (h : PackingOk s) :
    Inv s := by
  obtain ⟨hp, hr, hs, htable, hindex, hcursor⟩ := hl
  constructor
  case cache => exact hc
  case table => exact fun _ _ => htable
  case index => exact fun _ _ => hindex
  case cursor => exact fun _ _ => hcursor
  case packing => exact fun _ _ _ => h
  all_goals simp [hp, hr, hs, hop]

theorem Inv.of_unpacking {s : State} (hc : CacheOk s) (hl : FieldLoopOk s) (hop : s.op = .unpack)
    (h : UnpackingOk s) : Inv s := by
  obtain ⟨hp, hr, hs, htable, hindex, hcursor⟩ := hl
  constructor
  case cache => exact hc
  case table => exact fun _ _ => htable
  case index => exact fun _ _ => hindex
  case cursor => exact fun _ _ => hcursor
  case unpacking => exact fun _ _ _ => h
  all_goals simp [hp, hr, hs, hop]

theorem Inv.of_swapping {s : State} (hc : CacheOk s) (hp : s.phase = .busy) (hr : s.response = none)
    (hs : s.stage = .swap) (hop : s.op = .byteswap) (h : SwappingOk s) : Inv s := by
  constructor
  case cache => exact hc
  case swapping => exact fun _ _ => h
  all_goals simp [hp, hr, hs, hop]

theorem CacheOk.append {s : State} (h : CacheOk s) {new : List (List Byte × List FieldSpec)}
    (hnew : ∀ e ∈ new, e.2 = compile e.1) : CacheOk { s with cache := s.cache ++ new } :=
  List.forall_mem_append.mpr ⟨h, hnew⟩

theorem Inv.of_endCall {s t : State} (hc : CacheOk s) (h : ∃ r, t = endCall r s) : Inv t := by
  obtain ⟨r, rfl⟩ := h
  exact endCall_inv hc r

/-! ## The start of a call -/

/-- Compilation begins with nothing scanned, or with a cached table and nothing left to scan (R72, R111). -/
theorem beginCompile_inv {s : State} (hc : CacheOk s) (hp : s.phase = .busy) (hr : s.response = none)
    (hop : s.op ≠ .byteswap) : Inv (beginCompile s) := by
  rcases beginCompile_cases s with ⟨table, ht, h⟩ | ⟨-, h⟩ <;> rw [h]
  · refine .of_compile hc hp hr rfl hop ?_
    have htable : table = compile s.fmt := hc _ (cached_some ht).2
    simp [htable]
  · exact .of_compile hc hp hr rfl hop rfl

theorem exec_command_inv {op : BitVec 2} {s t : State} (hc : CacheOk s) (hp : s.phase = .busy)
    (hr : s.response = none) (hop : s.op = Op.ofCode op) (h : exec (decodeCommand op) s = .next t) : Inv t := by
  rcases exec_decodeCommand_cases op s with ⟨hne, he⟩ | ⟨heq, hg, hoff, he⟩ | ⟨r, he⟩ <;> rw [he] at h <;> cases h
  · exact beginCompile_inv hc hp hr (hop ▸ hne)
  · exact .of_swapping hc hp hr rfl (hop.trans heq) ⟨hg, by simp, le_rfl, hoff, by simp⟩
  · exact endCall_inv hc r

theorem step_idle_inv {s t : State} (hinv : Inv s) (hr : s.resetIn = false) (hp : s.phase = .idle)
    (h : step s = .next t) : Inv t := by
  cases hq : s.port with
  | nil =>
    rw [step_idle hr hp hq] at h
    cases h
    exact hinv
  | cons c rest =>
    rw [step_command hr hp hq] at h
    exact exec_command_inv (s := latch c rest s) hinv.cache rfl rfl rfl h

/-! ## Compilation -/

theorem drop_succ_of_drop_eq_cons {α : Type} {l cs : List α} {c : α} {i : Nat} (h : l.drop i = c :: cs) :
    l.drop (i + 1) = cs := by
  rw [← List.drop_drop, h, List.drop_one, List.tail_cons]

/-- A group is a plain group or a bit-order character before one (R82, R83); here is neither. -/
theorem groupAt_eq_none {prev : BitOrder} {c : Byte} {cs : List Byte} (hg : plainGroupAt (c :: cs) = none)
    (ho : orderOfChar c = none ∨ plainGroupAt cs = none) : groupAt prev (c :: cs) = none := by
  cases hc : orderOfChar c with
  | none => simp [groupAt, hc, hg]
  | some o => simp [groupAt, hc, ho.resolve_left (by simp [hc])]

/-- The end of a compilation starts a field loop with the whole table, at its beginning (R193, R203). -/
theorem finishCompile_inv {s t : State} (hinv : Inv s) (hp : s.phase = .busy) (hs : s.stage = .compile)
    (hend : s.fmt.drop s.si = []) (h : finishCompile s = .next t) : Inv t := by
  have htable : s.spec = compile s.fmt := by
    have := hinv.scan hp hs
    rwa [hend, compileFrom_nil, List.append_nil] at this
  obtain ⟨new, hnew, ht⟩ := finishCompile_next h
  have hc : CacheOk { s with cache := s.cache ++ new } :=
    hinv.cache.append fun e he => by rw [hnew e he, htable]
  have hr := hinv.noResponse hp
  rcases ht with he | ⟨hop, hv, rfl⟩ | ⟨hop, hv, rfl⟩
  · exact .of_endCall hc he
  · exact .of_packing hc (.start hp hr rfl htable rfl rfl) hop ⟨rfl, rfl, hv⟩
  · exact .of_unpacking hc (.start hp hr rfl htable rfl rfl) hop
      ⟨rfl, by simpa [State.totalBits] using hv, rfl⟩

/-- What was scanned and what is left make the whole table after every turn (R111). -/
theorem step_compile_inv {s t : State} (hinv : Inv s) (hr : s.resetIn = false) (hp : s.phase = .busy)
    (hs : s.stage = .compile) (h : step s = .next t) : Inv t := by
  have hop : s.op ≠ .byteswap := fun hop => by simpa [hs, hop] using hinv.swapStage hp
  have hscan := hinv.scan hp hs
  have hresp := hinv.noResponse hp
  rcases step_compile_cases hr hp hs with
    ⟨hend, he⟩ | ⟨k, w, after, hg, he⟩ | ⟨c, cs, o, g, hd, ho, hg, he⟩ | ⟨c, cs, hd, hg, ho, he⟩ <;> rw [he] at h
  · exact finishCompile_inv hinv hp hs hend h
  · cases h
    refine .of_compile hinv.cache hp hresp hs hop ?_
    have hrest : after = s.fmt.drop (s.si + ((s.fmt.drop s.si).length - after.length)) := by
      rw [← List.drop_drop]
      exact List.suffix_iff_eq_drop.mp (plainGroupAt_suffix hg).1
    rw [compileFrom_group (groupAt_of_plain hg)] at hscan
    rw [compileGroup_spec, compileGroup_prev, compileGroup_fmt, compileGroup_si, ← hrest, List.append_assoc]
    exact hscan
  · cases h
    refine .of_compile hinv.cache hp hresp hs hop ?_
    rw [hd, compileFrom_order ho hg, ← drop_succ_of_drop_eq_cons hd] at hscan
    exact hscan
  · cases h
    refine .of_compile hinv.cache hp hresp hs hop ?_
    rw [hd, compileFrom_skip (groupAt_eq_none hg ho), ← drop_succ_of_drop_eq_cons hd] at hscan
    exact hscan

/-! ## Fields -/

theorem valueCount_take_succ {l : List FieldSpec} {i : Nat} {f : FieldSpec} {k : Kind} (hf : l[i]? = some f)
    (hk : Kind.ofLetter f.kind = some k) :
    valueCount (l.take (i + 1)) = valueCount (l.take i) + if k = .p then 0 else 1 := by
  rw [take_succ_of_getElem? hf, valueCount_append, valueCount_singleton, isPadding_of_kind hk]
  simp

theorem calcsizeOf_take_succ {l : List FieldSpec} {i : Nat} {f : FieldSpec} (hf : l[i]? = some f) :
    calcsizeOf (l.take (i + 1)) = calcsizeOf (l.take i) + f.width := by
  rw [take_succ_of_getElem? hf, calcsizeOf_append, calcsizeOf_singleton]

/-- A completed field keeps the index and the cursor in step (R26, R28). -/
theorem FieldLoopOk.next_field {s t : State} (h : FieldLoopOk s) {f : FieldSpec} (hf : s.spec[s.fi]? = some f)
    (hlatch : latched t = latched s) (hphase : t.phase = s.phase) (hstage : t.stage = s.stage) (hspec : t.spec = s.spec)
    (hfi : t.fi = s.fi + 1) (hcur : t.cur = s.cur + f.width) : FieldLoopOk t := by
  obtain ⟨hp, hr, hs, htable, -, hcursor⟩ := h
  simp only [latched, Prod.mk.injEq] at hlatch
  obtain ⟨-, hfmt, -, -, -, -, -, -, -, hresp⟩ := hlatch
  have hlt : s.fi < s.spec.length := (List.getElem?_eq_some_iff.mp hf).1
  refine ⟨hphase.trans hp, hresp.trans hr, hstage.trans hs, by rw [hspec, hfmt, htable], by rw [hspec, hfi]; omega, ?_⟩
  rw [hcur, hspec, hfi, calcsizeOf_take_succ hf, hcursor]

/-- A field of PACK adds its width to WBITS, and one to VI unless it is padding (R27, R29, R194). -/
theorem packing_field_inv {s t : State} (hinv : Inv s) (hp : s.phase = .busy) (hs : s.stage = .fields)
    (hop : s.op = .pack) {f : FieldSpec} {k : Kind} (hf : s.spec[s.fi]? = some f) (hk : Kind.ofLetter f.kind = some k)
    (h : fieldMeaning k .enc f.width f.order s = .next t) : Inv t := by
  obtain ⟨hlen, hvi, hval⟩ := hinv.packing hp hs hop
  rcases fieldMeaning_enc_next_append hlen h with he | ⟨b, hb, rfl⟩
  · exact .of_endCall hinv.cache he
  · refine .of_packing hinv.cache ((hinv.fieldLoopOk hp hs).next_field hf rfl rfl rfl rfl rfl rfl) hop ⟨?_, ?_, hval⟩
    · simp [hlen, hb]
    · simp only [valueCount_take_succ hf hk, hvi]
      split <;> rfl

/-- A field of UNPACK adds one value to OUTV unless it is padding (R32, R204). -/
theorem unpacking_field_inv {s t : State} (hinv : Inv s) (hp : s.phase = .busy) (hs : s.stage = .fields)
    (hop : s.op = .unpack) {f : FieldSpec} {k : Kind} (hf : s.spec[s.fi]? = some f)
    (hk : Kind.ofLetter f.kind = some k) (h : fieldMeaning k .dec f.width f.order s = .next t) : Inv t := by
  obtain ⟨hbits, htotal, hout⟩ := hinv.unpacking hp hs hop
  rcases fieldMeaning_dec_next h with he | ⟨vs, hvs, rfl⟩
  · exact .of_endCall hinv.cache he
  · refine .of_unpacking hinv.cache ((hinv.fieldLoopOk hp hs).next_field hf rfl rfl rfl rfl rfl rfl) hop
      ⟨hbits, htotal, ?_⟩
    simp only [List.length_append, valueCount_take_succ hf hk, hout, hvs]

/-- A step of a field loop, given that its field at FI keeps the invariant. -/
theorem step_fields_inv {s t : State} {d : Dir} (hinv : Inv s) (hr : s.resetIn = false) (hp : s.phase = .busy)
    (hs : s.stage = .fields) (hd : dirOf s.op = some d)
    (hfield : ∀ f k, s.spec[s.fi]? = some f → Kind.ofLetter f.kind = some k →
      fieldMeaning k d f.width f.order s = .next t → Inv t) (h : step s = .next t) : Inv t := by
  rcases step_fields_cases hr hp hs hd with ⟨-, he⟩ | ⟨_, -, -, he⟩ | ⟨f, k, hf, hk, he⟩ <;> rw [he] at h
  · exact .of_endCall hinv.cache (finishFields_next h)
  · exact .of_endCall hinv.cache (raise_next h)
  · exact hfield f k hf hk h

/-! ## Groups -/

/-- A group moves from DATA to OUT (R211). -/
theorem SwappingOk.next_group {s : State} (h : SwappingOk s) {e : GroupElem} (he : s.groups[s.gi]? = some e) {g : Nat}
    (hg : s.bi + g ≤ s.data.length) : SwappingOk { s with
      out := s.out ++ ((s.data.drop s.bi).take g).reverse, bi := s.bi + g, gi := s.gi + 1 } := by
  obtain ⟨hconv, -, hoff, -, hout⟩ := h
  have hlt : s.gi < s.groups.length := (List.getElem?_eq_some_iff.mp he).1
  refine ⟨hconv, hlt, hoff.trans (Nat.le_add_right _ _), hg, ?_⟩
  simp only [List.length_append, List.length_reverse, List.length_take, List.length_drop, hout]
  omega

theorem step_swap_inv {s t : State} (hinv : Inv s) (hr : s.resetIn = false) (hp : s.phase = .busy)
    (hs : s.stage = .swap) (h : step s = .next t) : Inv t := by
  rcases step_swap_cases hr hp hs with ⟨-, he⟩ | ⟨_, _, -, -, he⟩ | ⟨e, g, hgrp, -, he⟩ <;> rw [he] at h
  · exact .of_endCall hinv.cache (finishSwap_next h)
  · exact .of_endCall hinv.cache (raise_next h)
  · rcases swapGroup_next h with he | ⟨hg, rfl⟩
    · exact .of_endCall hinv.cache he
    · exact .of_swapping hinv.cache hp (hinv.noResponse hp) hs ((hinv.swapStage hp).mp hs)
        ((hinv.swapping hp hs).next_group hgrp hg)

/-- Settles O55: a case per loop of the engine. The end of a call leaves only the cache to check, a running call only
the clauses of its loop. -/
theorem everyStepKeepsTheInvariant : Obligations.EveryStepKeepsTheInvariant := by
  intro s t hinv h
  cases hr : s.resetIn with
  | true =>
    rw [step_reset hr] at h
    cases h
    exact resetEvent_inv s
  | false =>
    cases hp : s.phase with
    | idle => exact step_idle_inv hinv hr hp h
    | busy =>
      cases hs : s.stage with
      | compile => exact step_compile_inv hinv hr hp hs h
      | swap => exact step_swap_inv hinv hr hp hs h
      | fields =>
        cases hop : s.op with
        | pack =>
          exact step_fields_inv hinv hr hp hs (d := .enc) (by rw [hop]; rfl)
            (fun f k hf hk hm => packing_field_inv hinv hp hs hop hf hk hm) h
        | unpack =>
          exact step_fields_inv hinv hr hp hs (d := .dec) (by rw [hop]; rfl)
            (fun f k hf hk hm => unpacking_field_inv hinv hp hs hop hf hk hm) h
        | calcsize => exact absurd hop (hinv.fieldStage hp hs)
        | byteswap => simpa [hs, hop] using hinv.swapStage hp

end Sys2Proof.Machine
end

section
/-! Surplus values of PACK (R24, R195): the field loop takes one value per value-carrying field and no more. -/

namespace Sys2Proof.Machine

theorem checkField_ok {f : FieldSpec} {k : Kind} (h : checkField f = .ok k) : Kind.ofLetter f.kind = some k := by
  unfold checkField at h
  split at h
  · cases h
  · split at h <;> cases h
    assumption

theorem packFields_cons_error {f : FieldSpec} {e : ErrorKind} (h : checkField f = .error e) (fs : List FieldSpec)
    (vals : List Value) (acc : Bits) : packFields (f :: fs) vals acc = .error e := by
  simp [packFields, h]

theorem packFields_cons_padding {f : FieldSpec} (h : checkField f = .ok .p) (fs : List FieldSpec)
    (vals : List Value) (acc : Bits) :
    packFields (f :: fs) vals acc = packFields fs vals (acc ++ inOrder f.order (encP f.width)) := by
  simp [packFields, h]

theorem packFields_cons_value {f : FieldSpec} {k : Kind} (h : checkField f = .ok k) (hk : k ≠ .p)
    (fs : List FieldSpec) (v : Value) (vs : List Value) (acc : Bits) :
    packFields (f :: fs) (v :: vs) acc =
      (encodeKind k f.width v).bind fun b => packFields fs vs (acc ++ inOrder f.order b) := by
  cases k
  case p => exact absurd rfl hk
  all_goals
    simp only [packFields, h]
    cases encodeKind _ f.width v <;> rfl

theorem valueCount_cons {f : FieldSpec} {k : Kind} (h : checkField f = .ok k) (fs : List FieldSpec) :
    valueCount (f :: fs) = (if k = .p then 0 else 1) + valueCount fs := by
  rw [← List.singleton_append, valueCount_append, valueCount_singleton, isPadding_of_kind (checkField_ok h)]
  simp

/-- With enough values for every field, the values after them are never reached. -/
theorem packFields_append (extra : List Value) {spec : List FieldSpec} {vals : List Value}
    (h : valueCount spec ≤ vals.length) (acc : Bits) :
    packFields spec (vals ++ extra) acc = packFields spec vals acc := by
  induction spec generalizing vals acc with
  | nil => rfl
  | cons f fs ih =>
    cases hf : checkField f with
    | error e => rw [packFields_cons_error hf, packFields_cons_error hf]
    | ok k =>
      rw [valueCount_cons hf] at h
      by_cases hk : k = .p
      · subst hk
        rw [packFields_cons_padding hf, packFields_cons_padding hf, ih (by simpa using h)]
      · rw [if_neg hk] at h
        cases vals with
        | nil => simp at h
        | cons v vs =>
          have hvs : valueCount fs ≤ vs.length := by simp at h; omega
          rw [List.cons_append, packFields_cons_value hf hk, packFields_cons_value hf hk]
          simp only [ih hvs]

/-- Settles O42: without a limit on values PACK looks at their number and at its field loop, and both arity checks
pass. -/
theorem packIgnoresSurplusValues : Obligations.PackIgnoresSurplusValues := by
  intro p fmt val extra hmax hcount
  have harity : ¬ (val ++ extra).length < valueCount (compile fmt) := by simp; omega
  simp only [packCall, hmax, within, packFields_append extra hcount, if_neg harity, if_neg hcount.not_gt]

end Sys2Proof.Machine
end

section
/-! The accumulator form of the writer (R29, R63): it is at every moment the whole bytes of the bit string written so
far, and the bits after them followed by zeros. -/

namespace Sys2Proof.Machine

/-- The byte of eight bits. -/
def byteOfBits (s : Bits) : Byte := BitVec.ofNat 8 (valOf s)

theorem bytesToBits_byteOfBits {s : Bits} (h : s.length = 8) : bytesToBits [byteOfBits s] = s := by
  have hlt := valOf_lt s
  rw [h] at hlt
  have hval : (byteOfBits s).toNat = valOf s := by rw [byteOfBits, BitVec.toNat_ofNat, Nat.mod_eq_of_lt hlt]
  rw [bytesToBits_cons, bytesToBits_nil, List.append_nil, hval, ← h, bitsOf_valOf]

/-- Fewer than eight bits and the zeros that fill their byte. -/
def zeroFilled (held : Bits) : Bits := held ++ List.replicate (8 - held.length) false

theorem zeroFilled_length {held : Bits} (h : held.length ≤ 8) : (zeroFilled held).length = 8 := by
  simp [zeroFilled]; omega

/-- The accumulator form of whole bytes and the bits after them. -/
def accOf (whole : List Byte) (held : Bits) : AccBuf :=
  { wbytes := whole, acc := byteOfBits (zeroFilled held), nacc := held.length }

theorem accOf_nil : accOf [] [] = AccBuf.empty := by decide

/-- Adding the next bit at its place in the accumulator (R63) is writing it after the bits held. -/
theorem acc_add_bit {held : Bits} (h : held.length < 8) (b : Bool) :
    byteOfBits (zeroFilled held) + BitVec.ofNat 8 (b.toNat * 2 ^ (7 - held.length)) =
      byteOfBits (zeroFilled (held ++ [b])) := by
  have hpow : 2 ^ (8 - held.length) = 2 * 2 ^ (7 - held.length) := by
    rw [← pow_succ', show 7 - held.length + 1 = 8 - held.length by omega]
  have hsub : 8 - (held.length + 1) = 7 - held.length := by omega
  rw [byteOfBits, byteOfBits, ← BitVec.ofNat_add]
  congr 1
  simp only [zeroFilled, valOf_append, valOf_replicate_false, valOf_cons, valOf_nil, List.length_append,
    List.length_replicate, List.length_singleton, List.length_nil, hpow, hsub]
  ring

theorem appendBit_accOf {whole : List Byte} {held : Bits} (h : held.length < 7) (b : Bool) :
    appendBit (accOf whole held) b = accOf whole (held ++ [b]) := by
  have hnot : ¬ held.length + 1 = 8 := by omega
  simp [appendBit, accOf, acc_add_bit (by omega : held.length < 8), hnot]

/-- The eighth bit completes a byte (R63). -/
theorem appendBit_accOf_full {whole : List Byte} {held : Bits} (h : held.length = 7) (b : Bool) :
    appendBit (accOf whole held) b = accOf (whole ++ [byteOfBits (held ++ [b])]) [] := by
  have hfull : zeroFilled (held ++ [b]) = held ++ [b] := by simp [zeroFilled, h]
  have hzero : byteOfBits (zeroFilled []) = 0 := by decide
  simp only [appendBit, accOf, acc_add_bit (by omega : held.length < 8), hfull]
  simp [h, hzero]

/-- Whatever is written, the buffer is in this form. -/
theorem appendBits_eq_accOf (s : Bits) :
    ∃ whole held, held.length < 8 ∧ s = bytesToBits whole ++ held ∧ appendBits AccBuf.empty s = accOf whole held := by
  induction s using List.reverseRecOn with
  | nil => exact ⟨[], [], by simp, rfl, accOf_nil.symm⟩
  | append_singleton s b ih =>
    obtain ⟨whole, held, hlt, hs, hacc⟩ := ih
    have hstep : appendBits AccBuf.empty (s ++ [b]) = appendBit (accOf whole held) b := by
      rw [← hacc, appendBits, appendBits, List.foldl_append]
      rfl
    rcases Nat.lt_or_ge held.length 7 with h | h
    · exact ⟨whole, held ++ [b], by simp; omega, by rw [hs, List.append_assoc], by rw [hstep, appendBit_accOf h]⟩
    · have h7 : held.length = 7 := by omega
      refine ⟨whole ++ [byteOfBits (held ++ [b])], [], by simp, ?_, by rw [hstep, appendBit_accOf_full h7]⟩
      rw [bytesToBits_append, bytesToBits_byteOfBits (by simp [h7]), hs, List.append_nil, List.append_assoc]

theorem bitsOfAcc_accOf {whole : List Byte} {held : Bits} (h : held.length < 8) :
    bitsOfAcc (accOf whole held) = bytesToBits whole ++ held := by
  have hbits : bitsOf (byteOfBits (zeroFilled held)).toNat 8 = zeroFilled held := by
    have := bytesToBits_byteOfBits (zeroFilled_length h.le)
    rwa [bytesToBits_cons, bytesToBits_nil, List.append_nil] at this
  simp only [bitsOfAcc, accOf, hbits]
  simp [zeroFilled]

/-- R63: the final bytes are the whole bytes and, if bits are held, their zero-filled byte. -/
theorem finalizeAcc_accOf {whole : List Byte} {held : Bits} (h : held.length < 8) :
    finalizeAcc (accOf whole held) =
      bitsToBytes (bytesToBits whole ++ held ++ List.replicate (tailLength held.length) false) := by
  rcases Nat.eq_zero_or_pos held.length with h0 | hpos
  · simp [finalizeAcc, accOf, List.length_eq_zero_iff.mp h0, tailLength]
  · have htail : tailLength held.length = 8 - held.length := by simp only [tailLength]; omega
    have hbits : bytesToBits whole ++ held ++ List.replicate (tailLength held.length) false =
        bytesToBits (whole ++ [byteOfBits (zeroFilled held)]) := by
      rw [bytesToBits_append, bytesToBits_byteOfBits (zeroFilled_length h.le), htail, zeroFilled, List.append_assoc]
    rw [hbits, bitsToBytes_bytesToBits, finalizeAcc, if_neg (by simp only [accOf]; omega)]
    rfl

/-- Settles O52: every bit string is written as whole bytes and fewer than eight bits, where each part can be read off. -/
theorem accumulatorFormAgreesWithTheBitString : Obligations.AccumulatorFormAgreesWithTheBitString := by
  intro b
  obtain ⟨whole, held, hlt, rfl, hacc⟩ := appendBits_eq_accOf b
  have hmod : (bytesToBits whole ++ held).length % 8 = held.length := by simp; omega
  have htail : tailLength (bytesToBits whole ++ held).length = tailLength held.length := by
    simp [tailLength]
  rw [hacc]
  exact ⟨bitsOfAcc_accOf hlt, hmod.symm, by rw [htail]; exact finalizeAcc_accOf hlt⟩

end Sys2Proof.Machine
end

section
/-! Runs (R190, R217): what a step leads to, and the compiler's loop as one run, from the start of FMT or from the cache
to a state with the whole table and nothing left to scan. -/

namespace Sys2Proof.Machine

/-! ## Runs -/

/-- After the outcome `o` of a step, at most `n` more steps give `t`. -/
def Leads (n : Nat) (o : Host.Outcome State Fault Refusal) (t : State) : Prop :=
  ∃ m u, m ≤ n ∧ o = .next u ∧ run m u = .next t

theorem Leads.refl (n : Nat) (t : State) : Leads n (.next t) t := ⟨0, t, Nat.zero_le n, rfl, rfl⟩

theorem Leads.step {n : Nat} {s t : State} (h : Leads n (step s) t) : Leads (n + 1) (.next s) t := by
  obtain ⟨m, u, hm, hs, hrun⟩ := h
  exact ⟨m + 1, s, Nat.succ_le_succ hm, rfl, by simp only [run, hs, hrun]⟩

theorem run_add {m : Nat} {s t : State} (h : run m s = .next t) (n : Nat) : run (m + n) s = run n t := by
  induction m generalizing s with
  | zero =>
    cases h
    rw [Nat.zero_add]
  | succ m ih =>
    rw [Nat.add_right_comm]
    cases hs : step s with
    | next u =>
      simp only [run, hs] at h ⊢
      exact ih h
    | fault r => simp [run, hs] at h
    | refused r => simp [run, hs] at h

theorem Leads.trans {m n : Nat} {o : Host.Outcome State Fault Refusal} {t u : State} (h : Leads m o t)
    (h' : Leads n (.next t) u) : Leads (m + n) o u := by
  obtain ⟨a, v, ha, ho, hrun⟩ := h
  obtain ⟨b, w, hb, hw, hrun'⟩ := h'
  cases hw
  exact ⟨a + b, v, Nat.add_le_add ha hb, ho, (run_add hrun b).trans hrun'⟩

theorem Leads.mono {m n : Nat} {o : Host.Outcome State Fault Refusal} {t : State} (h : Leads m o t) (hmn : m ≤ n) :
    Leads n o t := by
  obtain ⟨a, u, ha, ho, hrun⟩ := h
  exact ⟨a, u, ha.trans hmn, ho, hrun⟩

theorem getElem?_of_drop_eq_cons {α : Type} {l as : List α} {a : α} {i : Nat} (h : l.drop i = a :: as) :
    l[i]? = some a := by
  rw [← List.head?_drop, h, List.head?_cons]

/-! ## The compiler's loop -/

/-- What the compiler's loop writes: the table, SI and PREV (R111). -/
def scanned (spec : List FieldSpec) (si : Nat) (prev : BitOrder) (s : State) : State :=
  { s with spec := spec, si := si, prev := prev }

/-- A turn of the loop before the end of FMT: less text is left, and table and text make the same whole (R111). -/
theorem step_compile_turn {s : State} (hr : s.resetIn = false) (hp : s.phase = .busy) (hs : s.stage = .compile)
    (hmore : s.fmt.drop s.si ≠ []) :
    ∃ spec si prev, step s = .next (scanned spec si prev s) ∧
      (s.fmt.drop si).length < (s.fmt.drop s.si).length ∧
      spec ++ compileFrom prev (s.fmt.drop si) = s.spec ++ compileFrom s.prev (s.fmt.drop s.si) := by
  rcases step_compile_cases hr hp hs with
    ⟨hend, -⟩ | ⟨k, w, after, hg, he⟩ | ⟨c, cs, o, g, hd, ho, hg, he⟩ | ⟨c, cs, hd, hg, ho, he⟩
  · exact absurd hend hmore
  · obtain ⟨hsuffix, hlen⟩ := plainGroupAt_suffix hg
    have hrest : s.fmt.drop (s.si + ((s.fmt.drop s.si).length - after.length)) = after := by
      rw [← List.drop_drop]
      exact (List.suffix_iff_eq_drop.mp hsuffix).symm
    refine ⟨_, _, _, he, by rw [hrest]; omega, ?_⟩
    rw [hrest, compileFrom_group (groupAt_of_plain hg), List.append_assoc]
    rfl
  · have hrest := drop_succ_of_drop_eq_cons hd
    exact ⟨s.spec, s.si + 1, o, he, by simp [hd, hrest], by rw [hd, hrest, compileFrom_order ho hg]⟩
  · have hrest := drop_succ_of_drop_eq_cons hd
    exact ⟨s.spec, s.si + 1, s.prev, he, by simp [hd, hrest],
      by rw [hd, hrest, compileFrom_skip (groupAt_eq_none hg ho)]⟩

/-- The loop appends the table of the text left and stops at the end of FMT, a character or more a step (R111). -/
theorem compile_leads {s : State} (hr : s.resetIn = false) (hp : s.phase = .busy) (hs : s.stage = .compile) :
    ∃ si prev, s.fmt.drop si = [] ∧
      Leads (s.fmt.drop s.si).length (.next s)
        (scanned (s.spec ++ compileFrom s.prev (s.fmt.drop s.si)) si prev s) := by
  generalize hn : (s.fmt.drop s.si).length = n
  induction n using Nat.strong_induction_on generalizing s with
  | _ n ih =>
    by_cases hend : s.fmt.drop s.si = []
    · refine ⟨s.si, s.prev, hend, ?_⟩
      rw [hend, compileFrom_nil, List.append_nil]
      exact .refl n s
    · obtain ⟨spec, si, prev, hstep, hlt, htable⟩ := step_compile_turn hr hp hs hend
      rw [hn] at hlt
      obtain ⟨si', prev', hend', hleads⟩ := ih _ hlt (s := scanned spec si prev s) hr hp hs rfl
      refine ⟨si', prev', hend', .mono (.step ?_) hlt⟩
      rw [hstep, ← htable]
      exact hleads

/-- The state at the end of a compilation (R111, R114), wherever the loop left SI and PREV. -/
def compiled (si : Nat) (prev : BitOrder) (s : State) : State :=
  { s with stage := .compile, spec := compile s.fmt, si := si, prev := prev }

/-- A compilation ends with the table of FMT and nothing left to scan, whether the cache holds it or not (R72, R111). -/
theorem beginCompile_leads {s : State} (hr : s.resetIn = false) (hp : s.phase = .busy) (hc : CacheOk s) :
    ∃ si prev, s.fmt.drop si = [] ∧
      Leads s.fmt.length (.next (beginCompile s)) (compiled si prev s) := by
  rcases beginCompile_cases s with ⟨table, ht, h⟩ | ⟨-, h⟩ <;> rw [h]
  · have htable : table = compile s.fmt := hc _ (cached_some ht).2
    exact ⟨s.fmt.length, .msbFirst, List.drop_length, by rw [htable]; exact .refl _ _⟩
  · exact compile_leads (s := { s with stage := .compile, spec := [], si := 0, prev := .msbFirst }) hr hp rfl

end Sys2Proof.Machine
end

section
/-! PACK's output (R59, R65, R192, R195): the bits of the fields, followed by zeros up to a byte boundary. -/

namespace Sys2Proof.Machine

/-! ## Whole bytes -/

/-- A bit string as whole bytes, zeros at the end (R59). -/
def paddedBytes (b : Bits) : List Byte := bitsToBytes (b ++ List.replicate (tailLength b.length) false)

theorem paddedBytes_length (b : Bits) : (paddedBytes b).length = byteCount b.length := by
  simp [paddedBytes, add_tailLength_div]

theorem bytesToBits_paddedBytes (b : Bits) :
    bytesToBits (paddedBytes b) = b ++ List.replicate (tailLength b.length) false :=
  bytesToBits_bitsToBytes _ (by simp [add_tailLength_mod])

theorem finalize_eq {s : State} (h : s.wbits.length = s.cur) : finalize s = paddedBytes s.wbits := by
  rw [finalize, paddedBytes, h]

theorem finishFields_pack {s : State} (hop : s.op = .pack) (h : s.wbits.length = s.cur) :
    finishFields s = .next (endCall (.ok (.bytes (paddedBytes s.wbits))) s) := by
  simp [finishFields, hop, finalize_eq h, finish]

/-- At FI = n a field loop ends (R192, R201). -/
theorem step_fields_end {s : State} {d : Dir} (hr : s.resetIn = false) (hp : s.phase = .busy) (hs : s.stage = .fields)
    (hd : dirOf s.op = some d) (hend : s.spec[s.fi]? = none) : step s = finishFields s := by
  rcases step_fields_cases hr hp hs hd with ⟨-, h⟩ | ⟨_, hf, -⟩ | ⟨_, _, hf, -⟩
  · exact h
  · simp [hend] at hf
  · simp [hend] at hf

/-- Settles O30: the loop's end finalizes, and the zeros of `tailLength` are those up to the last byte's end. -/
theorem packEndsWithTheZeroPaddedBytes : Obligations.PackEndsWithTheZeroPaddedBytes := by
  intro s hr hp hs hop hfi hlen
  have hend : s.spec[s.fi]? = none := List.getElem?_eq_none_iff.mpr hfi.ge
  have hcount : (paddedBytes s.wbits).length = (s.cur + 7) / 8 := by rw [paddedBytes_length, hlen, byteCount]
  have htail : tailLength s.cur = 8 * ((s.cur + 7) / 8) - s.cur := by simp only [tailLength]; omega
  refine ⟨paddedBytes s.wbits, hcount, ?_, ?_⟩
  · rw [bytesToBits_paddedBytes, hcount, hlen, htail]
  · rw [step_fields_end hr hp hs (d := .enc) (by rw [hop]; rfl) hend, finishFields_pack hop hlen]

/-! ## The call -/

theorem checkField_ok_legal {f : FieldSpec} {k : Kind} (h : checkField f = .ok k) : legalWidth k f.width = true := by
  unfold checkField at h
  split at h
  · cases h
  · split at h <;> cases h
    assumption

theorem calcsizeOf_cons (f : FieldSpec) (fs : List FieldSpec) : calcsizeOf (f :: fs) = f.width + calcsizeOf fs := by
  simp [calcsizeOf]

/-- A field of PACK that succeeds adds its width in bits (R64). -/
theorem packFields_cons_ok {f : FieldSpec} {fs : List FieldSpec} {vals : List Value} {acc b : Bits}
    (h : packFields (f :: fs) vals acc = .ok b) :
    ∃ (c : Bits) (vs : List Value), c.length = f.width ∧ packFields fs vs (acc ++ c) = .ok b := by
  cases hf : checkField f with
  | error e =>
    rw [packFields_cons_error hf] at h
    cases h
  | ok k =>
    by_cases hk : k = .p
    · subst hk
      rw [packFields_cons_padding hf] at h
      exact ⟨_, vals, by simp [encP], h⟩
    · cases vals with
      | nil =>
        cases k
        case p => exact absurd rfl hk
        all_goals simp [packFields, hf] at h
      | cons v vs =>
        rw [packFields_cons_value hf hk] at h
        cases he : encodeKind k f.width v with
        | error e =>
          rw [he] at h
          cases h
        | ok c =>
          rw [he] at h
          exact ⟨_, vs, by simp [encodeKind_length (checkField_ok_legal hf) he], h⟩

/-- R65: PACK writes as many bits as its table counts. -/
theorem packFields_length {spec : List FieldSpec} {vals : List Value} {acc b : Bits}
    (h : packFields spec vals acc = .ok b) : b.length = acc.length + calcsizeOf spec := by
  induction spec generalizing vals acc with
  | nil =>
    cases h
    rfl
  | cons f fs ih =>
    obtain ⟨c, vs, hc, hrest⟩ := packFields_cons_ok h
    rw [ih hrest, calcsizeOf_cons, List.length_append, hc, Nat.add_assoc]

/-- What PACK answers when its field loop has ended (R192). -/
def packAnswer : Except ErrorKind Bits → Response
  | .error e => .error e
  | .ok b => .ok (.bytes (paddedBytes b))

/-- The tail that PACK adds by the table's count is the one of the bits written, which are as many (R65, R192). -/
theorem packCall_eq (p : Params) (fmt : List Byte) (val : List Value) :
    packCall p fmt val =
      if within p.maxFmtLen fmt.length && within p.maxValues val.length then
        if specFits p (compile fmt) then
          if within p.maxDataBytes (byteCount (calcsizeOf (compile fmt))) then
            if val.length < valueCount (compile fmt) then .error .arityError
            else packAnswer (packFields (compile fmt) val [])
          else .refused .capacity
        else .refused .capacity
      else .refused .capacity := by
  cases h : packFields (compile fmt) val [] with
  | error e => simp only [packCall, h, packAnswer, Bool.and_eq_true, ite_and]
  | ok b =>
    have hlen : b.length = calcsizeOf (compile fmt) := by simpa using packFields_length h
    simp only [packCall, h, packAnswer, paddedBytes, hlen, Bool.and_eq_true, ite_and]

/-- PACK's output is the padded bits of its field loop. -/
theorem packCall_bytes {p : Params} {fmt : List Byte} {val : List Value} {y : List Byte}
    (h : packCall p fmt val = .ok (.bytes y)) : ∃ b, packFields (compile fmt) val [] = .ok b ∧ y = paddedBytes b := by
  rw [packCall_eq] at h
  split_ifs at h
  cases hb : packFields (compile fmt) val [] with
  | error e =>
    rw [hb] at h
    cases h
  | ok b =>
    rw [hb] at h
    cases h
    exact ⟨b, rfl, rfl⟩

/-- Settles O40: the bits of the field loop are `calcsize` many, what follows them is the padding. -/
theorem packOutputHasTheSizeOfItsFormat : Obligations.PackOutputHasTheSizeOfItsFormat := by
  intro p fmt val y h
  obtain ⟨b, hb, rfl⟩ := packCall_bytes h
  have hlen : b.length = calcsizeOf (compile fmt) := by simpa using packFields_length hb
  refine ⟨by rw [paddedBytes_length, hlen, byteCount], fun x hx => ?_⟩
  rw [bytesToBits_paddedBytes, ← hlen, List.drop_left] at hx
  exact List.eq_of_mem_replicate hx

end Sys2Proof.Machine
end

section
/-! UNPACK's input (R56, R58, R60, R66): what its size check decides, a read beyond the input, and that a table reads no
bit from its `calcsize` on. -/

namespace Sys2Proof.Machine

/-! ## The end of a compilation, and the size check -/

/-- At the end of FMT the compiler's loop ends (R111). -/
theorem step_compile_end {s : State} (hr : s.resetIn = false) (hp : s.phase = .busy) (hs : s.stage = .compile)
    (hend : s.fmt.drop s.si = []) : step s = finishCompile s := by
  simp [step_scan hr hp hs, fetchScan, hend, runFetched]

theorem finishCompile_pack {s : State} (hop : s.op = .pack) :
    finishCompile s = if specFits s.params s.spec then startPack (memoize s) else refuse .capacity s := by
  simp only [finishCompile, hop]

theorem finishCompile_unpack {s : State} (hop : s.op = .unpack) :
    finishCompile s = if specFits s.params s.spec then startUnpack (memoize s) else refuse .capacity s := by
  simp only [finishCompile, hop]

theorem finishCompile_calcsize {s : State} (hop : s.op = .calcsize) :
    finishCompile s =
      if specFits s.params s.spec then finish (.size (calcsizeOf s.spec)) (memoize s) else refuse .capacity s := by
  simp only [finishCompile, hop]

/-- Settles O29: the clauses of `startUnpack_cases`, after the table is stored or not. -/
theorem unpackChecksSizeBeforeAnyField : Obligations.UnpackChecksSizeBeforeAnyField := by
  intro s hr hp hs hop hend hfits
  obtain ⟨new, -, hmem⟩ := memoize_appends s
  rw [step_compile_end hr hp hs hend, finishCompile_unpack hop, if_pos hfits, hmem]
  refine ⟨s.cache ++ new, ?_⟩
  rcases startUnpack_cases { s with cache := s.cache ++ new } with ⟨hlt, h⟩ | ⟨hle, h⟩ <;> rw [h]
  · exact ⟨fun _ => rfl, fun hle => absurd hlt hle.not_gt⟩
  · exact ⟨fun hlt => absurd hlt hle.not_gt, fun _ => rfl⟩

/-! ## A read beyond the input -/

/-- R84, R91, R92: a field instruction of the seven kinds is well formed when its width is legal. -/
theorem wf_instr (k : Kind) (d : Dir) (w : Nat) (o : BitOrder) : (k.instr d w o).wf = legalWidth k w := by
  have hwidth : (checkWidth w).isNone = (w != 0) := by
    unfold checkWidth
    split <;> simp_all
  have hfloat : (checkFloatWidth w).isNone = (w == 32 || w == 64) := by
    unfold checkFloatWidth
    split_ifs <;> simp_all
  cases k
  case f => cases d <;> exact hfloat
  all_goals cases d <;> exact hwidth

/-- Settles O22: of the answers of a decoder only *insufficient input* fits a read beyond TOTAL_BITS. -/
theorem readsBeyondTheInputAreInsufficientInput : Obligations.ReadsBeyondTheInputAreInsufficientInput := by
  intro k w o s hk hwf hbeyond
  rw [wf_instr] at hwf
  rw [exec_instr, fieldMeaning_dec_of_ne_padding hk]
  rcases unpackField_cases k w o (decodeKind k w) s with
    ⟨hill, -⟩ | ⟨-, -, h⟩ | ⟨_, -, hle, -⟩ | ⟨_, -, hle, -⟩
  · simp [hwf] at hill
  · rw [h, raise_eq]
  · omega
  · omega

/-! ## The field loop reads what its table counts -/

theorem unpackFields_cons_error {f : FieldSpec} {e : ErrorKind} (h : checkField f = .error e) (rbits : Bits)
    (fs : List FieldSpec) (cur : Nat) (acc : List Value) : unpackFields rbits (f :: fs) cur acc = .error e := by
  simp [unpackFields, h]

theorem unpackFields_cons_padding {f : FieldSpec} (h : checkField f = .ok .p) (rbits : Bits) (fs : List FieldSpec)
    (cur : Nat) (acc : List Value) :
    unpackFields rbits (f :: fs) cur acc = unpackFields rbits fs (cur + f.width) acc := by
  simp [unpackFields, h]

theorem unpackFields_cons_value {f : FieldSpec} {k : Kind} (h : checkField f = .ok k) (hk : k ≠ .p) (rbits : Bits)
    (fs : List FieldSpec) (cur : Nat) (acc : List Value) :
    unpackFields rbits (f :: fs) cur acc =
      (decodeKind k f.width (inOrder f.order (memRead rbits cur f.width))).bind fun v =>
        unpackFields rbits fs (cur + f.width) (acc ++ [v]) := by
  cases k
  case p => exact absurd rfl hk
  all_goals
    simp only [unpackFields, h]
    cases decodeKind _ f.width (inOrder f.order (memRead rbits cur f.width)) <;> rfl

/-- A window inside the first `m` bits is read from those bits. -/
theorem memRead_take {m p n : Nat} (h : p + n ≤ m) (buf : Bits) : memRead (buf.take m) p n = memRead buf p n := by
  rw [memRead, memRead, List.drop_take, List.take_take, Nat.min_eq_left (by omega)]

/-- R66: a table reads no bit beyond those it counts. -/
theorem unpackFields_take {spec : List FieldSpec} {cur m : Nat} (h : cur + calcsizeOf spec ≤ m) (rbits : Bits)
    (acc : List Value) : unpackFields (rbits.take m) spec cur acc = unpackFields rbits spec cur acc := by
  induction spec generalizing cur acc with
  | nil => rfl
  | cons f fs ih =>
    rw [calcsizeOf_cons, ← Nat.add_assoc] at h
    cases hf : checkField f with
    | error e => rw [unpackFields_cons_error hf, unpackFields_cons_error hf]
    | ok k =>
      by_cases hk : k = .p
      · subst hk
        rw [unpackFields_cons_padding hf, unpackFields_cons_padding hf, ih h]
      · rw [unpackFields_cons_value hf hk, unpackFields_cons_value hf hk, memRead_take (by omega)]
        simp only [ih h]

/-- What UNPACK answers when its field loop has ended (R201). -/
def unpackAnswer : Except ErrorKind (List Value) → Response
  | .error e => .error e
  | .ok v => .ok (.values v)

theorem unpackCall_eq (p : Params) (fmt data : List Byte) :
    unpackCall p fmt data =
      if within p.maxFmtLen fmt.length && within p.maxDataBytes data.length then
        if specFits p (compile fmt) then
          if 8 * data.length < calcsizeOf (compile fmt) then .error .insufficientInput
          else unpackAnswer (unpackFields (bytesToBits data) (compile fmt) 0 [])
        else .refused .capacity
      else .refused .capacity := by
  cases h : unpackFields (bytesToBits data) (compile fmt) 0 [] <;>
    simp only [unpackCall, h, unpackAnswer, Bool.and_eq_true, ite_and]

/-- Settles O43: without a limit on DATA both inputs pass the same checks, and the field loop reads their common bits. -/
theorem unpackIgnoresSurplusBits : Obligations.UnpackIgnoresSurplusBits := by
  intro p fmt data1 data2 hmax h1 h2 heq
  have hloop : unpackFields (bytesToBits data1) (compile fmt) 0 [] =
      unpackFields (bytesToBits data2) (compile fmt) 0 [] := by
    rw [← unpackFields_take (Nat.zero_add _).le (bytesToBits data1), heq, unpackFields_take (Nat.zero_add _).le]
  simp only [unpackCall_eq, hmax, within, if_neg h1.not_gt, if_neg h2.not_gt, hloop]

end Sys2Proof.Machine
end

section
/-! The bit buffer reads back what was written (R55, R56, R61): a write inside the buffer replaces a window, and the
window read back is the string as it was laid down, so a second turn by the same order restores it. -/

namespace Sys2Proof.Machine

/-- R55: a write inside the buffer changes the addresses it names and no other. -/
theorem memWrite_getElem? {buf s : Bits} {p : Nat} (h : p ≤ buf.length) (k : Nat) :
    (memWrite buf p s)[k]? = if p ≤ k ∧ k < p + s.length then s[k - p]? else buf[k]? := by
  rw [memWrite_inside s h, List.append_assoc]
  rcases Nat.lt_or_ge k p with hk | hk
  · rw [if_neg (by omega), List.getElem?_append_left (by simp; omega), List.getElem?_take_of_lt hk]
  · have htake : (buf.take p).length = p := by simpa using h
    rw [List.getElem?_append_right (by omega), htake]
    split
    · rw [List.getElem?_append_left (by omega)]
    · rw [List.getElem?_append_right (by omega), List.getElem?_drop]
      congr 1
      omega

theorem le_length_memWrite {buf : Bits} {p : Nat} (s : Bits) (h : p ≤ buf.length) :
    p + s.length ≤ (memWrite buf p s).length := by
  rw [memWrite_inside s h]
  simp only [List.length_append, List.length_take]
  omega

/-- What was written is read back at its address. -/
theorem memRead_memWrite {buf : Bits} {p : Nat} (s : Bits) (h : p ≤ buf.length) :
    memRead (memWrite buf p s) p s.length = s := by
  have htake : (buf.take p).length = p := by simpa using h
  rw [memRead, memWrite_inside s h, List.append_assoc, List.drop_left' htake, List.take_left]

/-- Reading in the other order than the one written reverses the string (R61). -/
theorem inOrder_inOrder_of_ne {o o' : BitOrder} (h : o' ≠ o) (s : Bits) : inOrder o' (inOrder o s) = s.reverse := by
  cases o <;> cases o' <;> simp_all [inOrder]

/-- Settles O50: a write lays the string down in its order, and a read turns that window by its own. -/
theorem bufferReadsBackWhatWasWritten : Obligations.BufferReadsBackWhatWasWritten := by
  intro s b o hcur
  refine ⟨fun k => ?_, fun r hbits hrcur => ?_⟩
  · rw [writeBits_wbits, memWrite_getElem? hcur, inOrder_length]
    cases o <;> rfl
  · have hread : ∀ o', readBits b.length o' r =
        some (inOrder o' (inOrder o b), { r with cur := s.cur + b.length }) := fun o' => by
      have hlen := le_length_memWrite (inOrder o b) hcur
      have hwin := memRead_memWrite (inOrder o b) hcur
      rw [inOrder_length] at hlen hwin
      rw [writeBits_wbits] at hbits
      rcases readBits_cases b.length o' r with ⟨hlt, -⟩ | ⟨-, h⟩
      · rw [State.totalBits, hbits] at hlt
        omega
      · rw [h, hbits, hrcur, hwin]
    exact ⟨by rw [hread, inOrder_inOrder], fun o' hne => by rw [hread, inOrder_inOrder_of_ne hne]⟩

end Sys2Proof.Machine
end

section
/-! Whole calls (R190, R217): each loop of the engine leads to the response of its call-level function, so a command
gives that response from any state in IDLE with a valid cache. -/

namespace Sys2Proof.Machine

/-! ## One field -/

theorem fieldMeaning_illegal {k : Kind} {w : Nat} (h : legalWidth k w = false) (d : Dir) (o : BitOrder) (s : State) :
    fieldMeaning k d w o s = raise .formatError s := by
  by_cases hk : k = .p
  · subst hk
    cases d <;> simp [fieldMeaning, execPEnc, execPDec, h]
  · cases d with
    | enc => simp [fieldMeaning_enc_of_ne_padding hk, packField, h]
    | dec => simp [fieldMeaning_dec_of_ne_padding hk, unpackField, h]

/-- A step of a field loop that has a field to do checks it (R196): it raises what `checkField` finds, else runs the
field of that kind. -/
theorem step_field_checked {s : State} {d : Dir} {f : FieldSpec} (hr : s.resetIn = false) (hp : s.phase = .busy)
    (hs : s.stage = .fields) (hd : dirOf s.op = some d) (hf : s.spec[s.fi]? = some f) :
    (∃ e, checkField f = .error e ∧ step s = raise e s) ∨
    (∃ k, checkField f = .ok k ∧ step s = fieldMeaning k d f.width f.order s) := by
  rcases step_fields_cases hr hp hs hd with ⟨hend, -⟩ | ⟨g, hg, hk, h⟩ | ⟨g, k, hg, hk, h⟩
  · simp [hf] at hend
  · obtain rfl : f = g := by simpa [hf] using hg
    exact .inl ⟨.formatError, by simp [checkField, hk], h⟩
  · obtain rfl : f = g := by simpa [hf] using hg
    cases hw : legalWidth k f.width with
    | false => exact .inl ⟨.formatError, by simp [checkField, hk, hw], by rw [h, fieldMeaning_illegal hw]⟩
    | true => exact .inr ⟨k, by simp [checkField, hk, hw], h⟩

/-- What a field of PACK writes: its bits in their order, FI, CUR and the new VI (R26, R27, R28, R57). -/
def packed (b : Bits) (o : BitOrder) (vi : Nat) (s : State) : State :=
  { s with fi := s.fi + 1, vi := vi, cur := s.cur + b.length, wbits := s.wbits ++ inOrder o b }

theorem packed_length {s : State} (h : s.wbits.length = s.cur) (b : Bits) (o : BitOrder) (vi : Nat) :
    (packed b o vi s).wbits.length = (packed b o vi s).cur := by
  simp [packed, h]

theorem fieldMeaning_enc_padding {w : Nat} {s : State} (hw : legalWidth .p w = true) (hlen : s.wbits.length = s.cur)
    (o : BitOrder) : fieldMeaning .p .enc w o s = .next (packed (encP w) o s.vi s) := by
  simp [fieldMeaning, execPEnc, hw, writeBits_end _ _ s hlen, advance, packed]

theorem fieldMeaning_enc_error {k : Kind} {w : Nat} {s : State} {v : Value} {e : ErrorKind} (hk : k ≠ .p)
    (hw : legalWidth k w = true) (hv : s.val[s.vi]? = some v) (he : encodeKind k w v = .error e) (o : BitOrder) :
    fieldMeaning k .enc w o s = raise e s := by
  simp [fieldMeaning_enc_of_ne_padding hk, packField, hw, hv, he]

theorem fieldMeaning_enc_value {k : Kind} {w : Nat} {s : State} {v : Value} {b : Bits} (hk : k ≠ .p)
    (hw : legalWidth k w = true) (hv : s.val[s.vi]? = some v) (he : encodeKind k w v = .ok b)
    (hlen : s.wbits.length = s.cur) (o : BitOrder) :
    fieldMeaning k .enc w o s = .next (packed b o (s.vi + 1) s) := by
  simp [fieldMeaning_enc_of_ne_padding hk, packField, hw, hv, he, writeBits_end b o { s with vi := s.vi + 1 } hlen,
    advance, packed]

theorem fieldMeaning_dec_padding {w : Nat} (hw : legalWidth .p w = true) (o : BitOrder) (s : State) :
    fieldMeaning .p .dec w o s = .next { s with fi := s.fi + 1, cur := s.cur + w } := by
  simp [fieldMeaning, execPDec, hw, advance]

/-! ## The loops -/

theorem getElem?_eq_none_of_drop_eq_nil {α : Type} {l : List α} {i : Nat} (h : l.drop i = []) : l[i]? = none :=
  List.getElem?_eq_none_iff.mpr (List.drop_eq_nil_iff.mp h)

/-- PACK's field loop, given a value for every field to come (R192, R194). -/
theorem packFields_leads {fs : List FieldSpec} {vals : List Value} {s : State} (hr : s.resetIn = false)
    (hp : s.phase = .busy) (hs : s.stage = .fields) (hop : s.op = .pack) (hlen : s.wbits.length = s.cur)
    (hfs : s.spec.drop s.fi = fs) (hvals : s.val.drop s.vi = vals) (hcount : valueCount fs ≤ vals.length) :
    Leads (fs.length + 1) (.next s) (endCall (packAnswer (packFields fs vals s.wbits)) s) := by
  have hd : dirOf s.op = some .enc := by rw [hop]; rfl
  induction fs generalizing vals s with
  | nil =>
    refine .step ?_
    rw [step_fields_end hr hp hs hd (getElem?_eq_none_of_drop_eq_nil hfs), finishFields_pack hop hlen]
    exact .refl _ _
  | cons f fs ih =>
    have hrest := drop_succ_of_drop_eq_cons hfs
    refine .step ?_
    rcases step_field_checked hr hp hs hd (getElem?_of_drop_eq_cons hfs) with ⟨e, hf, h⟩ | ⟨k, hf, h⟩
    · rw [h, packFields_cons_error hf]
      exact .refl _ _
    · have hw := checkField_ok_legal hf
      rw [valueCount_cons hf] at hcount
      rw [h]
      by_cases hk : k = .p
      · subst hk
        rw [fieldMeaning_enc_padding hw hlen, packFields_cons_padding hf]
        exact ih (s := packed (encP f.width) f.order s.vi s) hr hp hs hop (packed_length hlen _ _ _) hrest hvals
          (by simpa using hcount) hd
      · rw [if_neg hk] at hcount
        obtain ⟨v, vs, rfl⟩ := List.exists_cons_of_length_pos (by omega : 0 < vals.length)
        have hv := getElem?_of_drop_eq_cons hvals
        rw [packFields_cons_value hf hk]
        cases he : encodeKind k f.width v with
        | error e =>
          rw [fieldMeaning_enc_error hk hw hv he]
          exact .refl _ _
        | ok b =>
          rw [fieldMeaning_enc_value hk hw hv he hlen]
          exact ih (s := packed b f.order (s.vi + 1) s) hr hp hs hop (packed_length hlen _ _ _) hrest
            (drop_succ_of_drop_eq_cons hvals) (by rw [List.length_cons] at hcount; omega) hd

/-- UNPACK's field loop, given the bits of every field to come (R201, R204). -/
theorem unpackFields_leads {fs : List FieldSpec} {s : State} (hr : s.resetIn = false)
    (hp : s.phase = .busy) (hs : s.stage = .fields) (hop : s.op = .unpack) (hfs : s.spec.drop s.fi = fs)
    (hbits : s.cur + calcsizeOf fs ≤ s.totalBits) :
    Leads (fs.length + 1) (.next s) (endCall (unpackAnswer (unpackFields s.rbits fs s.cur s.outv)) s) := by
  have hd : dirOf s.op = some .dec := by rw [hop]; rfl
  induction fs generalizing s with
  | nil =>
    refine .step ?_
    rw [step_fields_end hr hp hs hd (getElem?_eq_none_of_drop_eq_nil hfs), finishFields_unpack hop]
    exact .refl _ _
  | cons f fs ih =>
    have hrest := drop_succ_of_drop_eq_cons hfs
    rw [calcsizeOf_cons, ← Nat.add_assoc] at hbits
    refine .step ?_
    rcases step_field_checked hr hp hs hd (getElem?_of_drop_eq_cons hfs) with ⟨e, hf, he⟩ | ⟨k, hf, he⟩
    · rw [he, unpackFields_cons_error hf]
      exact .refl _ _
    · have hw := checkField_ok_legal hf
      by_cases hk : k = .p
      · subst hk
        rw [he, fieldMeaning_dec_padding hw, unpackFields_cons_padding hf]
        exact ih (s := { s with fi := s.fi + 1, cur := s.cur + f.width }) hr hp hs hop hrest hbits hd
      · rw [fieldMeaning_dec_of_ne_padding hk] at he
        rw [unpackFields_cons_value hf hk]
        rcases unpackField_cases k f.width f.order (decodeKind k f.width) s with
          ⟨hill, -⟩ | ⟨-, hlt, -⟩ | ⟨e, -, -, hdec, h⟩ | ⟨v, -, -, hdec, h⟩
        · simp [hw] at hill
        · omega
        · rw [he, h, hdec]
          exact .refl _ _
        · rw [he, h, hdec]
          exact ih (s := { s with fi := s.fi + 1, cur := s.cur + f.width, outv := s.outv ++ [v] })
            hr hp hs hop hrest hbits hd

theorem groupValue_error {e : GroupElem} {k : ErrorKind} (h : groupValue e = .error k) : k = .coercionError := by
  cases e with
  | nat n => cases h
  | char c =>
    simp only [groupValue] at h
    split at h <;> cases h
    rfl

theorem step_swap_end {s : State} (hr : s.resetIn = false) (hp : s.phase = .busy) (hs : s.stage = .swap)
    (hend : s.groups[s.gi]? = none) : step s = finishSwap s := by
  simp [step_group hr hp hs, fetchSwap, hend, runFetched]

/-- BYTESWAP's group loop (R211). -/
theorem swapGroups_leads {es : List GroupElem} {s : State} (hr : s.resetIn = false) (hp : s.phase = .busy)
    (hs : s.stage = .swap) (hes : s.groups.drop s.gi = es) :
    Leads (es.length + 1) (.next s) (endCall (swapGroups s.data es s.bi s.out) s) := by
  induction es generalizing s with
  | nil =>
    refine .step ?_
    rw [step_swap_end hr hp hs (getElem?_eq_none_of_drop_eq_nil hes), swapGroups]
    rcases finishSwap_cases s with ⟨hlt, h⟩ | ⟨hle, h⟩
    · rw [h, if_pos hlt]
      exact .refl _ _
    · rw [h, if_neg hle.not_gt]
      exact .refl _ _
  | cons e es ih =>
    have hrest := drop_succ_of_drop_eq_cons hes
    have he := getElem?_of_drop_eq_cons hes
    refine .step ?_
    rcases step_swap_cases hr hp hs with ⟨hend, -⟩ | ⟨e', k, he', hg, h⟩ | ⟨e', g, he', hg, h⟩
    · simp [he] at hend
    · obtain rfl : e = e' := by simpa [he] using he'
      rw [h, swapGroups, hg, groupValue_error hg]
      exact .refl _ _
    · obtain rfl : e = e' := by simpa [he] using he'
      simp only [h, swapGroups, hg]
      rcases swapGroup_cases g s with ⟨h0, h⟩ | ⟨h0, hlt, h⟩ | ⟨h0, hle, h⟩
      · rw [h, if_pos h0]
        exact .refl _ _
      · rw [h, if_neg h0, if_pos hlt]
        exact .refl _ _
      · rw [h, if_neg h0, if_neg hle.not_gt]
        exact ih (s := { s with
          out := s.out ++ ((s.data.drop s.bi).take g).reverse, bi := s.bi + g, gi := s.gi + 1 }) hr hp hs hrest

/-! ## Calls -/

/-- After the outcome `o` of a step, at most `n` more steps end the call of `s` with the response `r` and with nothing
else of the call left; the cache is valid (R72, R190). -/
def Answers (n : Nat) (o : Host.Outcome State Fault Refusal) (s : State) (r : Response) : Prop :=
  ∃ cache, (∀ e ∈ cache, e.2 = compile e.1) ∧ Leads n o { endCall r s with cache := cache }

theorem Leads.answers {n : Nat} {o : Host.Outcome State Fault Refusal} {s : State} {r : Response} (hc : CacheOk s)
    (h : Leads n o (endCall r s)) : Answers n o s r := ⟨s.cache, hc, h⟩

theorem Answers.endCall {s : State} (hc : CacheOk s) (n : Nat) (r : Response) :
    Answers n (.next (endCall r s)) s r := (Leads.refl n _).answers hc

/-- A capacity check refuses in the steps as in the functions (R248). -/
theorem Answers.checked {n : Nat} {o : Host.Outcome State Fault Refusal} {s : State} {r : Response} {fits : Bool}
    (hc : CacheOk s) (h : Answers n o s r) :
    Answers n (if fits then o else refuse .capacity s) s (if fits then r else .refused .capacity) := by
  cases fits
  · exact .endCall hc n _
  · exact h

/-- After a compilation: the table is checked and stored or not (R72, R248), then the command goes on. -/
theorem finishCompile_answers {n : Nat} {s : State} {r : Response} (hc : CacheOk s) (htable : s.spec = compile s.fmt)
    {next : State → Host.Outcome State Fault Refusal}
    (hnext : finishCompile s = if specFits s.params s.spec then next (memoize s) else refuse .capacity s)
    (h : ∀ cache, CacheOk { s with cache := cache } → Answers n (next { s with cache := cache }) s r) :
    Answers n (finishCompile s) s (if specFits s.params s.spec then r else .refused .capacity) := by
  rw [hnext]
  refine .checked hc ?_
  obtain ⟨new, hnew, hmem⟩ := memoize_appends s
  rw [hmem]
  exact h _ (hc.append fun e he => by rw [hnew e he, htable])

/-- PACK after its compilation (R192, R193). -/
theorem startPack_answers {s : State} (hr : s.resetIn = false) (hp : s.phase = .busy) (hop : s.op = .pack)
    (hc : CacheOk s) :
    Answers (s.spec.length + 1) (startPack s) s
      (if within s.params.maxDataBytes (byteCount (calcsizeOf s.spec)) then
        if s.val.length < valueCount s.spec then .error .arityError else packAnswer (packFields s.spec s.val [])
      else .refused .capacity) := by
  refine .checked hc ?_
  split
  · exact .endCall hc _ _
  · exact (packFields_leads (s := { s with stage := .fields, fi := 0, vi := 0, cur := 0, wbits := [] })
      hr hp rfl hop rfl rfl rfl (Nat.le_of_not_lt ‹_›)).answers hc

/-- UNPACK after its compilation (R201, R203). -/
theorem startUnpack_answers {s : State} (hr : s.resetIn = false) (hp : s.phase = .busy) (hop : s.op = .unpack)
    (hc : CacheOk s) :
    Answers (s.spec.length + 1) (startUnpack s) s
      (if 8 * s.data.length < calcsizeOf s.spec then .error .insufficientInput
      else unpackAnswer (unpackFields (bytesToBits s.data) s.spec 0 [])) := by
  rcases startUnpack_cases s with ⟨hlt, h⟩ | ⟨hle, h⟩
  · rw [h, if_pos hlt]
    exact .endCall hc _ _
  · rw [h, if_neg hle.not_gt]
    exact (unpackFields_leads (s := { s with
      rbits := bytesToBits s.data, cur := 0, stage := .fields, fi := 0, outv := [] })
      hr hp rfl hop rfl (by simpa [State.totalBits] using hle)).answers hc

/-- A command that compiles answers what the end of its compilation answers. -/
theorem beginCompile_answers {n : Nat} {s : State} {r : Response} (hr : s.resetIn = false) (hp : s.phase = .busy)
    (hc : CacheOk s) (h : ∀ si prev, Answers n (finishCompile (compiled si prev s)) s r) :
    Answers (s.fmt.length + (n + 1)) (.next (beginCompile s)) s r := by
  obtain ⟨si, prev, hend, hleads⟩ := beginCompile_leads hr hp hc
  obtain ⟨cache, hcache, hfinish⟩ := h si prev
  refine ⟨cache, hcache, hleads.trans (.step ?_)⟩
  rwa [step_compile_end (s := compiled si prev s) hr hp rfl hend]

/-- PACK from its latched command on (R192). -/
theorem execPack_answers {s : State} (hr : s.resetIn = false) (hp : s.phase = .busy) (hop : s.op = .pack)
    (hc : CacheOk s) :
    Answers (s.fmt.length + ((compile s.fmt).length + 1 + 1)) (execPack s) s (packCall s.params s.fmt s.val) := by
  rw [packCall_eq]
  refine .checked hc (beginCompile_answers hr hp hc fun si prev => ?_)
  exact finishCompile_answers (s := compiled si prev s) hc rfl (finishCompile_pack hop) fun cache hcache =>
    startPack_answers (s := { compiled si prev s with cache := cache }) hr hp hop hcache

/-- UNPACK from its latched command on (R201). -/
theorem execUnpack_answers {s : State} (hr : s.resetIn = false) (hp : s.phase = .busy) (hop : s.op = .unpack)
    (hc : CacheOk s) :
    Answers (s.fmt.length + ((compile s.fmt).length + 1 + 1)) (execUnpack s) s
      (unpackCall s.params s.fmt s.data) := by
  rw [unpackCall_eq]
  refine .checked hc (beginCompile_answers hr hp hc fun si prev => ?_)
  exact finishCompile_answers (s := compiled si prev s) hc rfl (finishCompile_unpack hop) fun cache hcache =>
    startUnpack_answers (s := { compiled si prev s with cache := cache }) hr hp hop hcache

theorem calcsizeCall_eq (p : Params) (fmt : List Byte) :
    calcsizeCall p fmt =
      if within p.maxFmtLen fmt.length then
        if specFits p (compile fmt) then .ok (.size (calcsizeOf (compile fmt))) else .refused .capacity
      else .refused .capacity := by
  simp only [calcsizeCall, Bool.and_eq_true, ite_and]

/-- CALCSIZE from its latched command on (R208). -/
theorem execCalcsize_answers {s : State} (hr : s.resetIn = false) (hp : s.phase = .busy) (hop : s.op = .calcsize)
    (hc : CacheOk s) :
    Answers (s.fmt.length + (0 + 1)) (execCalcsize s) s (calcsizeCall s.params s.fmt) := by
  rw [calcsizeCall_eq]
  refine .checked hc (beginCompile_answers hr hp hc fun si prev => ?_)
  exact finishCompile_answers (s := compiled si prev s) hc rfl (finishCompile_calcsize hop) fun cache hcache =>
    .endCall (s := { compiled si prev s with cache := cache }) hcache 0 _

/-- BYTESWAP from its latched command on (R211, R214); it leaves the cache as it is. -/
theorem execByteswap_leads {s : State} (hr : s.resetIn = false) (hp : s.phase = .busy) :
    Leads (s.groups.length + 1) (execByteswap s)
      (endCall (byteswapCall s.params s.groups s.data s.offset) s) := by
  unfold execByteswap byteswapCall
  split
  · split
    · split
      · exact .refl _ _
      · exact swapGroups_leads (s := { s with stage := .swap, gi := 0, bi := s.offset, out := [] }) hr hp rfl rfl
    · exact .refl _ _
  · exact .refl _ _

/-- R190, R217: a command is answered with the response of its function, whatever the state in IDLE it finds. -/
theorem step_command_answers {s : State} {c : Command} {rest : List Command} (hr : s.resetIn = false)
    (hp : s.phase = .idle) (hq : s.port = c :: rest) (hc : CacheOk s) :
    ∃ n, Answers n (step s) (latch c rest s) (callResponse s.params c) := by
  rw [step_command hr hp hq]
  have hop : c.op = 0 ∨ c.op = 1 ∨ c.op = 2 ∨ c.op = 3 := by generalize c.op = op; revert op; decide
  rcases hop with hop | hop | hop | hop <;> rw [callResponse, hop]
  · exact ⟨_, execPack_answers (s := latch c rest s) hr rfl (by simp [hop]; rfl) hc⟩
  · exact ⟨_, execUnpack_answers (s := latch c rest s) hr rfl (by simp [hop]; rfl) hc⟩
  · exact ⟨_, execCalcsize_answers (s := latch c rest s) hr rfl (by simp [hop]; rfl) hc⟩
  · exact ⟨_, (execByteswap_leads (s := latch c rest s) hr rfl).answers hc⟩

theorem Answers.exists_run {n : Nat} {s s' : State} {r : Response} (h : Answers n (step s) s' r) :
    ∃ m t, run m s = .next t ∧ t.phase = .idle ∧ t.port = s'.port ∧ t.response = some r := by
  obtain ⟨cache, -, hleads⟩ := h
  obtain ⟨m, u, -, hu, hrun⟩ := hleads.step
  cases hu
  exact ⟨m, _, hrun, rfl, rfl, rfl⟩

/-- Settles O39: both machines reach the response that the call-level function gives for the command. -/
theorem responsesDependOnTheInputsOfTheCallAlone : Obligations.ResponsesDependOnTheInputsOfTheCallAlone := by
  intro s1 s2 c rest1 rest2 hr1 hr2 hp1 hp2 hq1 hq2 hc1 hc2 hparams
  obtain ⟨_, h1⟩ := step_command_answers hr1 hp1 hq1 hc1
  obtain ⟨_, h2⟩ := step_command_answers hr2 hp2 hq2 hc2
  obtain ⟨n1, t1, hrun1, hidle1, hport1, hresp1⟩ := h1.exists_run
  obtain ⟨n2, t2, hrun2, hidle2, hport2, hresp2⟩ := h2.exists_run
  exact ⟨n1, n2, t1, t2, callResponse s1.params c, hrun1, hrun2, hidle1, hidle2, hport1, hport2, hresp1,
    by rw [hparams, hresp2]⟩

end Sys2Proof.Machine
end

section
/-! The text of a group (R81, R82, R85): where a group starts, what its digit run is worth, and that `decimal` writes
the run of its number. -/

namespace Sys2Proof

/-! ## Where a group starts -/

theorem orderOfChar_charOfOrder (o : BitOrder) : orderOfChar (charOfOrder o) = some o := by cases o <;> rfl

theorem orderOfChar_isSome (c : Byte) : (orderOfChar c).isSome = isOrder c := by
  revert c
  decide

theorem plainGroupAt_isSome (text : List Byte) :
    (plainGroupAt text).isSome = (text[0]?.any isLetter && text[1]?.any isDigit) := by
  match text with
  | [] => rfl
  | [c] => simp [plainGroupAt]
  | c :: d :: rest =>
    simp only [plainGroupAt]
    split <;> simp_all

theorem plainGroupAt_of_not_letter {c : Byte} (h : isLetter c = false) (cs : List Byte) :
    plainGroupAt (c :: cs) = none := by
  rw [← Option.not_isSome_iff_eq_none, plainGroupAt_isSome]
  simp [h]

/-- Settles O4: after a bit-order character a plain group starts one place further on, else at the head. -/
theorem groupStartsAtLetterThenDigit : Obligations.GroupStartsAtLetterThenDigit := by
  intro prev text
  cases text with
  | nil => rfl
  | cons c cs =>
    have horder := orderOfChar_isSome c
    cases ho : orderOfChar c with
    | none =>
      have hplain := plainGroupAt_isSome (c :: cs)
      simp_all [groupAt]
    | some o =>
      have hplain := plainGroupAt_isSome cs
      simp_all [groupAt]

/-! ## The digit run -/

/-- A text that ends the digit run before it: it does not begin with a digit (R85). -/
def endsRun (rest : List Byte) : Bool := rest.head?.all fun c => !isDigit c

@[simp] theorem endsRun_nil : endsRun [] = true := rfl

@[simp] theorem endsRun_cons (c : Byte) (cs : List Byte) : endsRun (c :: cs) = !isDigit c := rfl

theorem endsRun_append {cs rest : List Byte} (h : ∀ c ∈ cs, isDigit c = false) (hrest : endsRun rest = true) :
    endsRun (cs ++ rest) = true := by
  cases cs with
  | nil => exact hrest
  | cons c cs => simp [h c]

theorem digitRun_of_endsRun {rest : List Byte} (h : endsRun rest = true) (acc : Nat) :
    digitRun acc rest = (acc, rest) := by
  cases rest with
  | nil => rfl
  | cons c cs => simp_all [digitRun]

/-- Digits before a text are read first, and the text is read on top of their value. -/
theorem digitRun_append {ds : List Byte} (h : ∀ d ∈ ds, isDigit d = true) (acc : Nat) (rest : List Byte) :
    digitRun acc (ds ++ rest) = digitRun (digitRun acc ds).1 rest := by
  induction ds generalizing acc with
  | nil => rfl
  | cons d ds ih =>
    rw [List.forall_mem_cons] at h
    simp [digitRun, h.1, ih h.2]

/-- R85's positional sum, on top of what was read before. -/
theorem digitRun_eq_sum {ds : List Byte} (h : ∀ d ∈ ds, isDigit d = true) (acc : Nat) :
    (digitRun acc ds).1 = acc * 10 ^ ds.length +
      ((List.range ds.length).map fun i => digit (ds.getD i 0) * 10 ^ (ds.length - 1 - i)).sum := by
  induction ds generalizing acc with
  | nil => simp [digitRun]
  | cons d ds ih =>
    rw [List.forall_mem_cons] at h
    have hfirst : ds.length + 1 - 1 - 0 = ds.length := rfl
    have hlater : ∀ i, ds.length + 1 - 1 - (i + 1) = ds.length - 1 - i := by omega
    simp only [digitRun, h.1, if_true, ih h.2, List.length_cons, List.range_succ_eq_map, List.map_cons, List.sum_cons,
      List.map_map, Function.comp_def, List.getD_cons_zero, List.getD_cons_succ, Nat.succ_eq_add_one, hfirst, hlater]
    ring

theorem plainGroupAt_run {k : Byte} {ds rest : List Byte} (hk : isLetter k = true) (hne : ds ≠ [])
    (hd : ∀ d ∈ ds, isDigit d = true) (hrest : endsRun rest = true) :
    plainGroupAt (k :: (ds ++ rest)) = some (k, (digitRun 0 ds).1, rest) := by
  cases ds with
  | nil => exact absurd rfl hne
  | cons d ds =>
    have hrun := digitRun_append hd 0 rest
    rw [digitRun_of_endsRun hrest] at hrun
    rw [List.cons_append] at hrun ⊢
    simp [plainGroupAt, hk, hd d, hrun]

/-- Settles O5: the scanner takes the run as a whole, and Horner's scheme adds up to its positional sum. -/
theorem widthIsTheDecimalValueOfTheDigitRun : Obligations.WidthIsTheDecimalValueOfTheDigitRun := by
  intro k ds rest hk hne hd hrest
  rw [plainGroupAt_run hk hne hd hrest, digitRun_eq_sum hd, Nat.zero_mul, Nat.zero_add]

/-! ## The run of a number -/

/-- The last decimal digit of `n` as a character (R11). -/
theorem digit_ofNat (n : Nat) :
    isDigit (BitVec.ofNat 8 (0x30 + n % 10)) = true ∧ digit (BitVec.ofNat 8 (0x30 + n % 10)) = n % 10 := by
  have hlt : n % 10 < 10 := Nat.mod_lt n (by decide)
  generalize n % 10 = m at hlt
  revert m
  decide

/-- The loop puts the digits of `n` before those it has: a run that is worth `n`. -/
theorem decimalLoop_is_run {fuel n : Nat} (h : n < fuel) (acc : List Byte) :
    ∃ ds, decimalLoop fuel n acc = ds ++ acc ∧ ds ≠ [] ∧ (∀ d ∈ ds, isDigit d = true) ∧ (digitRun 0 ds).1 = n := by
  induction fuel generalizing n acc with
  | zero => exact absurd h (Nat.not_lt_zero n)
  | succ fuel ih =>
    obtain ⟨hd, hval⟩ := digit_ofNat n
    rw [decimalLoop]
    split
    · exact ⟨[_], rfl, by simp, by simpa using hd, by simp only [digitRun, hd, hval, if_true]; omega⟩
    · obtain ⟨ds, heq, -, hds, hrun⟩ := ih (n := n / 10) (by omega) (BitVec.ofNat 8 (0x30 + n % 10) :: acc)
      refine ⟨ds ++ [BitVec.ofNat 8 (0x30 + n % 10)], by simp [heq], by simp, ?_, ?_⟩
      · simpa [or_imp, forall_and, hd] using hds
      · rw [digitRun_append hds, hrun]
        simp only [digitRun, hd, hval, if_true]
        omega

/-- A letter and a number in decimal are a plain group of that width (R81, R85). -/
theorem plainGroupAt_decimal {k : Byte} (hk : isLetter k = true) (w : Nat) {rest : List Byte}
    (hrest : endsRun rest = true) : plainGroupAt (k :: (decimal w ++ rest)) = some (k, w, rest) := by
  obtain ⟨ds, heq, hne, hds, hrun⟩ := decimalLoop_is_run (Nat.lt_succ_self w) []
  rw [decimal, heq, List.append_nil, plainGroupAt_run hk hne hds hrest, hrun]

/-- A written group is read back, with its own order or else the one before it (R89, R112). -/
theorem groupAt_written (prev : BitOrder) (explicit : Option BitOrder) {k : Byte} (hk : isLetter k = true) (w : Nat)
    {rest : List Byte} (hrest : endsRun rest = true) :
    groupAt prev ((explicit.map charOfOrder).toList ++ k :: (decimal w ++ rest)) =
      some (⟨k, w, explicit.getD prev⟩, rest) := by
  have hplain := plainGroupAt_decimal hk w hrest
  cases explicit with
  | none => exact groupAt_of_plain hplain
  | some o => simp [groupAt, orderOfChar_charOfOrder, hplain]

end Sys2Proof
end

section
/-! Written sequences of groups (R86, R112): separators are skipped, and every group passes its order on. -/

namespace Sys2Proof

/-! ## Separators -/

theorem isStray_iff {c : Byte} :
    isStray c = true ↔ isLetter c = false ∧ isDigit c = false ∧ orderOfChar c = none := by
  rw [← Option.not_isSome_iff_eq_none, orderOfChar_isSome]
  simp [isStray, and_assoc]

theorem compileFrom_stray {c : Byte} (h : isStray c = true) (prev : BitOrder) (text : List Byte) :
    compileFrom prev (c :: text) = compileFrom prev text := by
  obtain ⟨hletter, -, horder⟩ := isStray_iff.mp h
  exact compileFrom_skip (Machine.groupAt_eq_none (plainGroupAt_of_not_letter hletter text) (.inl horder))

theorem compileFrom_strays {cs : List Byte} (h : ∀ c ∈ cs, isStray c = true) (prev : BitOrder) (text : List Byte) :
    compileFrom prev (cs ++ text) = compileFrom prev text := by
  induction cs with
  | nil => rfl
  | cons c cs ih =>
    rw [List.forall_mem_cons] at h
    rw [List.cons_append, compileFrom_stray h.1, ih h.2]

theorem endsRun_strays {cs rest : List Byte} (h : ∀ c ∈ cs, isStray c = true) (hrest : endsRun rest = true) :
    endsRun (cs ++ rest) = true :=
  endsRun_append (fun c hc => (isStray_iff.mp (h c hc)).2.1) hrest

/-! ## Groups -/

theorem isLetter_not_digit {c : Byte} (h : isLetter c = true) : isDigit c = false := by
  revert h
  revert c
  decide

theorem GroupText.chars_append (g : GroupText) (rest : List Byte) :
    g.chars ++ rest =
      g.strays ++ ((g.explicit.map charOfOrder).toList ++ g.kind :: (decimal g.width ++ rest)) := by
  cases h : g.explicit <;> simp [GroupText.chars, h]

/-- No written group, nor what follows the last, runs into the width before it. -/
theorem endsRun_written {gs : List GroupText} {trailing : List Byte}
    (hgs : ∀ g ∈ gs, isLetter g.kind = true ∧ ∀ c ∈ g.strays, isStray c = true)
    (htrailing : ∀ c ∈ trailing, isStray c = true) :
    endsRun (gs.flatMap GroupText.chars ++ trailing) = true := by
  cases gs with
  | nil => simpa using endsRun_strays htrailing endsRun_nil
  | cons g gs =>
    obtain ⟨hkind, hstrays⟩ := hgs g List.mem_cons_self
    rw [List.flatMap_cons, List.append_assoc, g.chars_append]
    refine endsRun_strays hstrays ?_
    cases g.explicit with
    | none => simp [isLetter_not_digit hkind]
    | some o => cases o <;> rfl

theorem compileFrom_written (prev : BitOrder) {gs : List GroupText} {trailing : List Byte}
    (hgs : ∀ g ∈ gs, isLetter g.kind = true ∧ ∀ c ∈ g.strays, isStray c = true)
    (htrailing : ∀ c ∈ trailing, isStray c = true) :
    compileFrom prev (gs.flatMap GroupText.chars ++ trailing) = inherited prev gs := by
  induction gs generalizing prev with
  | nil => simpa [inherited] using compileFrom_strays htrailing prev []
  | cons g gs ih =>
    rw [List.forall_mem_cons] at hgs
    obtain ⟨⟨hkind, hstrays⟩, hgs⟩ := hgs
    rw [List.flatMap_cons, List.append_assoc, g.chars_append, compileFrom_strays hstrays,
      compileFrom_group (groupAt_written prev g.explicit hkind g.width (endsRun_written hgs htrailing)), ih _ hgs,
      inherited]

/-- Settles O2: by induction on the groups, from any order before the first. -/
theorem compileGivesTheWrittenGroupsWithInheritedOrder :
    Obligations.CompileGivesTheWrittenGroupsWithInheritedOrder :=
  fun _ _ hgs htrailing => compileFrom_written .msbFirst hgs htrailing

end Sys2Proof
end

section
/-! Instructions and their bytes (R81, R83, R86, R97, R212): the decoder undoes the encoder in every context. -/

namespace Sys2Proof.Machine

theorem isLetter_of_fieldSpec {i : Instr} {f : FieldSpec} (h : i.fieldSpec = some f) : isLetter f.kind = true := by
  cases i <;> cases h <;> rfl

theorem delimited_field {i : Instr} {f : FieldSpec} (h : i.fieldSpec = some f) (tail : List Byte) :
    i.delimited tail = endsRun tail := by
  cases tail <;> simp [Instr.delimited, h]

theorem decode_encode_field {i : Instr} {f : FieldSpec} (h : i.fieldSpec = some f) (prev : BitOrder)
    {tail : List Byte} (htail : endsRun tail = true) :
    decode (contextOf prev i) (encode i ++ tail) = .ok (i, tail) := by
  have hgroup : groupAt prev (charOfOrder f.order :: f.kind :: (decimal f.width ++ tail)) = some (f, tail) :=
    groupAt_written prev (some f.order) (isLetter_of_fieldSpec h) f.width htail
  simp [contextOf, encode, h, encodeSpec, decode, hgroup, decodeField_of_fieldSpec h]

/-- R83: a bit-order character immediately before a group sets that group's order. -/
theorem decode_scan_prefix (o : BitOrder) {tail : List Byte} (h : (plainGroupAt tail).isSome = true) :
    decode .scan (charOfOrder o :: tail) = .ok (prefixInstr o, tail) := by
  obtain ⟨g, hg⟩ := Option.isSome_iff_exists.mp h
  have hnone : plainGroupAt (charOfOrder o :: tail) = none := plainGroupAt_of_not_letter (by cases o <;> rfl) tail
  simp [decode, hnone, decodeScanChar, orderOfChar_charOfOrder, hg]

/-- R86, R90: a character that makes no group with what follows it is skipped. -/
theorem decode_scan_skip {prev : BitOrder} {c : Byte} {tail : List Byte} (h : groupAt prev (c :: tail) = none) :
    decode .scan (c :: tail) = .ok (.skip c, tail) := by
  have hnone : plainGroupAt (c :: tail) = none := by
    cases hg : plainGroupAt (c :: tail) with
    | none => rfl
    | some g => rw [groupAt_of_plain hg] at h; cases h
  cases ho : orderOfChar c with
  | none => simp [decode, hnone, decodeScanChar, ho]
  | some o =>
    have htail : plainGroupAt tail = none := by simpa [groupAt, ho] using h
    simp [decode, hnone, decodeScanChar, ho, htail]

/-- Settles O1: a field instruction is its group, a scanned character is read by what follows it, and the codes of the
commands and the group characters are read whatever follows. -/
theorem encodeThenDecodeIsTheInstruction : Obligations.EncodeThenDecodeIsTheInstruction := by
  intro i prev tail h
  cases hf : i.fieldSpec with
  | some f => exact decode_encode_field hf prev (delimited_field hf tail ▸ h)
  | none =>
    cases i
    case prefixMsb => exact decode_scan_prefix .msbFirst h
    case prefixLsb => exact decode_scan_prefix .lsbFirst h
    case skip c => exact decode_scan_skip (Option.isNone_iff_eq_none.mp h)
    case pack | unpack | calcsize | byteswap => rfl
    case byteswapGroup0 | byteswapGroup1 | byteswapGroup2 | byteswapGroup3 | byteswapGroup4 | byteswapGroup5
        | byteswapGroup6 | byteswapGroup7 | byteswapGroup8 | byteswapGroup9 => rfl
    -- what is left are the field instructions, which have an entry
    all_goals cases hf

/-- Settles O6: the decoder evaluates on each word. -/
theorem wordsOfTheSpecDecode : Obligations.WordsOfTheSpecDecode :=
  ⟨rfl, rfl, rfl, rfl, rfl, rfl, rfl, rfl, rfl⟩

/-- Settles O9: each is the update its meaning writes. -/
theorem prefixesSetPrevAndSkippedCharactersDoNothing : Obligations.PrefixesSetPrevAndSkippedCharactersDoNothing :=
  fun _ _ => ⟨rfl, rfl, rfl⟩

end Sys2Proof.Machine
end

section
/-! Ill-formed fields (R87, R91, R92, R196): they compile and count like any others, and end the call with
*format error* when they are executed. -/

namespace Sys2Proof.Machine

/-- Settles O23: an entry with an unknown kind raises at once, one of the seven kinds has an illegal width. -/
theorem illFormedFieldsAreFormatErrors : Obligations.IllFormedFieldsAreFormatErrors := by
  intro i f s hf hwf
  have hdecode := decodeField_of_fieldSpec hf
  rcases exec_decodeField hdecode s with ⟨-, he⟩ | ⟨k, hk, he⟩
  · rw [he, raise_eq]
  · have hi : i = k.instr i.dir f.width f.order := by simpa [decodeField, hk] using hdecode.symm
    have hwidth : legalWidth k f.width = false := by rw [← wf_instr k i.dir f.width f.order, ← hi, hwf]
    rw [he, fieldMeaning_illegal hwidth, raise_eq]

/-! ## Illegal letters -/

theorem ofLetter_eq_none {c : Byte} (h : ∀ k : Kind, k.letter ≠ c) : Kind.ofLetter c = none :=
  Option.eq_none_iff_forall_ne_some.mpr fun k hk => h k (kind_letter_of_ofLetter hk)

theorem illegalInstr_isSome (c : Byte) (w : Nat) (o : BitOrder) :
    (illegalInstr c w o).isSome = (illegalInstr c 0 .msbFirst).isSome := by
  unfold illegalInstr
  split <;> simp_all

/-- R87: every letter is one of the seven kinds or has an instruction of its own. -/
theorem illegalInstr_of_letter {c : Byte} (hc : isLetter c = true) (hk : Kind.ofLetter c = none) (w : Nat)
    (o : BitOrder) : ∃ i, illegalInstr c w o = some i := by
  rw [← Option.isSome_iff_exists, illegalInstr_isSome]
  revert hc hk
  revert c
  decide

theorem valueCount_illegal {c : Byte} (h : ∀ k : Kind, k.letter ≠ c) (w : Nat) (o : BitOrder) :
    valueCount [⟨c, w, o⟩] = 1 := by
  have hp : FieldSpec.isPadding ⟨c, w, o⟩ = false := beq_eq_false_iff_ne.mpr (h .p).symm
  rw [valueCount_singleton, hp]
  rfl

theorem decodeField_illegal {c : Byte} (hk : Kind.ofLetter c = none) (d : Dir) (w : Nat) (o : BitOrder) :
    decodeField d ⟨c, w, o⟩ = illegalInstr c w o := by simp [decodeField, hk]

/-- Settles O24: the compiler looks at the letter's class alone, the counts at padding alone, and the letter's own
instruction raises. -/
theorem illegalLettersCompileAndFailWhenExecuted : Obligations.IllegalLettersCompileAndFailWhenExecuted := by
  intro c w hc hk
  refine ⟨fun prev explicit text => ?compiles, fun o => ⟨valueCount_illegal hk w o, calcsizeOf_singleton _⟩,
    fun o d => ?raises⟩
  case compiles =>
    rw [compileFrom_group (groupAt_written prev explicit hc w rfl), compileFrom_stray rfl]
  case raises =>
    have hnone := ofLetter_eq_none hk
    obtain ⟨i, hi⟩ := illegalInstr_of_letter hc hnone w o
    exact ⟨i, by rw [decodeField_illegal hnone, hi], fun s => exec_illegal hi s⟩

end Sys2Proof.Machine
end

section
/-! CALCSIZE as a whole call (R190, R208, R217, R248), and a command's answer as a run from the state in IDLE that finds
it. -/

namespace Sys2Proof.Machine

/-- The latch leaves nothing that the end of the call does not write again, but the rest of the port (R37, R190). -/
theorem exists_run_endCall {n : Nat} {s : State} {c : Command} {rest : List Command} {r : Response}
    (h : Answers n (step s) (latch c rest s) r) :
    ∃ m cache, m ≤ n + 1 ∧ (∀ e ∈ cache, e.2 = compile e.1) ∧
      run m s = .next { endCall r s with port := rest, cache := cache } := by
  obtain ⟨cache, hcache, hleads⟩ := h
  obtain ⟨m, u, hm, hu, hrun⟩ := hleads.step
  cases hu
  exact ⟨m, cache, hm, hcache, hrun⟩

/-- R248: above a capacity of CALCSIZE its answer is the refusal. -/
theorem calcsizeCall_refused {p : Params} {fmt : List Byte}
    (h : within p.maxFmtLen fmt.length = false ∨ specFits p (compile fmt) = false) :
    calcsizeCall p fmt = .refused .capacity := by
  rcases h with h | h <;> simp [calcsizeCall_eq, h]

/-- Settles O37: the run is the latch, then `execCalcsize_answers`; the clauses on the response are the two branches of
the call-level function. -/
theorem calcsizeRunsToTheSumOfTheWidths : Obligations.CalcsizeRunsToTheSumOfTheWidths := by
  intro s c rest hr hp hq hop hc
  have hanswers : Answers (c.fmt.length + 1) (step s) (latch c rest s) (calcsizeCall s.params c.fmt) := by
    rw [step_command hr hp hq, hop]
    exact execCalcsize_answers (s := latch c rest s) hr rfl (by simp [hop]; rfl) hc
  refine ⟨exists_run_endCall hanswers, fun hlen hfits => ?_, calcsizeCall_refused⟩
  rw [calcsizeCall_eq, if_pos hlen, if_pos hfits, calcsizeOf]

end Sys2Proof.Machine
end

section
/-! Texts joined at a separator (R117): a separator ends every group before it, so the compiler takes the left part as
if it stood alone, and goes on with the order it has then. -/

namespace Sys2Proof

/-! ## The compiler's turns as an induction -/

/-- Induction along the turns of R111's loop: the end of the text, a group, a skipped character. -/
theorem compile_induction {P : BitOrder → List Byte → Prop} (nil : ∀ prev, P prev [])
    (group : ∀ prev text f after, groupAt prev text = some (f, after) → P f.order after → P prev text)
    (skip : ∀ prev c cs, groupAt prev (c :: cs) = none → P prev cs → P prev (c :: cs))
    (prev : BitOrder) (text : List Byte) : P prev text := by
  induction hn : text.length using Nat.strong_induction_on generalizing prev text with
  | _ n ih =>
    subst hn
    cases hg : groupAt prev text with
    | some g => exact group prev text g.1 g.2 hg (ih _ (groupAt_length hg) _ _ rfl)
    | none =>
      cases text with
      | nil => exact nil prev
      | cons c cs => exact skip prev c cs hg (ih _ (Nat.lt_succ_self _) _ _ rfl)

/-! ## A separator ends a group -/

theorem digitRun_append_of_endsRun {rest : List Byte} (h : endsRun rest = true) (acc : Nat) (text : List Byte) :
    digitRun acc (text ++ rest) = Prod.map id (· ++ rest) (digitRun acc text) := by
  induction text generalizing acc with
  | nil => exact digitRun_of_endsRun h acc
  | cons d ds ih =>
    rw [List.cons_append, digitRun, digitRun]
    split
    · exact ih _
    · rfl

theorem plainGroupAt_append_stray {c : Byte} (h : isStray c = true) (text b : List Byte) :
    plainGroupAt (text ++ c :: b) =
      (plainGroupAt text).map (Prod.map id (Prod.map id (· ++ c :: b))) := by
  obtain ⟨hletter, hdigit, -⟩ := isStray_iff.mp h
  match text with
  | [] => exact plainGroupAt_of_not_letter hletter b
  | [x] => simp [plainGroupAt, hdigit]
  | x :: d :: ds =>
    have hrun := digitRun_append_of_endsRun (rest := c :: b) (by simp [hdigit]) 0 (d :: ds)
    simp only [List.cons_append] at hrun
    simp only [List.cons_append, plainGroupAt, hrun]
    split <;> rfl

theorem groupAt_append_stray {c : Byte} (h : isStray c = true) (prev : BitOrder) {text : List Byte}
    (hne : text ≠ []) (b : List Byte) :
    groupAt prev (text ++ c :: b) = (groupAt prev text).map (Prod.map id (· ++ c :: b)) := by
  obtain ⟨x, xs, rfl⟩ := List.exists_cons_of_ne_nil hne
  simp only [List.cons_append, groupAt]
  cases orderOfChar x with
  | some o => simp [plainGroupAt_append_stray h, Function.comp_def]
  | none =>
    have hplain := plainGroupAt_append_stray h (x :: xs) b
    simp only [List.cons_append] at hplain
    simp [hplain, Function.comp_def]

/-! ## The join -/

/-- The order after a table that was compiled from the order `prev` on (R112). -/
def orderAfter (prev : BitOrder) (spec : List FieldSpec) : BitOrder := (spec.getLast?.map (·.order)).getD prev

theorem orderAfter_cons (prev : BitOrder) (f : FieldSpec) (fs : List FieldSpec) :
    orderAfter prev (f :: fs) = orderAfter f.order fs := by
  cases fs <;> simp [orderAfter, List.getLast?_cons]

theorem lastOrder_eq_orderAfter (spec : List FieldSpec) : lastOrder spec = orderAfter .msbFirst spec := rfl

theorem compileFrom_append_stray {c : Byte} (h : isStray c = true) (prev : BitOrder) (a b : List Byte) :
    compileFrom prev (a ++ c :: b) =
      compileFrom prev a ++ compileFrom (orderAfter prev (compileFrom prev a)) b := by
  induction prev, a using compile_induction with
  | nil prev => exact compileFrom_stray h prev b
  | group prev text f after hg ih =>
    have hne : text ≠ [] := by rintro rfl; cases hg
    have hjoined : groupAt prev (text ++ c :: b) = some (f, after ++ c :: b) := by
      rw [groupAt_append_stray h prev hne, hg]
      rfl
    rw [compileFrom_group hjoined, compileFrom_group hg, orderAfter_cons, ih, List.cons_append]
  | skip prev x xs hg ih =>
    have hjoined : groupAt prev (x :: (xs ++ c :: b)) = none := by
      rw [← List.cons_append, groupAt_append_stray h prev (List.cons_ne_nil x xs), hg]
      rfl
    rw [List.cons_append, compileFrom_skip hjoined, compileFrom_skip hg, ih]

/-! ## Widths -/

/-- The order before a text decides neither where its groups stand nor their widths (R85, R112). -/
theorem groupAt_of_other_order {prev : BitOrder} {text : List Byte} {f : FieldSpec} {after : List Byte}
    (h : groupAt prev text = some (f, after)) (prev' : BitOrder) :
    ∃ o, groupAt prev' text = some (⟨f.kind, f.width, o⟩, after) := by
  obtain ⟨c, cs, rfl, ⟨o, ho, -, hp⟩ | ⟨-, -, hp⟩⟩ := groupAt_eq_some h
  · exact ⟨o, by simp [groupAt, ho, hp]⟩
  · exact ⟨prev', groupAt_of_plain hp⟩

theorem groupAt_none_of_other_order {prev : BitOrder} {text : List Byte} (h : groupAt prev text = none)
    (prev' : BitOrder) : groupAt prev' text = none := by
  refine Option.eq_none_iff_forall_ne_some.mpr fun g hg => ?_
  obtain ⟨o, ho⟩ := groupAt_of_other_order hg prev
  cases h.symm.trans ho

theorem calcsizeOf_compileFrom (prev prev' : BitOrder) (text : List Byte) :
    calcsizeOf (compileFrom prev text) = calcsizeOf (compileFrom prev' text) := by
  induction prev, text using compile_induction generalizing prev' with
  | nil prev => rfl
  | group prev text f after hg ih =>
    obtain ⟨o, hg'⟩ := groupAt_of_other_order hg prev'
    rw [compileFrom_group hg, compileFrom_group hg', Machine.calcsizeOf_cons, Machine.calcsizeOf_cons, ih o]
  | skip prev c cs hg ih =>
    rw [compileFrom_skip hg, compileFrom_skip (groupAt_none_of_other_order hg prev'), ih prev']

/-- Settles O3: by induction along the left part's turns; the widths of the right part are those of any order. -/
theorem compileOfAConcatenationAtASeparator : Obligations.CompileOfAConcatenationAtASeparator := by
  intro a b c hc
  have hjoin : compile (a ++ c :: b) = compile a ++ compileFrom (lastOrder (compile a)) b :=
    lastOrder_eq_orderAfter (compile a) ▸ compileFrom_append_stray hc .msbFirst a b
  refine ⟨hjoin, ?_⟩
  rw [hjoin, Machine.calcsizeOf_append, calcsizeOf_compileFrom _ .msbFirst b, ← compile]

end Sys2Proof
end

section
/-! The step that compiles a group (R111, R113): the entry it stores is the one its text decodes through. -/

namespace Sys2Proof.Machine

/-- What the decoder reads as a group: the instruction of the group's entry (R26, R81). -/
theorem decode_group_ok {d : Dir} {prev : BitOrder} {text after : List Byte} {i : Instr}
    (h : decode (.group d prev) text = .ok (i, after)) :
    ∃ f, groupAt prev text = some (f, after) ∧ decodeField d f = some i := by
  cases text with
  | nil => cases h
  | cons c cs =>
    cases hg : groupAt prev (c :: cs) with
    | none => simp [decode, hg] at h
    | some g =>
      obtain ⟨f, rest⟩ := g
      cases hi : decodeField d f with
      | none => simp [decode, hg, hi] at h
      | some j =>
        simp only [decode, hg, hi, Except.ok.injEq, Prod.mk.injEq] at h
        obtain ⟨rfl, rfl⟩ := h
        exact ⟨f, rfl, hi⟩

/-- A plain group's length is what it takes off the text (R82). -/
theorem drop_plainGroupAt {text after : List Byte} {k : Byte} {w : Nat}
    (h : plainGroupAt text = some (k, w, after)) : text.drop (text.length - after.length) = after :=
  (List.suffix_iff_eq_drop.mp (plainGroupAt_suffix h).1).symm

/-- The compiler's turn where a plain group stands at SI (R111). -/
theorem step_compile_group {s : State} (hr : s.resetIn = false) (hp : s.phase = .busy) (hs : s.stage = .compile)
    {k : Byte} {w : Nat} {after : List Byte} (hg : plainGroupAt (s.fmt.drop s.si) = some (k, w, after)) :
    step s = .next (compileGroup k w ((s.fmt.drop s.si).length - after.length) s) := by
  obtain ⟨d, rest, htext, -, -, -⟩ := plainGroupAt_eq_some hg
  rw [htext] at hg
  simp [step_scan hr hp hs, fetchScan, htext, hg, runFetched]

/-- Settles O8: a plain group takes PREV in the decoder as in the compiler's turn, so both have one entry. -/
theorem aCompiledGroupIsTheInstructionOfItsText : Obligations.ACompiledGroupIsTheInstructionOfItsText := by
  intro s d i after hr hp hs hplain hdecode
  obtain ⟨⟨k, w, rest⟩, hg⟩ := Option.isSome_iff_exists.mp hplain
  obtain ⟨f, hf, hi⟩ := decode_group_ok hdecode
  rw [groupAt_of_plain hg, Option.some.injEq, Prod.mk.injEq] at hf
  obtain ⟨rfl, rfl⟩ := hf
  refine ⟨_, _, decodeField_fieldSpec hi, hi, ?_, step_compile_group hr hp hs hg⟩
  rw [← List.drop_drop, drop_plainGroupAt hg]

end Sys2Proof.Machine
end

section
/-! The integer and boolean kinds (R130–R138): what a field instruction of a legal width does with its encoder's or
decoder's answer, and what the encoders and decoders of `u`, `s` and `b` answer. -/

namespace Sys2Proof.Machine

/-! ## The field steps -/

/-- R84: every kind but the float takes any width from 1 on. -/
theorem legalWidth_of_ne_zero {k : Kind} {w : Nat} (hk : k ≠ .f) (hw : w ≠ 0) : legalWidth k w = true := by
  cases k
  case f => exact absurd rfl hk
  all_goals exact bne_iff_ne.mpr hw

/-- R57, R194: the bits of a field that encodes are appended to a buffer that ends at CUR. -/
theorem exec_enc_value {k : Kind} {w : Nat} {s : State} {v : Value} {b : Bits} (hk : k ≠ .p)
    (hw : legalWidth k w = true) (hlen : s.wbits.length = s.cur) (hv : s.val[s.vi]? = some v)
    (he : encodeKind k w v = .ok b) (o : BitOrder) :
    exec (k.instr .enc w o) s = .next { s with
      wbits := s.wbits ++ inOrder o b, cur := s.cur + w, vi := s.vi + 1, fi := s.fi + 1 } := by
  rw [exec_instr, fieldMeaning_enc_value hk hw hv he hlen, packed, encodeKind_length hw he]

/-- R58, R204: the value of a field that lies inside the input and decodes is appended to OUTV. -/
theorem exec_dec_value {k : Kind} {w : Nat} {o : BitOrder} {s : State} {v : Value} (hk : k ≠ .p)
    (hw : legalWidth k w = true) (hle : s.cur + w ≤ s.totalBits) (hd : decodeKind k w (fieldBits w o s) = .ok v) :
    exec (k.instr .dec w o) s = .next { s with cur := s.cur + w, fi := s.fi + 1, outv := s.outv ++ [v] } := by
  rw [fieldBits] at hd
  rw [exec_instr, fieldMeaning_dec_of_ne_padding hk]
  rcases unpackField_cases k w o (decodeKind k w) s with ⟨hill, -⟩ | ⟨-, hlt, -⟩ | ⟨e, -, -, he, -⟩ | ⟨x, -, -, hx, h⟩
  · simp [hw] at hill
  · omega
  · simp [hd] at he
  · obtain rfl : v = x := by simpa [hd] using hx
    exact h

theorem fieldBits_length {w : Nat} {s : State} (hle : s.cur + w ≤ s.totalBits) (o : BitOrder) :
    (fieldBits w o s).length = w := by
  rw [fieldBits, inOrder_length, memRead_length _ _ _ hle]

/-! ## Integers -/

@[simp] theorem intBits_length (w : Nat) (z : Int) : (intBits w z).length = w := by simp [intBits]

/-- R137: the bits of an integer are worth its floor remainder. -/
theorem valOf_intBits (w : Nat) (z : Int) : (valOf (intBits w z) : Int) = z % 2 ^ w := by
  have hpos : (0 : Int) < 2 ^ w := by positivity
  rw [intBits, valOf_bitsOf]
  push_cast
  rw [Int.toNat_of_nonneg (Int.emod_nonneg z hpos.ne'), Int.emod_emod]

theorem encU_of_toInt {v : Value} {z : Int} (h : toInt v = .ok z) (w : Nat) : encU w v = .ok (intBits w z) := by
  simp [encU, h]

theorem encS_of_toInt {v : Value} {z : Int} (h : toInt v = .ok z) (w : Nat) : encS w v = .ok (intBits w z) := by
  simp [encS, h]

/-- R133: the first logical bit counts negatively. -/
theorem decS_cons (c : Bool) (t : Bits) :
    decS (t.length + 1) (c :: t) = .ok (.int (valOf t - (c.toNat : Int) * 2 ^ t.length)) := by
  cases c with
  | false => simp [decS, valOf_cons]
  | true =>
    simp only [decS, valOf_cons, List.head?_cons, if_true, Bool.toNat_true]
    push_cast
    congr 2
    ring

/-- R133: `decS` answers the one number of the signed range that is congruent to its bits, the first of which is its
sign. -/
theorem decS_twosComplement {w : Nat} {b : Bits} (hw : w ≠ 0) (hlen : b.length = w) :
    ∃ z : Int, decS w b = .ok (.int z) ∧ -(2 : Int) ^ (w - 1) ≤ z ∧ z < (2 : Int) ^ (w - 1) ∧ z % 2 ^ w = valOf b ∧
      (z < 0 ↔ b.head? = some true) := by
  cases b with
  | nil => exact absurd hlen.symm hw
  | cons c t =>
    subst hlen
    refine ⟨_, decS_cons c t, ?_⟩
    have hpow : (2 : Int) ^ (t.length + 1) = 2 * 2 ^ t.length := pow_succ' 2 t.length
    have ht : (valOf t : Int) < 2 ^ t.length := by exact_mod_cast valOf_lt t
    simp only [List.length_cons, Nat.add_sub_cancel, List.head?_cons, valOf_cons, Option.some.injEq]
    cases c with
    | false =>
      simp only [Bool.toNat_false, Nat.cast_zero, zero_mul, sub_zero, zero_add, Bool.false_eq_true, iff_false]
      exact ⟨by omega, ht, Int.emod_eq_of_lt (by omega) (by omega), by omega⟩
    | true =>
      simp only [Bool.toNat_true, Nat.cast_one, one_mul, iff_true]
      push_cast
      refine ⟨by omega, by omega, ?_, by omega⟩
      calc ((valOf t : Int) - 2 ^ t.length) % 2 ^ (t.length + 1)
          = ((valOf t : Int) - 2 ^ t.length + 2 ^ (t.length + 1)) % 2 ^ (t.length + 1) := (Int.add_emod_right ..).symm
        _ = (valOf t : Int) - 2 ^ t.length + 2 ^ (t.length + 1) := Int.emod_eq_of_lt (by omega) (by omega)
        _ = 2 ^ t.length + valOf t := by omega

/-! ## Booleans -/

/-- R134: `w` bits worth 0 or 1 are `w - 1` zeros and the truth. -/
theorem bitsOf_truth {w : Nat} (hw : w ≠ 0) (x : Bool) :
    bitsOf (if x then 1 else 0) w = List.replicate (w - 1) false ++ [x] := by
  obtain ⟨n, rfl⟩ := Nat.exists_eq_succ_of_ne_zero hw
  refine valOf_inj (by simp) ?_
  rw [valOf_bitsOf, valOf_append, valOf_replicate_false]
  cases x with
  | false => simp [valOf_cons]
  | true => simp [valOf_cons, Nat.mod_eq_of_lt]

theorem encB_of_toTruth {w : Nat} {v : Value} {x : Bool} (hw : w ≠ 0) (h : toTruth v = .ok x) :
    encB w v = .ok (List.replicate (w - 1) false ++ [x]) := by
  simp [encB, h, ← bitsOf_truth hw]

/-- R8: a bit string is worth something exactly when one of its bits is one. -/
theorem valOf_bne_zero (b : Bits) : (valOf b != 0) = b.contains true := by
  induction b with
  | nil => rfl
  | cons c t ih => cases c <;> simp_all [valOf_cons]

theorem decB_contains (b : Bits) : decB b = .ok (.bool (b.contains true)) := by rw [decB, valOf_bne_zero]

/-! ## Operands -/

/-- R136: each encoder raises *coercion error* on the tags its kind does not take. -/
theorem encodeKind_of_not_accepts {k : Kind} {v : Value} (hk : k ≠ .p) (h : accepts k v = false) (w : Nat) :
    encodeKind k w v = .error .coercionError := by
  cases k
  case p => exact absurd rfl hk
  case u | s | b =>
    cases v with
    | int _ | bool _ => cases h
    | real _ | bytes _ | text _ => rfl
  case f =>
    cases v with
    | real _ => cases h
    | int _ | bool _ | bytes _ | text _ => rfl
  case t =>
    cases v with
    | text _ => cases h
    | int _ | bool _ | real _ | bytes _ => rfl
  case r =>
    cases v with
    | bytes _ => cases h
    | int _ | bool _ | real _ | text _ => rfl

/-! ## The statements -/

/-- Settles O10: both encoders give the bits of the operand's integer, which are worth its floor remainder. -/
theorem integerEncodersWriteTheRemainderModuloTwoToTheWidth :
    Obligations.IntegerEncodersWriteTheRemainderModuloTwoToTheWidth := by
  intro i w o s v z hi hw hlen hv hz
  have hint : toInt v = .ok z := by rcases hz with rfl | ⟨rfl, rfl⟩ | ⟨rfl, rfl⟩ <;> rfl
  refine ⟨intBits w z, intBits_length w z, valOf_intBits w z, ?_⟩
  rcases hi with rfl | rfl
  · exact exec_enc_value (k := .u) (by decide) (legalWidth_of_ne_zero (by decide) hw) hlen hv (encU_of_toInt hint w) o
  · exact exec_enc_value (k := .s) (by decide) (legalWidth_of_ne_zero (by decide) hw) hlen hv (encS_of_toInt hint w) o

/-- Settles O11: the operand is worth a truth, and that is the last bit of the field. -/
theorem booleanEncoderWritesZeroOrOne : Obligations.BooleanEncoderWritesZeroOrOne := by
  intro w o s v x hw hlen hv hx
  have htruth : toTruth v = .ok x := by
    rcases hx with rfl | ⟨z, rfl, hz⟩
    · rfl
    · cases x <;> simp_all [toTruth]
  exact exec_enc_value (k := .b) (by decide) (legalWidth_of_ne_zero (by decide) hw) hlen hv
    (encB_of_toTruth hw htruth) o

/-- Settles O15: the encoder's *coercion error* is the answer of the field step. -/
theorem operandsOfAnotherTagAreCoercionErrors : Obligations.OperandsOfAnotherTagAreCoercionErrors := by
  intro k w o s v hk hwf hv hacc
  rw [wf_instr] at hwf
  rw [exec_instr, fieldMeaning_enc_error hk hwf hv (encodeKind_of_not_accepts hk hacc w), raise_eq]

/-- Settles O16: `decU` answers the value of the field's `w` bits, which is below `2^w`. -/
theorem unsignedDecoderGivesTheValueOfTheBits : Obligations.UnsignedDecoderGivesTheValueOfTheBits := by
  intro w o s hw hle
  have hlt := valOf_lt (fieldBits w o s)
  rw [fieldBits_length hle] at hlt
  exact ⟨hlt, exec_dec_value (k := .u) (by decide) (legalWidth_of_ne_zero (by decide) hw) hle rfl⟩

/-- Settles O17: the number is the one `decS_twosComplement` gives for the bits read. -/
theorem signedDecoderGivesTheTwosComplementNumber : Obligations.SignedDecoderGivesTheTwosComplementNumber := by
  intro w o s hw hle
  obtain ⟨z, hdec, hlow, hhigh, hcongr, hsign⟩ := decS_twosComplement hw (fieldBits_length hle o)
  exact ⟨z, hlow, hhigh, hcongr, hsign,
    exec_dec_value (k := .s) (by decide) (legalWidth_of_ne_zero (by decide) hw) hle hdec⟩

/-- Settles O18: `decB` answers whether one of the bits read is one. -/
theorem booleanDecoderGivesWhetherABitIsSet : Obligations.BooleanDecoderGivesWhetherABitIsSet := by
  intro w o s hw hle
  exact exec_dec_value (k := .b) (by decide) (legalWidth_of_ne_zero (by decide) hw) hle (decB_contains _)

/-- Settles O45: the bits both encoders give are worth the remainder, and `decS` answers the signed number congruent to
what they are worth. -/
theorem integersRoundTripModuloTwoToTheWidth : Obligations.IntegersRoundTripModuloTwoToTheWidth := by
  intro w z hw
  obtain ⟨y, hdec, hlow, hhigh, hcongr, -⟩ := decS_twosComplement hw (intBits_length w z)
  rw [valOf_intBits] at hcongr
  exact ⟨intBits w z, y, encU_of_toInt rfl w, encS_of_toInt rfl w, by rw [decU, valOf_intBits], hdec, hlow, hhigh,
    hcongr⟩

end Sys2Proof.Machine
end

section
/-! The two float layouts (R153) and the conversions between them (R154, R155): the fields of a packed pattern, a
binary64 pattern as determined by its sign and magnitude, WIDEN32 as the same number, and NARROW32 as its inverse. -/

namespace Sys2Proof.Machine

/-! ## Fields of a pattern (R153) -/

theorem sign64_lt (x : BitVec 64) : sign64 x < 2 := by
  have := x.isLt
  unfold sign64
  omega

theorem frac64_lt (x : BitVec 64) : frac64 x < 2 ^ 52 := Nat.mod_lt _ (by positivity)

theorem sign32_lt (y : BitVec 32) : sign32 y < 2 := by
  have := y.isLt
  unfold sign32
  omega

theorem exp32_lt (y : BitVec 32) : exp32 y < 2 ^ 8 := Nat.mod_lt _ (by positivity)

theorem frac32_lt (y : BitVec 32) : frac32 y < 2 ^ 23 := Nat.mod_lt _ (by positivity)

/-- Packing three binary64 fields and taking them apart gives them back. -/
theorem fields_pack64 {s e f : Nat} (hs : s < 2) (he : e < 2 ^ 11) (hf : f < 2 ^ 52) :
    sign64 (pack64 s e f) = s ∧ exp64 (pack64 s e f) = e ∧ frac64 (pack64 s e f) = f := by
  simp only [sign64, exp64, frac64, pack64, BitVec.toNat_ofNat]
  omega

/-- Packing three binary32 fields and taking them apart gives them back. -/
theorem fields_pack32 {s e f : Nat} (hs : s < 2) (he : e < 2 ^ 8) (hf : f < 2 ^ 23) :
    sign32 (pack32 s e f) = s ∧ exp32 (pack32 s e f) = e ∧ frac32 (pack32 s e f) = f := by
  simp only [sign32, exp32, frac32, pack32, BitVec.toNat_ofNat]
  omega

/-- A binary64 pattern is its three fields. -/
theorem ext_fields64 {x x' : BitVec 64} (hs : sign64 x = sign64 x') (he : exp64 x = exp64 x')
    (hf : frac64 x = frac64 x') : x = x' := by
  simp only [sign64, exp64, frac64] at hs he hf
  exact BitVec.eq_of_toNat_eq (by omega)

/-- A binary32 pattern is its three fields. -/
theorem pack32_fields (y : BitVec 32) : pack32 (sign32 y) (exp32 y) (frac32 y) = y := by
  have := y.isLt
  apply BitVec.eq_of_toNat_eq
  simp only [sign32, exp32, frac32, pack32, BitVec.toNat_ofNat]
  omega

theorem isNaN64_iff (x : BitVec 64) : isNaN64 x = true ↔ exp64 x = 2047 ∧ frac64 x ≠ 0 := by simp [isNaN64]

theorem isNaN32_iff (y : BitVec 32) : isNaN32 y = true ↔ exp32 y = 255 ∧ frac32 y ≠ 0 := by simp [isNaN32]

/-- R155 (c): the free answer of WIDEN32 only chooses which NaN. -/
theorem isNaN64_someNaN64 (free : BitVec 64) : isNaN64 (someNaN64 free) = true := by
  have hfrac := frac64_lt free
  obtain ⟨-, he, hf⟩ := fields_pack64 (e := 2047) (f := if frac64 free = 0 then 1 else frac64 free)
    (sign64_lt free) (by norm_num) (by split <;> omega)
  rw [isNaN64_iff, someNaN64, he, hf]
  exact ⟨rfl, by split <;> omega⟩

/-- R154 (c): the free answer of NARROW32 only chooses which NaN. -/
theorem isNaN32_someNaN32 (free : BitVec 32) : isNaN32 (someNaN32 free) = true := by
  have hfrac := frac32_lt free
  obtain ⟨-, he, hf⟩ := fields_pack32 (e := 255) (f := if frac32 free = 0 then 1 else frac32 free)
    (sign32_lt free) (by norm_num) (by split <;> omega)
  rw [isNaN32_iff, someNaN32, he, hf]
  exact ⟨rfl, by split <;> omega⟩

/-! ## Magnitudes of binary64 -/

/-- An exponent field bounds the magnitude: binades do not overlap. -/
theorem magnitude64_lt (x : BitVec 64) : magnitude64 x < 2 ^ (52 + exp64 x) := by
  have hf := frac64_lt x
  unfold magnitude64
  split
  · next he => simpa [he] using hf
  · next he =>
    calc (2 ^ 52 + frac64 x) * 2 ^ (exp64 x - 1) < 2 ^ 53 * 2 ^ (exp64 x - 1) :=
          Nat.mul_lt_mul_of_pos_right (by omega) (by positivity)
      _ = 2 ^ (52 + exp64 x) := by rw [← pow_add]; congr 1; omega

theorem le_magnitude64 {x : BitVec 64} {n : Nat} (h : n < exp64 x) : 2 ^ (52 + n) ≤ magnitude64 x := by
  rw [magnitude64, if_neg (by omega), pow_add]
  exact Nat.mul_le_mul (by omega) (Nat.pow_le_pow_right (by norm_num) (by omega))

theorem exp64_eq_of_magnitude64_eq {x x' : BitVec 64} (h : magnitude64 x = magnitude64 x') : exp64 x = exp64 x' := by
  have hx := magnitude64_lt x
  have hx' := magnitude64_lt x'
  rcases Nat.lt_trichotomy (exp64 x) (exp64 x') with hlt | heq | hgt
  · have := le_magnitude64 hlt
    omega
  · exact heq
  · have := le_magnitude64 hgt
    omega

/-- R153: a binary64 datum has one pattern. -/
theorem eq_of_sign64_eq_of_magnitude64_eq {x x' : BitVec 64} (hs : sign64 x = sign64 x')
    (hm : magnitude64 x = magnitude64 x') : x = x' := by
  have he := exp64_eq_of_magnitude64_eq hm
  refine ext_fields64 hs he ?_
  unfold magnitude64 at hm
  rw [← he] at hm
  split at hm
  · exact hm
  · exact Nat.add_left_cancel (Nat.eq_of_mul_eq_mul_right (by positivity) hm)

/-! ## WIDEN32 (R155) -/

/-- `topBit` finds the binade of a number. -/
theorem topBit_spec {n f : Nat} (h0 : f ≠ 0) (hf : f < 2 ^ n) :
    topBit n f < n ∧ 2 ^ topBit n f ≤ f ∧ f < 2 ^ (topBit n f + 1) := by
  induction n with
  | zero => omega
  | succ n ih =>
    unfold topBit
    split
    · next htop => exact ⟨by omega, Nat.ge_two_pow_of_testBit htop, hf⟩
    · next htop =>
      have hlt : f < 2 ^ n := by
        by_contra hge
        exact htop (Nat.testBit_of_two_pow_le_and_two_pow_add_one_gt (by omega) hf)
      obtain ⟨hk, hle, hlt'⟩ := ih hlt
      exact ⟨by omega, hle, hlt'⟩

/-- The significand of a widened subnormal with top bit `k` is `f` shifted so that its top bit is the hidden one. -/
theorem subnormal_significand {k f : Nat} (hk : k ≤ 52) (hle : 2 ^ k ≤ f) :
    2 ^ 52 + (f - 2 ^ k) * 2 ^ (52 - k) = f * 2 ^ (52 - k) := by
  have hpow : 2 ^ k * 2 ^ (52 - k) = 2 ^ 52 := by rw [← pow_add]; congr 1; omega
  have hshift := Nat.mul_le_mul_right (2 ^ (52 - k)) hle
  rw [Nat.sub_mul, hpow]
  omega

/-- The patterns that are no NaN and what WIDEN32 gives for each: an infinity, a zero, a subnormal with top bit `k`, a
normal number. -/
theorem widen32_cases {y : BitVec 32} (hnan : isNaN32 y = false) :
    (exp32 y = 255 ∧ frac32 y = 0 ∧ widen32 y = pack64 (sign32 y) 2047 0) ∨
    (exp32 y = 0 ∧ frac32 y = 0 ∧ widen32 y = pack64 (sign32 y) 0 0) ∨
    (∃ k, exp32 y = 0 ∧ k < 23 ∧ 2 ^ k ≤ frac32 y ∧ (frac32 y - 2 ^ k) * 2 ^ (52 - k) < 2 ^ 52 ∧
      widen32 y = pack64 (sign32 y) (k + 874) ((frac32 y - 2 ^ k) * 2 ^ (52 - k))) ∨
    (exp32 y ≠ 0 ∧ exp32 y ≠ 255 ∧ widen32 y = pack64 (sign32 y) (exp32 y + 896) (frac32 y * 2 ^ 29)) := by
  by_cases hinf : exp32 y = 255
  · have hf : frac32 y = 0 := by simpa [isNaN32, hinf] using hnan
    exact .inl ⟨hinf, hf, by simp [widen32, hnan, hinf]⟩
  · by_cases he : exp32 y = 0
    · by_cases hf : frac32 y = 0
      · exact .inr (.inl ⟨he, hf, by simp [widen32, hnan, he, hf]⟩)
      · obtain ⟨hk, hle, hlt⟩ := topBit_spec hf (frac32_lt y)
        refine .inr (.inr (.inl ⟨topBit 23 (frac32 y), he, hk, hle, ?_, by
          simp [widen32, widenSubnormal, hnan, he, hf]⟩))
        calc (frac32 y - 2 ^ topBit 23 (frac32 y)) * 2 ^ (52 - topBit 23 (frac32 y))
            < 2 ^ topBit 23 (frac32 y) * 2 ^ (52 - topBit 23 (frac32 y)) :=
              Nat.mul_lt_mul_of_pos_right (by rw [pow_succ] at hlt; omega) (by positivity)
          _ = 2 ^ 52 := by rw [← pow_add]; congr 1; omega
    · exact .inr (.inr (.inr ⟨he, hinf, by simp [widen32, hnan, hinf, he]⟩))

/-- Scalings by two powers of two agree when the sums of their exponents do. -/
theorem mul_two_pow_mul_two_pow {i j k l : Nat} (a : Nat) (h : i + j = k + l) :
    a * 2 ^ i * 2 ^ j = a * 2 ^ k * 2 ^ l := by
  rw [mul_assoc, ← pow_add, h, pow_add, mul_assoc]

/-- R155 (b): a finite pattern widens to the same number. -/
theorem widen32_finite {y : BitVec 32} (h : exp32 y ≠ 255) :
    exp64 (widen32 y) ≠ 2047 ∧ sign64 (widen32 y) = sign32 y ∧ magnitude64 (widen32 y) = magnitude32 y := by
  have hs := sign32_lt y
  have he := exp32_lt y
  have hf := frac32_lt y
  rcases widen32_cases (y := y) (by simp [isNaN32, h]) with
    ⟨hinf, -, -⟩ | ⟨he0, hf0, hw⟩ | ⟨k, he0, hk, hle, hlt, hw⟩ | ⟨he0, -, hw⟩
  · exact absurd hinf h
  · obtain ⟨hsign, hexp, hfrac⟩ := fields_pack64 (e := 0) (f := 0) hs (by norm_num) (by norm_num)
    refine ⟨by rw [hw, hexp]; omega, by rw [hw, hsign], ?_⟩
    rw [magnitude64, magnitude32, hw, hexp, hfrac, if_pos rfl, if_pos he0, hf0, Nat.zero_mul]
  · obtain ⟨hsign, hexp, hfrac⟩ := fields_pack64 hs (show k + 874 < 2 ^ 11 by omega) hlt
    refine ⟨by rw [hw, hexp]; omega, by rw [hw, hsign], ?_⟩
    rw [magnitude64, magnitude32, hw, hexp, hfrac, if_neg (by omega), if_pos he0,
      subnormal_significand (by omega) hle, mul_assoc, ← pow_add, show 52 - k + (k + 874 - 1) = 925 by omega]
  · obtain ⟨hsign, hexp, hfrac⟩ := fields_pack64 hs (show exp32 y + 896 < 2 ^ 11 by omega)
      (show frac32 y * 2 ^ 29 < 2 ^ 52 by omega)
    refine ⟨by rw [hw, hexp]; omega, by rw [hw, hsign], ?_⟩
    rw [magnitude64, magnitude32, hw, hexp, hfrac, if_neg (by omega), if_neg he0,
      show 2 ^ 52 + frac32 y * 2 ^ 29 = (2 ^ 23 + frac32 y) * 2 ^ 29 by omega]
    exact mul_two_pow_mul_two_pow _ (by omega)

/-- R155 (b): an infinity widens to the infinity of its sign. -/
theorem widen32_infinity {y : BitVec 32} (he : exp32 y = 255) (hf : frac32 y = 0) :
    exp64 (widen32 y) = 2047 ∧ frac64 (widen32 y) = 0 ∧ sign64 (widen32 y) = sign32 y := by
  obtain ⟨hsign, hexp, hfrac⟩ := fields_pack64 (e := 2047) (f := 0) (sign32_lt y) (by norm_num) (by norm_num)
  simp [widen32, isNaN32, he, hf, hsign, hexp, hfrac]

theorem widen32_nan {y : BitVec 32} (h : isNaN32 y = true) : widen32 y = someNaN64 (Config.widenNaN y) := by
  simp [widen32, h]

/-! ## NARROW32 (R154) -/

/-- R154 (b): binary32 holds what it widens to, so narrowing that is exact. -/
theorem exact32_widen32 {y : BitVec 32} (hnan : isNaN32 y = false) : exact32 (widen32 y) = some y := by
  have hs := sign32_lt y
  have he := exp32_lt y
  have hf := frac32_lt y
  have hy := pack32_fields y
  rcases widen32_cases hnan with
    ⟨he', hf', hw⟩ | ⟨he', hf', hw⟩ | ⟨k, he', hk, hle, hlt, hw⟩ | ⟨he0, hinf, hw⟩
  · obtain ⟨hsign, hexp, hfrac⟩ := fields_pack64 (e := 2047) (f := 0) hs (by norm_num) (by norm_num)
    rw [he', hf'] at hy
    simp [hw, exact32, hsign, hexp, hfrac, hy]
  · obtain ⟨hsign, hexp, hfrac⟩ := fields_pack64 (e := 0) (f := 0) hs (by norm_num) (by norm_num)
    rw [he', hf'] at hy
    simp [hw, exact32, hsign, hexp, hfrac, hy]
  · obtain ⟨hsign, hexp, hfrac⟩ := fields_pack64 hs (show k + 874 < 2 ^ 11 by omega) hlt
    rw [he'] at hy
    simp only [hw, exact32, hsign, hexp, hfrac]
    rw [if_neg (by omega), if_neg (by omega), if_neg (by omega), if_pos (by omega),
      subnormal_significand (by omega) hle, show 926 - (k + 874) = 52 - k by omega, if_pos (Nat.mul_mod_left ..),
      Nat.mul_div_cancel _ (by positivity), hy]
  · obtain ⟨hsign, hexp, hfrac⟩ := fields_pack64 hs (show exp32 y + 896 < 2 ^ 11 by omega)
      (show frac32 y * 2 ^ 29 < 2 ^ 52 by omega)
    simp only [hw, exact32, hsign, hexp, hfrac]
    rw [if_neg (by omega), if_neg (by omega), if_pos (by omega), if_pos (Nat.mul_mod_left ..),
      Nat.mul_div_cancel _ (by positivity), Nat.add_sub_cancel, hy]

theorem exact32_nan {x : BitVec 64} (h : isNaN64 x = true) : exact32 x = none := by
  obtain ⟨he, hf⟩ := (isNaN64_iff x).mp h
  simp [exact32, he, hf]

theorem narrow32_nan {x : BitVec 64} (h : isNaN64 x = true) : narrow32 x = some (someNaN32 (Config.narrowNaN x)) := by
  simp [narrow32, h]

theorem narrow32_of_exact32 {x : BitVec 64} {y : BitVec 32} (h : exact32 x = some y) : narrow32 x = some y := by
  cases hnan : isNaN64 x with
  | true => simp [exact32_nan hnan] at h
  | false => simp [narrow32, hnan, h]

/-- R154, R155: NARROW32 undoes WIDEN32 on every pattern that is no NaN. -/
theorem narrow32_widen32 {y : BitVec 32} (hnan : isNaN32 y = false) : narrow32 (widen32 y) = some y :=
  narrow32_of_exact32 (exact32_widen32 hnan)

/-! ## The statements -/

/-- Settles O47: the finite patterns, the infinities and the NaNs have a lemma each. -/
theorem widenIsExactOnEveryNumber : Obligations.WidenIsExactOnEveryNumber := by
  refine ⟨fun y => widen32_finite, fun y => widen32_infinity, fun y hnan => ?_⟩
  rw [widen32_nan hnan]
  exact isNaN64_someNaN64 _

/-- Settles O46: the one binary64 pattern with the datum of `y` is `widen32 y`, which narrows to `y`. -/
theorem narrowIsExactOnRepresentableReals : Obligations.NarrowIsExactOnRepresentableReals := by
  refine ⟨fun x y _ hy hs hm => ?_, fun x y hx hfx hy hfy hs => ?_, fun x hnan => ?_⟩
  · obtain ⟨-, hws, hwm⟩ := widen32_finite hy
    obtain rfl : x = widen32 y := eq_of_sign64_eq_of_magnitude64_eq (hs.trans hws.symm) (hm.trans hwm.symm)
    exact narrow32_widen32 (by simp [isNaN32, hy])
  · obtain ⟨hwe, hwf, hws⟩ := widen32_infinity hy hfy
    obtain rfl : x = widen32 y := ext_fields64 (hs.trans hws.symm) (hx.trans hwe.symm) (hfx.trans hwf.symm)
    exact narrow32_widen32 (by simp [isNaN32, hfy])
  · exact ⟨_, narrow32_nan hnan, isNaN32_someNaN32 _⟩

end Sys2Proof.Machine
end

section
/-! The float kind (R151, R152): what `f` writes and gives in a field of either width. -/

namespace Sys2Proof.Machine

/-- R8: a pattern's own bits are worth the pattern. -/
theorem valOf_bitsOf_toNat {n : Nat} (x : BitVec n) : valOf (bitsOf x.toNat n) = x.toNat := by
  rw [valOf_bitsOf, Nat.mod_eq_of_lt x.isLt]

/-- R8: bits read as a pattern of their own length give the pattern they are worth. -/
theorem toNat_ofNat_valOf {n : Nat} {b : Bits} (h : b.length = n) : (BitVec.ofNat n (valOf b)).toNat = valOf b := by
  subst h
  rw [BitVec.toNat_ofNat, Nat.mod_eq_of_lt (valOf_lt b)]

/-- R151: a 64-bit field holds the operand's pattern. -/
theorem encF_64 (x : BitVec 64) : encF 64 (.real x) = .ok (bitsOf x.toNat 64) := rfl

/-- R151: a 32-bit field holds NARROW32's pattern. -/
theorem encF_32_of_narrow {x : BitVec 64} {y : BitVec 32} (h : narrow32 x = some y) :
    encF 32 (.real x) = .ok (bitsOf y.toNat 32) := by simp [encF, toReal, h]

theorem encF_32_of_not_narrow {x : BitVec 64} (h : narrow32 x = none) :
    encF 32 (.real x) = .error .coercionError := by simp [encF, toReal, h]

/-- R152: a 64-bit field is a pattern. -/
theorem decF_64 (b : Bits) : decF 64 b = .ok (.real (BitVec.ofNat 64 (valOf b))) := by simp [decF]

/-- R152: a 32-bit field is a pattern to widen. -/
theorem decF_32 (b : Bits) : decF 32 b = .ok (.real (widen32 (BitVec.ofNat 32 (valOf b)))) := by simp [decF]

/-- Settles O12: the encoder's answer for either width is appended, and its *coercion error* ends the call. -/
theorem floatEncoderWritesThePattern : Obligations.FloatEncoderWritesThePattern := by
  intro o s x hlen hv
  refine ⟨⟨bitsOf x.toNat 64, bitsOf_length .., valOf_bitsOf_toNat x, ?_⟩,
    fun y hy => ⟨bitsOf y.toNat 32, bitsOf_length .., valOf_bitsOf_toNat y, ?_⟩, fun hnone => ?_⟩
  · exact exec_enc_value (k := .f) (w := 64) (by decide) (by decide) hlen hv (encF_64 x) o
  · exact exec_enc_value (k := .f) (w := 32) (by decide) (by decide) hlen hv (encF_32_of_narrow hy) o
  · exact (exec_instr .f .enc 32 o s).trans
      (fieldMeaning_enc_error (k := .f) (w := 32) (by decide) (by decide) hv (encF_32_of_not_narrow hnone) o)

/-- Settles O19: the bits read, as a pattern of the field's width, are what `decF` returns or widens. -/
theorem floatDecoderGivesThePattern : Obligations.FloatDecoderGivesThePattern := by
  intro o s
  refine ⟨fun hle => ⟨_, toNat_ofNat_valOf (fieldBits_length hle o), ?_⟩,
    fun hle => ⟨_, toNat_ofNat_valOf (fieldBits_length hle o), ?_⟩⟩
  · exact exec_dec_value (k := .f) (by decide) (by decide) hle (decF_64 _)
  · exact exec_dec_value (k := .f) (by decide) (by decide) hle (decF_32 _)

end Sys2Proof.Machine
end

section
/-! UTF-8 (R168, R169): the table row by row as numbers, a complete sequence as the encoding of its code point, and the
decoding loop as the inverse of the encoder. -/

namespace Sys2Proof.Machine

/-! ## The table -/

/-- A row of R168's table: the bytes, as numbers, that the code point `n` is encoded to. -/
def TableRow (n : Nat) (l : List Nat) : Prop :=
  (n ≤ 0x7F ∧ l = [n]) ∨
  (0x80 ≤ n ∧ n ≤ 0x7FF ∧ l = [0xC0 + n / 64, 0x80 + n % 64]) ∨
  (0x800 ≤ n ∧ n ≤ 0xFFFF ∧ ¬(0xD800 ≤ n ∧ n ≤ 0xDFFF) ∧ l = [0xE0 + n / 4096, 0x80 + n / 64 % 64, 0x80 + n % 64]) ∨
  (0x10000 ≤ n ∧ n ≤ 0x10FFFF ∧ l = [0xF0 + n / 262144, 0x80 + n / 4096 % 64, 0x80 + n / 64 % 64, 0x80 + n % 64])

theorem byteOf_toNat {n : Nat} (h : n < 256) : (byteOf n).toNat = n := by
  rw [byteOf, BitVec.toNat_ofNat, Nat.mod_eq_of_lt h]

theorem contByte_toNat (n : Nat) : (contByte n).toNat = 0x80 + n % 64 := byteOf_toNat (by omega)

theorem utf8EncodeOne_of_neg {c : Int} (h : c < 0) : utf8EncodeOne c = none := if_pos h

/-- R168: what `utf8EncodeOne` answers for a natural number, as numbers, is its row of the table: branch by branch the
ranges are the same. -/
theorem utf8EncodeOne_map_toNat {n : Nat} {l : List Nat} :
    (utf8EncodeOne n).map (·.map BitVec.toNat) = some l ↔ TableRow n l := by
  unfold utf8EncodeOne TableRow
  rw [if_neg (by omega), Int.toNat_natCast]
  dsimp only
  split_ifs <;> grind [byteOf_toNat, contByte_toNat]

theorem utf8EncodeOne_eq_none {n : Nat} (h : ∀ l, ¬TableRow n l) : utf8EncodeOne n = none :=
  Option.eq_none_iff_forall_ne_some.mpr fun _ hy => h _ (utf8EncodeOne_map_toNat.mp (congrArg _ hy))

/-- R168: a code point is encoded to bytes exactly when those are its row of the table. -/
theorem utf8EncodeOne_eq_some_iff {c : Int} {y : List Byte} :
    utf8EncodeOne c = some y ↔ 0 ≤ c ∧ TableRow c.toNat (y.map BitVec.toNat) := by
  have hinj : Function.Injective (Option.map (List.map (BitVec.toNat (w := 8)))) :=
    Option.map_injective (List.map_injective_iff.mpr fun _ _ => BitVec.eq_of_toNat_eq)
  rcases Int.lt_or_le c 0 with hc | hc
  · simp [utf8EncodeOne_of_neg hc, Int.not_le.mpr hc]
  · obtain ⟨n, rfl⟩ := Int.eq_ofNat_of_zero_le hc
    rw [← hinj.eq_iff, Option.map_some, utf8EncodeOne_map_toNat, and_iff_right hc, Int.toNat_natCast]

/-- Settles O48: each clause is the row of its range, and outside the ranges there is none. -/
theorem utf8EncodingFollowsTheTable : Obligations.Utf8EncodingFollowsTheTable := by
  intro n
  refine ⟨fun h => utf8EncodeOne_map_toNat.mpr (.inl ⟨h, rfl⟩),
    fun h0 h1 => utf8EncodeOne_map_toNat.mpr (.inr (.inl ⟨h0, h1, rfl⟩)),
    fun h0 h1 hs => utf8EncodeOne_map_toNat.mpr (.inr (.inr (.inl ⟨h0, h1, hs, rfl⟩))),
    fun h0 h1 => utf8EncodeOne_map_toNat.mpr (.inr (.inr (.inr ⟨h0, h1, rfl⟩))),
    fun h0 h1 => utf8EncodeOne_eq_none fun l hrow => ?_, fun h => utf8EncodeOne_eq_none fun l hrow => ?_,
    utf8EncodeOne_of_neg (by omega)⟩
  · unfold TableRow at hrow; omega
  · unfold TableRow at hrow; omega

/-! ## Complete sequences

A check of R169 and a row of R168's table are the same ranges of the bytes, and both give the code point from them. -/

theorem isCont_iff (b : Byte) : isCont b = true ↔ 0x80 ≤ b.toNat ∧ b.toNat ≤ 0xBF := by
  simp [isCont, BitVec.le_def]

/-- R169: one byte below 80 stands for itself. -/
theorem utf8One_iff {b : Byte} {c : Int} : b < 0x80 ∧ ↑b.toNat = c ↔ utf8EncodeOne c = some [b] := by
  simp [utf8EncodeOne_eq_some_iff, TableRow, BitVec.lt_def]; omega

/-- R169: the well-formed sequences of two bytes are the encodings of two bytes. -/
theorem utf8Two_eq_some_iff {b0 b1 : Byte} {c : Int} : utf8Two b0 b1 = some c ↔ utf8EncodeOne c = some [b0, b1] := by
  simp [utf8EncodeOne_eq_some_iff, TableRow, utf8Two, isCont_iff, BitVec.le_def, lowBits]; omega

/-- R169: the well-formed sequences of three bytes are the encodings of three bytes. -/
theorem utf8Three_eq_some_iff {b0 b1 b2 : Byte} {c : Int} :
    utf8Three b0 b1 b2 = some c ↔ utf8EncodeOne c = some [b0, b1, b2] := by
  simp [utf8EncodeOne_eq_some_iff, TableRow, utf8Three, isCont_iff, BitVec.le_def, BitVec.lt_def, ← BitVec.toNat_inj,
    lowBits]
  omega

/-- R169: the well-formed sequences of four bytes are the encodings of four bytes. -/
theorem utf8Four_eq_some_iff {b0 b1 b2 b3 : Byte} {c : Int} :
    utf8Four b0 b1 b2 b3 = some c ↔ utf8EncodeOne c = some [b0, b1, b2, b3] := by
  simp [utf8EncodeOne_eq_some_iff, TableRow, utf8Four, isCont_iff, BitVec.le_def, BitVec.lt_def, ← BitVec.toNat_inj,
    lowBits]
  omega

/-! ## Leading bytes -/

/-- How many continuation bytes follow a leading byte (R168). -/
def trailing (b : Byte) : Nat :=
  if b.toNat < 0x80 then 0 else if b.toNat < 0xE0 then 1 else if b.toNat < 0xF0 then 2 else 3

theorem trailing_le (b : Byte) : trailing b ≤ 3 := by
  unfold trailing
  split_ifs <;> omega

theorem utf8EncodeOne_ne_nil (c : Int) : utf8EncodeOne c ≠ some [] := by
  simp [utf8EncodeOne_eq_some_iff, TableRow]

/-- R168: an encoding is a leading byte and the continuation bytes it announces. -/
theorem trailing_of_utf8EncodeOne {c : Int} {b0 : Byte} {bs : List Byte} (h : utf8EncodeOne c = some (b0 :: bs)) :
    trailing b0 = bs.length := by
  obtain ⟨-, hrow⟩ := utf8EncodeOne_eq_some_iff.mp h
  rw [← List.length_map (as := bs) BitVec.toNat]
  unfold trailing
  rcases hrow with hrow | hrow | hrow | hrow <;> grind

theorem le_of_trailing {b : Byte} (h : trailing b ≠ 0) : 0x80#8 ≤ b :=
  BitVec.not_lt.mp fun hb => h (trailing_of_utf8EncodeOne (utf8One_iff.mp ⟨hb, rfl⟩))

theorem utf8Two_eq_none {b0 : Byte} (h : trailing b0 ≠ 1) (b1 : Byte) : utf8Two b0 b1 = none :=
  Option.eq_none_iff_forall_ne_some.mpr fun _ hd => h (trailing_of_utf8EncodeOne (utf8Two_eq_some_iff.mp hd))

theorem utf8Three_eq_none {b0 : Byte} (h : trailing b0 ≠ 2) (b1 b2 : Byte) : utf8Three b0 b1 b2 = none :=
  Option.eq_none_iff_forall_ne_some.mpr fun _ hd => h (trailing_of_utf8EncodeOne (utf8Three_eq_some_iff.mp hd))

/-- R169: a byte sequence that begins with an encoding has it as its head: a shorter encoding would begin with another
leading byte. -/
theorem utf8Head_append {c : Int} {a : List Byte} (h : utf8EncodeOne c = some a) (rest : List Byte) :
    utf8Head (a ++ rest) = some (c, a.length) := by
  match a with
  | [] => exact absurd h (utf8EncodeOne_ne_nil c)
  | [b0] =>
    obtain ⟨hb, rfl⟩ := utf8One_iff.mpr h
    exact if_pos hb
  | [b0, b1] =>
    have hlead : trailing b0 = 1 := trailing_of_utf8EncodeOne h
    simp [utf8Head, le_of_trailing, hlead, utf8Two_eq_some_iff.mpr h]
  | [b0, b1, b2] =>
    have hlead : trailing b0 = 2 := trailing_of_utf8EncodeOne h
    simp [utf8Head, le_of_trailing, utf8Two_eq_none, hlead, utf8Three_eq_some_iff.mpr h]
  | [b0, b1, b2, b3] =>
    have hlead : trailing b0 = 3 := trailing_of_utf8EncodeOne h
    simp [utf8Head, le_of_trailing, utf8Two_eq_none, utf8Three_eq_none, hlead, utf8Four_eq_some_iff.mpr h]
  | b0 :: _ :: _ :: _ :: _ :: bs =>
    have hlead : trailing b0 = bs.length + 4 := trailing_of_utf8EncodeOne h
    have hle := trailing_le b0
    omega

/-- R169: the head of a byte sequence is a code point whose encoding it begins with. -/
theorem utf8Head_eq_some {y : List Byte} {c : Int} {k : Nat} (h : utf8Head y = some (c, k)) :
    ∃ a rest, utf8EncodeOne c = some a ∧ a.length = k ∧ y = a ++ rest := by
  revert h
  fun_cases utf8Head y with
  | case1 | case3 | case5 | case7 => rintro ⟨⟩
  | case2 b0 rest hb => rintro ⟨⟩; exact ⟨[b0], rest, utf8One_iff.mp ⟨hb, rfl⟩, rfl, rfl⟩
  | case4 b0 hb b1 rest d hd => rintro ⟨⟩; exact ⟨[b0, b1], rest, utf8Two_eq_some_iff.mp hd, rfl, rfl⟩
  | case6 b0 hb b1 h2 b2 rest d hd =>
    rintro ⟨⟩; exact ⟨[b0, b1, b2], rest, utf8Three_eq_some_iff.mp hd, rfl, rfl⟩
  | case8 b0 hb b1 h2 b2 h3 b3 rest =>
    intro h
    obtain ⟨d, hd, ⟨⟩⟩ := Option.map_eq_some_iff.mp h
    exact ⟨[b0, b1, b2, b3], rest, utf8Four_eq_some_iff.mp hd, rfl, rfl⟩

theorem utf8Head_pos {y : List Byte} {c : Int} {k : Nat} (h : utf8Head y = some (c, k)) : 0 < k := by
  obtain ⟨a, -, hc, rfl, -⟩ := utf8Head_eq_some h
  exact List.length_pos_of_ne_nil fun hnil => utf8EncodeOne_ne_nil c (hnil ▸ hc)

/-! ## Whole texts -/

/-- R168, R169: an encoded text begins with its first code point's encoding, and the others' follow. -/
theorem utf8Encode_cons_eq_some_iff {c : Int} {cs : List Int} {y : List Byte} :
    utf8Encode (c :: cs) = some y ↔ ∃ k, utf8Head y = some (c, k) ∧ utf8Encode cs = some (y.drop k) := by
  simp only [utf8Encode]
  constructor
  · intro h
    split at h
    next a rest hc hcs =>
      cases h
      exact ⟨a.length, utf8Head_append hc rest, by rw [hcs, List.drop_left]⟩
    next => cases h
  · rintro ⟨k, hhead, hcs⟩
    obtain ⟨a, rest, hc, rfl, rfl⟩ := utf8Head_eq_some hhead
    simp [hc, hcs]

/-- One turn of the decoding loop. -/
theorem utf8Loop_succ_cons (fuel : Nat) (b : Byte) (bs : List Byte) :
    utf8Loop (fuel + 1) (b :: bs) =
      (utf8Head (b :: bs)).bind fun p => (utf8Loop fuel ((b :: bs).drop p.2)).map (p.1 :: ·) := by
  rw [utf8Loop]
  cases utf8Head (b :: bs) <;> rfl

/-- The decoding loop takes a byte sequence apart in the same way. -/
theorem utf8Loop_eq_some_cons_iff {fuel : Nat} {c : Int} {cs : List Int} {y : List Byte} :
    utf8Loop (fuel + 1) y = some (c :: cs) ↔ ∃ k, utf8Head y = some (c, k) ∧ utf8Loop fuel (y.drop k) = some cs := by
  cases y with
  | nil => simp [utf8Loop, utf8Head]
  | cons b bs => simp [utf8Loop_succ_cons, Option.bind_eq_some_iff]

theorem utf8Loop_eq_some_nil_iff {fuel : Nat} {y : List Byte} : utf8Loop fuel y = some [] ↔ y = [] := by
  cases y with
  | nil => simp [utf8Loop]
  | cons b bs =>
    cases fuel with
    | zero => simp [utf8Loop]
    | succ fuel => simp [utf8Loop_succ_cons, Option.bind_eq_some_iff]

/-- R169: with fuel for every byte the loop gives the text that encodes to the bytes. -/
theorem utf8Loop_eq_some_iff {fuel : Nat} {y : List Byte} {t : List Int} (h : y.length ≤ fuel) :
    utf8Loop fuel y = some t ↔ utf8Encode t = some y := by
  induction t generalizing fuel y with
  | nil => rw [utf8Loop_eq_some_nil_iff, utf8Encode, Option.some.injEq, eq_comm]
  | cons c cs ih =>
    cases fuel with
    | zero =>
      obtain rfl := List.eq_nil_of_length_eq_zero (Nat.le_zero.mp h)
      simp [utf8Loop, utf8Encode_cons_eq_some_iff, utf8Head]
    | succ fuel =>
      rw [utf8Loop_eq_some_cons_iff, utf8Encode_cons_eq_some_iff]
      refine exists_congr fun k => and_congr_right fun hk => ih ?_
      have hpos : 0 < k := utf8Head_pos hk
      rw [List.length_drop]
      omega

/-- Settles O49: the number of bytes is fuel enough. -/
theorem utf8DecodeIsTheInverseOfEncode : Obligations.Utf8DecodeIsTheInverseOfEncode :=
  fun _ _ => utf8Loop_eq_some_iff le_rfl

end Sys2Proof.Machine
end

section
/-! The text, raw and padding kinds (R165–R175): what `t` and `r` write and give, as whole bytes and as UTF-8, and the
bits of `p`. -/

namespace Sys2Proof.Machine

/-- R204, R238: a field that lies inside the input and does not decode ends the call. -/
theorem exec_dec_error {k : Kind} {w : Nat} {o : BitOrder} {s : State} {e : ErrorKind} (hk : k ≠ .p)
    (hw : legalWidth k w = true) (hle : s.cur + w ≤ s.totalBits) (hd : decodeKind k w (fieldBits w o s) = .error e) :
    exec (k.instr .dec w o) s = .next (endCall (.error e) s) := by
  rw [fieldBits] at hd
  rw [exec_instr, fieldMeaning_dec_of_ne_padding hk]
  rcases unpackField_cases k w o (decodeKind k w) s with ⟨hill, -⟩ | ⟨-, hlt, -⟩ | ⟨x, -, -, hx, h⟩ | ⟨v, -, -, hv, -⟩
  · simp [hw] at hill
  · omega
  · obtain rfl : e = x := by simpa [hd] using hx
    exact h
  · simp [hd] at hv

/-! ## Encoders -/

/-- R165: enough bytes give the first `w` of their bits. -/
theorem fieldOfBytes_of_le {w : Nat} {y : List Byte} (h : w ≤ 8 * y.length) :
    fieldOfBytes w y = .ok ((bytesToBits y).take w) := if_neg (Nat.not_lt.mpr h)

/-- R172: too few bytes are a *coercion error*. -/
theorem fieldOfBytes_of_lt {w : Nat} {y : List Byte} (h : 8 * y.length < w) :
    fieldOfBytes w y = .error .coercionError := if_pos h

theorem encT_of_utf8 {t : List Int} {y : List Byte} (h : utf8Encode t = some y) (w : Nat) :
    encT w (.text t) = fieldOfBytes w y := by simp [encT, toText, h]

theorem encT_of_not_utf8 {t : List Int} (h : utf8Encode t = none) (w : Nat) :
    encT w (.text t) = .error .coercionError := by simp [encT, toText, h]

theorem encR_bytes (w : Nat) (y : List Byte) : encR w (.bytes y) = fieldOfBytes w y := rfl

/-- What a PACK field that takes its operand as bytes does (R166, R170): it writes their first `w` bits, or the call ends
with *coercion error* where they are too few or there are none. -/
theorem exec_enc_bytes {k : Kind} {w : Nat} {s : State} {v : Value} {bytes : Option (List Byte)} (hk : k ≠ .p)
    (hw : legalWidth k w = true) (hlen : s.wbits.length = s.cur) (hv : s.val[s.vi]? = some v)
    (hsome : ∀ y, bytes = some y → encodeKind k w v = fieldOfBytes w y)
    (hnone : bytes = none → encodeKind k w v = .error .coercionError) (o : BitOrder) :
    (∀ y, bytes = some y → w ≤ 8 * y.length →
      exec (k.instr .enc w o) s = .next { s with
        wbits := s.wbits ++ inOrder o ((bytesToBits y).take w), cur := s.cur + w, vi := s.vi + 1, fi := s.fi + 1 }) ∧
    (∀ y, bytes = some y → 8 * y.length < w → exec (k.instr .enc w o) s = .next (endCall (.error .coercionError) s)) ∧
    (bytes = none → exec (k.instr .enc w o) s = .next (endCall (.error .coercionError) s)) := by
  have herr (he : encodeKind k w v = .error .coercionError) :
      exec (k.instr .enc w o) s = .next (endCall (.error .coercionError) s) := by
    rw [exec_instr, fieldMeaning_enc_error hk hw hv he, raise_eq]
  exact ⟨fun y hy hle => exec_enc_value hk hw hlen hv ((hsome y hy).trans (fieldOfBytes_of_le hle)) o,
    fun y hy hlt => herr ((hsome y hy).trans (fieldOfBytes_of_lt hlt)), fun h => herr (hnone h)⟩

/-- Settles O13: `t` takes the bytes of its text's encoding, `r` its operand's own. -/
theorem textAndRawEncodersWriteTheFirstBits : Obligations.TextAndRawEncodersWriteTheFirstBits := by
  rintro i w o s v bytes hw hlen hv (⟨rfl, t, rfl, rfl⟩ | ⟨rfl, y, rfl, rfl⟩)
  · exact exec_enc_bytes (k := .t) (by decide) (legalWidth_of_ne_zero (by decide) hw) hlen hv
      (fun y hy => encT_of_utf8 hy w) (fun hnone => encT_of_not_utf8 hnone w) o
  · exact exec_enc_bytes (k := .r) (by decide) (legalWidth_of_ne_zero (by decide) hw) hlen hv
      (by rintro _ ⟨⟩; exact encR_bytes w y) (by rintro ⟨⟩) o

/-! ## Decoders -/

/-- R165: the bits that fill `w` bits up to whole bytes. -/
theorem tailLength_eq (w : Nat) : tailLength w = 8 * ((w + 7) / 8) - w := by simp only [tailLength]; omega

/-- R165: the assembled bytes are the field's bits, padded. -/
theorem assemble_eq_paddedBytes {w : Nat} {b : Bits} (h : b.length = w) : assemble w b = paddedBytes b := by
  rw [assemble, paddedBytes, h]

/-- R165: whole bytes whose bits are the field's bits followed by zeros are the assembled ones. -/
theorem assemble_eq {w : Nat} {b : Bits} {y : List Byte} (hlen : y.length = (w + 7) / 8)
    (hy : bytesToBits y = b ++ List.replicate (8 * y.length - w) false) : assemble w b = y := by
  rw [assemble, tailLength_eq, ← hlen, ← hy, bitsToBytes_bytesToBits]

/-- Settles O20: the padded bytes of the field's bits are the ones `decR` assembles. -/
theorem rawDecoderGivesZeroFilledBytes : Obligations.RawDecoderGivesZeroFilledBytes := by
  intro w o s hw hle
  have hbits := fieldBits_length hle o
  have hlen : (paddedBytes (fieldBits w o s)).length = (w + 7) / 8 := by rw [paddedBytes_length, hbits, byteCount]
  refine ⟨paddedBytes (fieldBits w o s), hlen, by rw [bytesToBits_paddedBytes, hbits, hlen, tailLength_eq], ?_⟩
  exact exec_dec_value (k := .r) (by decide) (legalWidth_of_ne_zero (by decide) hw) hle
    (by rw [decodeKind, decR, assemble_eq_paddedBytes hbits])

/-- R167, R169: assembled bytes that a text encodes to are given as that text. -/
theorem decT_of_utf8 {w : Nat} {b : Bits} {t : List Int} (h : utf8Encode t = some (assemble w b)) :
    decT w b = .ok (.text t) := by
  rw [decT, (utf8DecodeIsTheInverseOfEncode _ t).mpr h]

/-- R167, R169: assembled bytes that no text encodes to are a *decode error*. -/
theorem decT_of_not_utf8 {w : Nat} {b : Bits} (h : ∀ t, utf8Encode t ≠ some (assemble w b)) :
    decT w b = .error .decodeError := by
  have hnone : utf8Decode (assemble w b) = none := Option.eq_none_iff_forall_ne_some.mpr fun t ht =>
    h t ((utf8DecodeIsTheInverseOfEncode _ t).mp ht)
  rw [decT, hnone]

/-- Settles O21: the bytes of the statement are the ones `decT` assembles and decodes. -/
theorem textDecoderGivesTheTextOrDecodeError : Obligations.TextDecoderGivesTheTextOrDecodeError := by
  intro w o s y hw hle hlen hy
  have hlegal : legalWidth .t w = true := legalWidth_of_ne_zero (by decide) hw
  obtain rfl := assemble_eq hlen hy
  exact ⟨fun t ht => exec_dec_value (k := .t) (by decide) hlegal hle (decT_of_utf8 ht),
    fun hnone => exec_dec_error (k := .t) (by decide) hlegal hle (decT_of_not_utf8 hnone)⟩

/-! ## Padding -/

/-- Settles O14: zeros are the same in either order, and neither direction has a value. -/
theorem paddingWritesZerosAndSkipsBits : Obligations.PaddingWritesZerosAndSkipsBits := by
  intro w o s hw
  have hlegal : legalWidth .p w = true := legalWidth_of_ne_zero (by decide) hw
  refine ⟨fun hlen => ?_, (exec_instr .p .dec w o s).trans (fieldMeaning_dec_padding hlegal o s)⟩
  have hmeaning := (exec_instr .p .enc w o s).trans (fieldMeaning_enc_padding hlegal hlen o)
  rwa [packed, encP, inOrder_replicate, List.length_replicate] at hmeaning

end Sys2Proof.Machine
end

section
/-! BYTESWAP (R211, R212, R214, R215): its checks, a turn and the end of its loop, the whole call, and that the same
groups swapped twice give the bytes back. -/

namespace Sys2Proof.Machine

/-! ## The checks -/

/-- R212: GROUPS converts when each of its characters is a digit; numbers always do. -/
theorem groupsConvert_iff {groups : List GroupElem} :
    groupsConvert groups = true ↔ ∀ c, .char c ∈ groups → isDigit c = true := by
  rw [groupsConvert, List.all_eq_true]
  refine ⟨fun h c hc => ?_, fun h e he => ?_⟩
  · have hconv := h _ hc
    by_contra hd
    simp [groupValue, hd] at hconv
  · cases e with
    | nat n => rfl
    | char c => simp [groupValue, h c he]

/-- Settles O32: a clause per branch of the command, the group characters read through `groupsConvert_iff`. -/
theorem byteswapChecksItsOperandsInOrder : Obligations.ByteswapChecksItsOperandsInOrder := by
  intro s
  have hexec : exec .byteswap s = execByteswap s := rfl
  rw [hexec]
  refine ⟨fun hcap => ?capacity, fun hcap hbad => ?bad, fun hcap hdigits => ?good⟩
  case capacity => simp [execByteswap, hcap, refuse_eq]
  case bad =>
    obtain ⟨c, hc, hd⟩ := hbad
    have hconv : ¬ groupsConvert s.groups = true := fun h => by simp [groupsConvert_iff.mp h c hc] at hd
    rw [execByteswap, if_pos hcap, if_neg hconv, raise_eq]
  case good =>
    rw [execByteswap, if_pos hcap, if_pos (groupsConvert_iff.mpr hdigits)]
    exact ⟨fun hlt => if_pos hlt, fun hle => if_neg hle.not_gt⟩

/-! ## The loop -/

/-- R212: a group character runs as a turn of its size. -/
theorem exec_groupSizes {p : Instr × Nat} (h : p ∈ groupSizes) (s : State) : exec p.1 s = swapGroup p.2 s := by
  fin_cases h <;> rfl

/-- R213: the byte `r` of a reversed group is the group's byte `r` from its end. -/
theorem reverse_window_getElem? {y : List Byte} {i g r : Nat} (h : i + g ≤ y.length) (hr : r < g) :
    ((y.drop i).take g).reverse[r]? = y[i + g - 1 - r]? := by
  have hlen : ((y.drop i).take g).length = g := by simp; omega
  rw [List.getElem?_reverse (by omega), hlen, List.getElem?_take_of_lt (by omega), List.getElem?_drop]
  congr 1
  omega

/-- Settles O33: a group character is a turn of its size, and its clauses are those of `swapGroup_cases`. -/
theorem groupCharactersReverseTheirBytes : Obligations.GroupCharactersReverseTheirBytes := by
  intro p hp s
  rw [exec_groupSizes hp]
  rcases swapGroup_cases p.2 s with ⟨h0, h⟩ | ⟨h0, hlt, h⟩ | ⟨h0, hle, h⟩ <;> rw [h]
  · exact ⟨fun _ => rfl, fun hne => absurd h0 hne, fun hne => absurd h0 hne⟩
  · exact ⟨fun h => absurd h h0, fun _ _ => rfl, fun _ hle => absurd hlt hle.not_gt⟩
  · refine ⟨fun h => absurd h h0, fun _ hlt => absurd hlt hle.not_gt, fun _ _ => ?_⟩
    exact ⟨_, by simp; omega, fun r hr => reverse_window_getElem? hle hr, rfl⟩

/-- Settles O34: at the end of GROUPS the step is the loop's end. -/
theorem byteswapEndsWithTheSwappedBytes : Obligations.ByteswapEndsWithTheSwappedBytes := by
  intro s hr hp hs hgi
  rw [step_swap_end hr hp hs (List.getElem?_eq_none_iff.mpr hgi.ge)]
  rcases finishSwap_cases s with ⟨hlt, h⟩ | ⟨hle, h⟩ <;> rw [h]
  · exact ⟨fun heq => absurd heq hlt.ne, fun _ => rfl⟩
  · exact ⟨fun _ => rfl, fun hlt => absurd hlt hle.not_gt⟩

/-! ## The call -/

/-- Settles O38: the latch, then `execByteswap_leads`. -/
theorem byteswapRunsToTheResponseOfItsFunction : Obligations.ByteswapRunsToTheResponseOfItsFunction := by
  intro s c rest hr hp hq hop
  have hleads : Leads (c.groups.length + 1) (step s)
      (endCall (byteswapCall s.params c.groups c.data c.offset) (latch c rest s)) := by
    rw [step_command hr hp hq, hop]
    exact execByteswap_leads (s := latch c rest s) hr rfl
  obtain ⟨n, u, hn, hu, hrun⟩ := hleads.step
  cases hu
  exact ⟨n, hn, hrun⟩

/-- A turn of a group loop that succeeds (R211). -/
theorem swapGroups_cons_ok {x y out : List Byte} {e : GroupElem} {es : List GroupElem} {i : Nat}
    (h : swapGroups x (e :: es) i out = .ok (.bytes y)) :
    ∃ g, groupValue e = .ok g ∧ g ≠ 0 ∧ i + g ≤ x.length ∧
      swapGroups x es (i + g) (out ++ ((x.drop i).take g).reverse) = .ok (.bytes y) := by
  cases hg : groupValue e with
  | error k => simp [swapGroups, hg] at h
  | ok g =>
    simp only [swapGroups, hg] at h
    split_ifs at h with h0 hlt
    exact ⟨g, rfl, h0, by omega, h⟩

theorem swapGroups_cons {e : GroupElem} {g : Nat} (hg : groupValue e = .ok g) (h0 : g ≠ 0) {y : List Byte} {i : Nat}
    (hle : i + g ≤ y.length) (es : List GroupElem) (out : List Byte) :
    swapGroups y (e :: es) i out = swapGroups y es (i + g) (out ++ ((y.drop i).take g).reverse) := by
  simp only [swapGroups, hg, if_neg h0, if_neg hle.not_gt]

/-- A loop that succeeds keeps the bytes so far and gives one byte for each that is left (R211, R214). -/
theorem swapGroups_ok {x y : List Byte} {es : List GroupElem} {i : Nat} {out : List Byte}
    (h : swapGroups x es i out = .ok (.bytes y)) : out <+: y ∧ y.length = out.length + (x.length - i) := by
  induction es generalizing i out with
  | nil =>
    simp only [swapGroups] at h
    split at h <;> cases h
    exact ⟨List.prefix_refl _, by omega⟩
  | cons e es ih =>
    obtain ⟨g, -, -, hle, hrest⟩ := swapGroups_cons_ok h
    obtain ⟨hpre, hlen⟩ := ih hrest
    refine ⟨(List.prefix_append _ _).trans hpre, ?_⟩
    rw [hlen, List.length_append, List.length_reverse, List.length_take, List.length_drop]
    omega

/-- R215 along the loop: from where the first loop's bytes begin, the second one gives the first one's input. -/
theorem swapGroups_twice {x y : List Byte} {es : List GroupElem} {i : Nat} {out : List Byte}
    (h : swapGroups x es i out = .ok (.bytes y)) (out' : List Byte) :
    swapGroups y es out.length out' = .ok (.bytes (out' ++ x.drop i)) := by
  induction es generalizing i out out' with
  | nil =>
    obtain ⟨-, hlen⟩ := swapGroups_ok h
    simp only [swapGroups] at h ⊢
    split at h <;> cases h
    rw [if_neg (by omega), List.drop_eq_nil_of_le (by omega), List.append_nil]
  | cons e es ih =>
    obtain ⟨g, hg, h0, hle, hrest⟩ := swapGroups_cons_ok h
    have hlen : ((x.drop i).take g).reverse.length = g := by simp; omega
    obtain ⟨z, rfl⟩ := (swapGroups_ok hrest).1
    have hwin : ((out ++ ((x.drop i).take g).reverse ++ z).drop out.length).take g = ((x.drop i).take g).reverse := by
      rw [List.append_assoc, List.drop_left, List.take_left' hlen]
    have hin : out.length + g ≤ (out ++ ((x.drop i).take g).reverse ++ z).length := by
      rw [List.length_append, List.length_append, hlen]
      omega
    have hnext := ih hrest (out' ++ (x.drop i).take g)
    rw [List.length_append, hlen] at hnext
    rw [swapGroups_cons hg h0 hin, hwin, List.reverse_reverse, hnext, List.append_assoc, ← List.drop_drop,
      List.take_append_drop]

/-- A BYTESWAP that succeeds passed its checks and is its group loop (R211). -/
theorem byteswapCall_bytes {p : Params} {groups : List GroupElem} {x y : List Byte} {offset : Nat}
    (h : byteswapCall p groups x offset = .ok (.bytes y)) :
    within p.maxDataBytes x.length = true ∧ groupsConvert groups = true ∧
      swapGroups x groups offset [] = .ok (.bytes y) := by
  unfold byteswapCall at h
  split_ifs at h with hcap hconv
  exact ⟨hcap, hconv, h⟩

/-- R5: a smaller size stays inside a capacity that a larger one does. -/
theorem within_of_le {limit : Option Nat} {m n : Nat} (h : within limit n = true) (hmn : m ≤ n) :
    within limit m = true := by
  cases limit with
  | none => rfl
  | some k => exact decide_eq_true (hmn.trans (of_decide_eq_true h))

/-- Settles O44: the output is no longer than the input, so the second call passes its checks too. -/
theorem byteswapTwiceIsTheIdentity : Obligations.ByteswapTwiceIsTheIdentity := by
  intro p groups x y offset h
  obtain ⟨hcap, hconv, hloop⟩ := byteswapCall_bytes h
  obtain ⟨-, hlen⟩ := swapGroups_ok hloop
  have hcap' : within p.maxDataBytes y.length = true := within_of_le hcap (by simp at hlen; omega)
  rw [byteswapCall, if_pos hcap', if_pos hconv, if_neg (Nat.not_lt_zero _)]
  exact swapGroups_twice hloop []

end Sys2Proof.Machine
end

section
/-! PACK and UNPACK as whole calls (R190, R192, R201, R217): the run of a presented command in the model's bound, and
PACK's checks after compilation. -/

namespace Sys2Proof.Machine

theorem startPack_of_fits {s : State} (h : within s.params.maxDataBytes (byteCount (calcsizeOf s.spec)) = true) :
    startPack s = if s.val.length < valueCount s.spec then raise .arityError s
      else .next { s with stage := .fields, fi := 0, vi := 0, cur := 0, wbits := [] } := by
  rw [startPack, if_pos h]

/-- Settles O28: the two branches of `startPack` inside the capacity, after the table is stored or not. -/
theorem packChecksArityBeforeAnyField : Obligations.PackChecksArityBeforeAnyField := by
  intro s hr hp hs hop hend hfits hcap
  obtain ⟨new, -, hmem⟩ := memoize_appends s
  rw [step_compile_end hr hp hs hend, finishCompile_pack hop, if_pos hfits, hmem,
    startPack_of_fits (s := { s with cache := s.cache ++ new }) hcap]
  exact ⟨s.cache ++ new, fun hlt => if_pos hlt, fun hle => if_neg hle.not_gt⟩

/-- R111: every entry of a table takes a character of its text, at least. -/
theorem compileFrom_length_le (prev : BitOrder) (text : List Byte) :
    (compileFrom prev text).length ≤ text.length := by
  induction prev, text using compile_induction with
  | nil prev => simp
  | group prev text f after hg ih =>
    have hlt := groupAt_length hg
    rw [compileFrom_group hg, List.length_cons]
    omega
  | skip prev c cs hg ih =>
    rw [compileFrom_skip hg, List.length_cons]
    omega

theorem Answers.mono {m n : Nat} {o : Host.Outcome State Fault Refusal} {s : State} {r : Response}
    (h : Answers m o s r) (hmn : m ≤ n) : Answers n o s r := by
  obtain ⟨cache, hcache, hleads⟩ := h
  exact ⟨cache, hcache, hleads.mono hmn⟩

/-- A format's text bounds the steps of a call that scans it and runs its fields (log 1). -/
theorem length_add_length_compile_le (fmt : List Byte) :
    fmt.length + ((compile fmt).length + 1 + 1) ≤ 2 * fmt.length + 2 := by
  have h : (compile fmt).length ≤ fmt.length := compileFrom_length_le _ _
  omega

/-- Settles O35: the latch, then `execPack_answers`. -/
theorem packRunsToTheResponseOfItsFunction : Obligations.PackRunsToTheResponseOfItsFunction := by
  intro s c rest hr hp hq hop hc
  refine exists_run_endCall (c := c) (.mono ?_ (length_add_length_compile_le c.fmt))
  rw [step_command hr hp hq, hop]
  exact execPack_answers (s := latch c rest s) hr rfl (by simp [hop]; rfl) hc

/-- Settles O36: the latch, then `execUnpack_answers`. -/
theorem unpackRunsToTheResponseOfItsFunction : Obligations.UnpackRunsToTheResponseOfItsFunction := by
  intro s c rest hr hp hq hop hc
  refine exists_run_endCall (c := c) (.mono ?_ (length_add_length_compile_le c.fmt))
  rw [step_command hr hp hq, hop]
  exact execUnpack_answers (s := latch c rest s) hr rfl (by simp [hop]; rfl) hc

end Sys2Proof.Machine
end

section
/-! UNPACK of PACK (R207): each field's window in PACK's output is what its encoder wrote, so UNPACK decodes that. -/

namespace Sys2Proof.Machine

theorem roundTripFields_cons_padding {f : FieldSpec} (h : checkField f = .ok .p) (fs : List FieldSpec)
    (vals : List Value) : roundTripFields (f :: fs) vals = roundTripFields fs vals := by
  simp [roundTripFields, h]

theorem roundTripFields_cons_value {f : FieldSpec} {k : Kind} (h : checkField f = .ok k) (hk : k ≠ .p)
    (fs : List FieldSpec) {v : Value} {b : Bits} (he : encodeKind k f.width v = .ok b) (vs : List Value) :
    roundTripFields (f :: fs) (v :: vs) =
      (decodeKind k f.width b).bind fun v' => (roundTripFields fs vs).map (v' :: ·) := by
  cases k
  case p => exact absurd rfl hk
  all_goals
    simp only [roundTripFields, h, he]
    cases decodeKind _ f.width b <;> rfl

/-- A field of PACK that succeeds is padding, or a value whose encoder succeeds (R192). -/
theorem packFields_cons_ok_cases {f : FieldSpec} {fs : List FieldSpec} {vals : List Value} {acc b : Bits}
    (h : packFields (f :: fs) vals acc = .ok b) :
    (checkField f = .ok .p ∧ packFields fs vals (acc ++ inOrder f.order (encP f.width)) = .ok b) ∨
    (∃ k v vs c, checkField f = .ok k ∧ k ≠ .p ∧ vals = v :: vs ∧ encodeKind k f.width v = .ok c ∧
      packFields fs vs (acc ++ inOrder f.order c) = .ok b) := by
  cases hf : checkField f with
  | error e => simp [packFields_cons_error hf] at h
  | ok k =>
    by_cases hk : k = .p
    · subst hk
      exact .inl ⟨rfl, by rwa [packFields_cons_padding hf] at h⟩
    · cases vals with
      | nil =>
        cases k
        case p => exact absurd rfl hk
        all_goals simp [packFields, hf] at h
      | cons v vs =>
        rw [packFields_cons_value hf hk] at h
        cases he : encodeKind k f.width v with
        | error e => simp [he, Except.bind] at h
        | ok c => exact .inr ⟨k, v, vs, c, rfl, hk, rfl, he, by simpa [he, Except.bind] using h⟩

/-- R68: PACK keeps the bits written before. -/
theorem prefix_packFields {fs : List FieldSpec} {vals : List Value} {acc b : Bits}
    (h : packFields fs vals acc = .ok b) : acc <+: b := by
  induction fs generalizing vals acc with
  | nil =>
    cases h
    exact List.prefix_refl _
  | cons f fs ih =>
    obtain ⟨c, vs, -, hrest⟩ := packFields_cons_ok h
    exact (List.prefix_append _ _).trans (ih hrest)

/-- The window behind `acc` in a buffer that begins with `acc ++ c` reads `c`. -/
theorem memRead_of_prefix {acc c buf : Bits} (h : acc ++ c <+: buf) : memRead buf acc.length c.length = c := by
  obtain ⟨z, rfl⟩ := h
  rw [memRead, List.append_assoc, List.drop_left, List.take_left]

/-- R207 along the loops: from where PACK's field loop started, UNPACK's gives the round trip of the values left. -/
theorem unpackFields_packFields {fs : List FieldSpec} {vals : List Value} {acc b rbits : Bits}
    (h : packFields fs vals acc = .ok b) (hb : b <+: rbits) (outv : List Value) :
    unpackFields rbits fs acc.length outv = (roundTripFields fs vals).map (outv ++ ·) := by
  induction fs generalizing vals acc outv with
  | nil => simp [unpackFields, roundTripFields, Except.map]
  | cons f fs ih =>
    rcases packFields_cons_ok_cases h with ⟨hf, hrest⟩ | ⟨k, v, vs, c, hf, hk, rfl, he, hrest⟩
    · have hnext := ih hrest outv
      rw [List.length_append, inOrder_length, encP, List.length_replicate] at hnext
      rw [unpackFields_cons_padding hf, roundTripFields_cons_padding hf, hnext]
    · have hlen : (inOrder f.order c).length = f.width := by
        rw [inOrder_length, encodeKind_length (checkField_ok_legal hf) he]
      have hwin := memRead_of_prefix ((prefix_packFields hrest).trans hb)
      rw [hlen] at hwin
      rw [unpackFields_cons_value hf hk, roundTripFields_cons_value hf hk fs he, hwin, inOrder_inOrder]
      cases decodeKind k f.width c with
      | error e => rfl
      | ok v' =>
        have hnext := ih hrest (outv ++ [v'])
        rw [List.length_append, hlen] at hnext
        simp only [Except.bind, hnext]
        cases roundTripFields fs vs <;> simp [Except.map]

/-- A PACK that succeeds passed its capacity checks (R248). -/
theorem packCall_fits {p : Params} {fmt : List Byte} {val : List Value} {y : List Byte}
    (h : packCall p fmt val = .ok (.bytes y)) :
    within p.maxFmtLen fmt.length = true ∧ specFits p (compile fmt) = true ∧
      within p.maxDataBytes (byteCount (calcsizeOf (compile fmt))) = true := by
  rw [packCall_eq] at h
  split_ifs at h with hlen hfits hcap
  simp only [Bool.and_eq_true] at hlen
  exact ⟨hlen.1, hfits, hcap⟩

/-- Settles O41: PACK's output has the bytes its table counts, so UNPACK passes its checks, and its field loop is
`unpackFields_packFields` from bit 0. -/
theorem unpackOfPackGivesTheValuesBack : Obligations.UnpackOfPackGivesTheValuesBack := by
  intro p fmt val y h
  obtain ⟨hlen, hfits, hcap⟩ := packCall_fits h
  obtain ⟨b, hb, rfl⟩ := packCall_bytes h
  have hbits : b.length = calcsizeOf (compile fmt) := by simpa using packFields_length hb
  have hbytes : (paddedBytes b).length = byteCount (calcsizeOf (compile fmt)) := by rw [paddedBytes_length, hbits]
  have henough : ¬ 8 * byteCount (calcsizeOf (compile fmt)) < calcsizeOf (compile fmt) := by
    simp only [byteCount]
    omega
  have hloop := unpackFields_packFields (rbits := bytesToBits (paddedBytes b)) hb
    (by rw [bytesToBits_paddedBytes]; exact List.prefix_append _ _) []
  rw [unpackCall_eq, hbytes, hlen, hcap, hfits, if_neg henough, ← List.length_nil, hloop]
  cases roundTripFields (compile fmt) val <;> rfl

end Sys2Proof.Machine
end

section
/-! How an instruction can end a call (R238, R239, R247). A call that succeeds ends at the end of a loop, which is the
sequencer's turn; an instruction can end one only by raising or refusing. -/

namespace Sys2Proof.Machine

/-- `o` leaves the phase of `s` as it is, or ends the call with a response that has no payload. -/
def EndsOnlyInFailure (s : State) (o : Host.Outcome State Fault Refusal) : Prop :=
  ∀ t, o = .next t → t.phase = s.phase ∨ ∃ r : Response, r.payload = none ∧ t = endCall r s

@[simp] theorem next_endsOnlyInFailure_iff (s t : State) : EndsOnlyInFailure s (.next t) ↔
    t.phase = s.phase ∨ ∃ r : Response, r.payload = none ∧ t = endCall r s := by
  simp [EndsOnlyInFailure]

@[simp] theorem raise_endsOnlyInFailure (k : ErrorKind) (s : State) : EndsOnlyInFailure s (raise k s) :=
  (next_endsOnlyInFailure_iff _ _).mpr (.inr ⟨.error k, rfl, rfl⟩)

@[simp] theorem refuse_endsOnlyInFailure (r : Reason) (s : State) : EndsOnlyInFailure s (refuse r s) :=
  (next_endsOnlyInFailure_iff _ _).mpr (.inr ⟨.refused r, rfl, rfl⟩)

@[simp] theorem fault_endsOnlyInFailure (f : Fault) (s : State) : EndsOnlyInFailure s (.fault f) := by
  rintro _ ⟨⟩

/-- R33: a response without payload has a status other than OK. -/
theorem status_ne_zero_of_payload_eq_none {r : Response} (h : r.payload = none) : r.status ≠ 0 := by
  obtain ⟨-, -, -, -, -, -, -, hall⟩ := statusCodesAreThoseOfTheTable
  intro hok
  simpa [h] using (hall r).2.mpr hok

/-! ## Fields -/

theorem packField_endsOnlyInFailure (k : Kind) (w : Nat) (o : BitOrder) (enc : Value → Except ErrorKind Bits)
    (s : State) : EndsOnlyInFailure s (packField k w o enc s) := by
  rcases packField_cases k w o enc s with ⟨-, h⟩ | ⟨-, -, h⟩ | ⟨_, _, -, -, -, h⟩ | ⟨_, _, -, -, -, h⟩ <;> simp [h]

theorem unpackField_endsOnlyInFailure (k : Kind) (w : Nat) (o : BitOrder) (dec : Bits → Except ErrorKind Value)
    (s : State) : EndsOnlyInFailure s (unpackField k w o dec s) := by
  rcases unpackField_cases k w o dec s with ⟨-, h⟩ | ⟨-, -, h⟩ | ⟨_, -, -, -, h⟩ | ⟨_, -, -, -, h⟩ <;> simp [h]

theorem execPEnc_endsOnlyInFailure (w : Nat) (o : BitOrder) (s : State) : EndsOnlyInFailure s (execPEnc w o s) := by
  unfold execPEnc
  split <;> simp

theorem execPDec_endsOnlyInFailure (w : Nat) (o : BitOrder) (s : State) : EndsOnlyInFailure s (execPDec w o s) := by
  unfold execPDec
  split <;> simp

/-- R194, R204: a field of a recognised kind, padding or value-carrying, in either direction. -/
theorem fieldMeaning_endsOnlyInFailure (k : Kind) (d : Dir) (w : Nat) (o : BitOrder) (s : State) :
    EndsOnlyInFailure s (fieldMeaning k d w o s) := by
  by_cases hk : k = .p
  · subst hk
    cases d with
    | enc => exact execPEnc_endsOnlyInFailure w o s
    | dec => exact execPDec_endsOnlyInFailure w o s
  · cases d with
    | enc => rw [fieldMeaning_enc_of_ne_padding hk]; exact packField_endsOnlyInFailure k w o _ s
    | dec => rw [fieldMeaning_dec_of_ne_padding hk]; exact unpackField_endsOnlyInFailure k w o _ s

/-- R196: the field instructions, those of the letters that are no kind included. -/
theorem exec_field_endsOnlyInFailure {i : Instr} {f : FieldSpec} (hf : i.fieldSpec = some f) (s : State) :
    EndsOnlyInFailure s (exec i s) := by
  rcases exec_decodeField (decodeField_of_fieldSpec hf) s with ⟨-, he⟩ | ⟨k, -, he⟩ <;> rw [he]
  · exact raise_endsOnlyInFailure _ s
  · exact fieldMeaning_endsOnlyInFailure k i.dir f.width f.order s

/-! ## Commands and groups -/

@[simp] theorem beginCompile_phase (s : State) : (beginCompile s).phase = s.phase := by
  rcases beginCompile_cases s with ⟨_, -, h⟩ | ⟨-, h⟩ <;> rw [h]

theorem execPack_endsOnlyInFailure (s : State) : EndsOnlyInFailure s (execPack s) := by
  rcases execPack_cases s with h | h <;> simp [h]

theorem execUnpack_endsOnlyInFailure (s : State) : EndsOnlyInFailure s (execUnpack s) := by
  rcases execUnpack_cases s with h | h <;> simp [h]

theorem execCalcsize_endsOnlyInFailure (s : State) : EndsOnlyInFailure s (execCalcsize s) := by
  rcases execCalcsize_cases s with h | h <;> simp [h]

theorem execByteswap_endsOnlyInFailure (s : State) : EndsOnlyInFailure s (execByteswap s) := by
  unfold execByteswap
  split_ifs <;> simp

theorem swapGroup_endsOnlyInFailure (g : Nat) (s : State) : EndsOnlyInFailure s (swapGroup g s) := by
  rcases swapGroup_cases g s with ⟨-, h⟩ | ⟨-, -, h⟩ | ⟨-, -, h⟩ <;> simp [h]

/-- R212: the group characters are turns of their sizes. -/
theorem exec_groupChar_endsOnlyInFailure {i : Instr} (h : i ∈ groupSizes.map Prod.fst) (s : State) :
    EndsOnlyInFailure s (exec i s) := by
  obtain ⟨p, hp, rfl⟩ := List.mem_map.mp h
  rw [exec_groupSizes hp]
  exact swapGroup_endsOnlyInFailure p.2 s

/-! ## Every instruction -/

theorem exec_endsOnlyInFailure (i : Instr) (s : State) : EndsOnlyInFailure s (exec i s) := by
  cases hf : i.fieldSpec with
  | some f => exact exec_field_endsOnlyInFailure hf s
  | none =>
    cases i
    case prefixMsb | prefixLsb | skip => exact (next_endsOnlyInFailure_iff _ _).mpr (.inl rfl)
    case pack => exact execPack_endsOnlyInFailure s
    case unpack => exact execUnpack_endsOnlyInFailure s
    case calcsize => exact execCalcsize_endsOnlyInFailure s
    case byteswap => exact execByteswap_endsOnlyInFailure s
    case byteswapGroup0 | byteswapGroup1 | byteswapGroup2 | byteswapGroup3 | byteswapGroup4 | byteswapGroup5
        | byteswapGroup6 | byteswapGroup7 | byteswapGroup8 | byteswapGroup9 =>
      exact exec_groupChar_endsOnlyInFailure (by decide) s
    -- what is left are the field instructions, which have an entry
    all_goals cases hf

/-- Settles O26: an instruction that leaves BUSY does not keep its phase, so it failed, and `endCall` writes the state
the statement names. -/
theorem anInstructionThatEndsACallLeavesOnlyItsStatus :
    Obligations.AnInstructionThatEndsACallLeavesOnlyItsStatus := by
  intro i s t hbusy h hidle
  rcases exec_endsOnlyInFailure i s t h with hphase | ⟨r, hnone, rfl⟩
  · simp [hbusy, hidle] at hphase
  · exact ⟨r, hnone, status_ne_zero_of_payload_eq_none hnone, rfl⟩

end Sys2Proof.Machine
end
